-- ==== Sys2Proof/Word.lean ====
section
/-! DEFINITION. The two word types of the block: the byte of a buffer and the 32-bit host register. -/

namespace Sys2Proof

/-- One byte of IBUF or OBUF (00_scope.md R13). -/
abbrev Byte := BitVec 8

/-- One 32-bit host register (10_state.md R20). -/
abbrev Word := BitVec 32

/-- A 6-bit value of the base64 alphabet (42_base64.md R140). -/
abbrev Sextet := BitVec 6

/-- A 4-bit value of the hex alphabet (43_hex.md R170). -/
abbrev Nibble := BitVec 4

end Sys2Proof
end

