-- ==== Sys2Proof/Syntax.lean ====
section
/-! DEFINITION. The commands of the block: one constructor per row of spec/opcode_table.json. A command
has no operand field (30_encoding.md R71). -/

namespace Sys2Proof

/-- The operation set (00_scope.md R3, 30_encoding.md R72). -/
inductive Instr where
  /-- `encode_base64(bytes) -> string` (42_base64.md R147). -/
  | b64enc
  /-- `decode_base64(string) -> bytes` (42_base64.md R156). -/
  | b64dec
  /-- `encode_hex(bytes) -> string` (43_hex.md R173). -/
  | hexenc
  /-- `decode_hex(string) -> bytes` (43_hex.md R177). -/
  | hexdec
deriving DecidableEq, Repr

/-- The 2-bit field `OP = 2*CODEC + DIR` (30_encoding.md R70, R72). -/
def Instr.op : Instr → BitVec 2
  | .b64enc => 0
  | .b64dec => 1
  | .hexenc => 2
  | .hexdec => 3

/-- `DIR` = 1: text to bytes (30_encoding.md R70). -/
def Instr.isDecoder : Instr → Bool
  | .b64enc => false
  | .b64dec => true
  | .hexenc => false
  | .hexdec => true

end Sys2Proof
end

