-- ==== Sys2Proof/Decode.lean ====
section
/-! DEFINITION. The decoder of the CTRL word (30_encoding.md R70 to R75) and, after it, the encoder. -/

namespace Sys2Proof

/-- Why a CTRL word is no command. -/
inductive DecodeReject where
  /-- `START = 0`, reserved bits zero: a no-operation (30_encoding.md R73). -/
  | startClear
  /-- One of bits [31:3] is set: a reserved encoding (30_encoding.md R74). -/
  | reservedBits
deriving DecidableEq, Repr

/-- The command of an `OP` field (30_encoding.md R72): bit 1 is `CODEC`, bit 0 is `DIR`. -/
def opCommand (op : BitVec 2) : Instr :=
  match op.getLsbD 1, op.getLsbD 0 with
  | false, false => .b64enc
  | false, true => .b64dec
  | true, false => .hexenc
  | true, true => .hexdec

/-- Decode one CTRL word. It does not look at the state (30_encoding.md R75). -/
def decode (w : Word) : Except DecodeReject Instr :=
  if w.extractLsb' 3 29 ≠ 0 then .error .reservedBits
  else if w.getLsbD 0 then .ok (opCommand (w.extractLsb' 1 2))
  else .error .startClear

/-- The CTRL word of a command, by fields (30_encoding.md R70): reserved, `OP`, `START`. -/
def encode (i : Instr) : Word := (0 : BitVec 29) ++ i.op ++ (1 : BitVec 1)

/-- The table's word (30_encoding.md R70: one 32-bit word, bit 0 the least significant) as the
decoder reads it. A word crosses the register interface whole, so no byte order arises (R12). -/
def decodeTableWord (nbits w : Nat) : Option Instr :=
  if w % 2 ^ nbits < 2 ^ 32 then
    match decode (BitVec.ofNat 32 (w % 2 ^ nbits)) with
    | .ok i => some i
    | .error _ => none
  else none

end Sys2Proof
end

