-- ==== Sys2Proof/Config.lean ====
section
/-! DEFINITION. What one built block fixes (00_scope.md section 4) and the values the spec leaves free. -/

namespace Sys2Proof

/-- The OPEN parameters of one built block (00_scope.md R9 to R11). They are constants of the block:
State carries them so that every statement holds for all of them, and no step writes them (log 1). -/
structure Params where
  /-- Lane width `L` in bytes, readable in `LANE_W` (R9). -/
  L : Nat
  /-- Small-input threshold `T_SMALL` (R10): any natural number. -/
  tSmall : Nat
  /-- `NMAX`, the capacity of IBUF, readable in `CAP` (R11). -/
  nmax : Nat
deriving DecidableEq, Repr

/-- The supported lane widths (00_scope.md R9). -/
def Params.supported (p : Params) : Bool := p.L == 16 || p.L == 32 || p.L == 64

/-- The number of OBUF bytes (00_scope.md R11, 10_state.md R35, 20_memory.md R50); no host access reaches
an offset beyond them. -/
def Params.obufCap (p : Params) : Nat := 2 * p.nmax

/-- The block that `State.reset` is the reset state of. DESIGN CHOICE (log 1): the values of the
host programs of 95_test_vectors.md section 3. -/
def Params.default : Params where
  L := 16
  tSmall := 16
  nmax := 4096

/-- FREE VALUE (93_implementation_defined.md U8, log 6): what IBUF offset `o` holds after the reset
event number `epoch`, until the host writes it. Fixed but unknown per byte. -/
opaque Config.ibufFree : (epoch o : Nat) → Byte

/-- FREE VALUE (log 24): what `LANE_W` reads on a block whose lane width `L` does not fit the 32 bits of
the register. 00_scope.md R9 does not bound `L`, and 10_state.md R20 and R27 give no value there. -/
opaque Config.laneWFree : (L : Nat) → Word

/-- FREE VALUE (93_implementation_defined.md U5, log 7): the value of the draw number `k` of a host
read of OBUF where the spec gives the byte no value. -/
opaque Config.obufFree : (k : Nat) → Byte

end Sys2Proof
end

