-- ==== Sys2Proof/Machine/State.lean ====
section
/-! DEFINITION. The state of the block, as plain data, and the reset state. -/

namespace Sys2Proof.Machine

/-- `STATUS.STATE` (10_state.md R23, R24); the values 5 to 7 are never produced. -/
inductive BlockState where
  | idle
  | busy
  | done
  | error
  | fatal
deriving DecidableEq, Repr

/-- `STATUS.ERR_KIND` (10_state.md R23); the value 3 is never produced. -/
inductive ErrKind where
  | none
  | length
  | codec
deriving DecidableEq, Repr

/-- The sub-phase `SUB` of a running command (10_state.md R31). -/
inductive SubPhase where
  | entry
  | scalar
  | vector
  | finish
deriving DecidableEq, Repr

/-- The fields of `STATUS` (10_state.md R23); `Status.word` in Machine/Flags.lean is the register (log 17). -/
structure Status where
  state : BlockState
  errKind : ErrKind
  pad : BitVec 2
  op : Instr
deriving DecidableEq, Repr

/-- The engine's hidden state (10_state.md R28). Lengths and cursors are natural numbers
(41_engine.md R123: no rule wraps, log 11). -/
structure Engine where
  /-- `OPL`, the latched operation. -/
  opl : Instr
  /-- `N`, the latched input length. -/
  n : Nat
  /-- `PADC`, the Padding Count. -/
  padc : BitVec 2
  /-- `NEFF`, the number of input bytes the loop consumes. -/
  neff : Nat
  /-- `OLEN`, the exact output length. -/
  olen : Nat
  /-- `IDX`, the input cursor. -/
  idx : Nat
  /-- `ODX`, the output cursor. -/
  odx : Nat
  /-- `SUB`, the sub-phase. -/
  sub : SubPhase
deriving DecidableEq, Repr

/-- A buffer memory: (offset, byte) pairs with strictly rising offsets. An offset that is not listed
has not been written since reset (log 8). -/
abbrev Memory := List Host.Cell

/-- One action of the host or of the world outside the block (30_encoding.md R77,
70_reset_and_hazards.md R215). -/
inductive HostAction where
  /-- `WR`: write a 32-bit value to the register of that number. -/
  | write (reg : Nat) (v : Word)
  /-- `RD`: read the register of that number. -/
  | read (reg : Nat)
  /-- `POLL`: read `STATUS` until `STATE` is not `BUSY`. -/
  | poll
  /-- Write one byte of IBUF. -/
  | writeIbuf (o : Nat) (b : Byte)
  /-- Read one byte of IBUF back (10_state.md R34). -/
  | readIbuf (o : Nat)
  /-- Read one byte of OBUF. -/
  | readObuf (o : Nat)
  /-- The host waits while the engine takes its next step, if one is enabled. -/
  | yieldEngine
  /-- The reset event. -/
  | reset
deriving DecidableEq, Repr

/-- What one read of the host returned. -/
inductive ReadBack where
  | word (v : Word)
  | byte (b : Byte)
deriving DecidableEq, Repr

/-- The machine. INVENTORY.md, section State, names the rule and the reset value of each field. -/
structure State where
  params : Params
  srcLen : Word
  status : Status
  dstLen : Word
  errOffset : Word
  errByte : Word
  eng : Engine
  ibuf : Memory
  obuf : Memory
  epoch : Nat
  draws : Nat
  script : List HostAction
  reads : List ReadBack
deriving DecidableEq, Repr

/-- Why the model stops with a fault. None of them is an exception of the block, which are next states. -/
inductive Fault where
  /-- `MemRead` beyond the latched input length (00_scope.md R16, 20_memory.md R58). Raised by the
  engine's loads. Safe: the spec gives such a read no effect, and no state of the invariant reaches it (log 20). -/
  | readOutOfBounds
  /-- `MemWrite` beyond the computed output length (00_scope.md R16, 20_memory.md R58). Raised by the
  engine's stores. Safe: as above (log 20). -/
  | writeOutOfBounds
  /-- A lane primitive outside its defined operands (93_implementation_defined.md U11). Raised by the
  VECTOR path. Safe: the spec defines no value there, and no state of the invariant reaches it (log 14). -/
  | laneOperand
  /-- A host access to an IBUF offset of `NMAX` or more (10_state.md R34). Raised by the host actions.
  Safe: the offset does not exist (log 9). -/
  | noSuchIbufOffset
  /-- A host access to an OBUF offset beyond its capacity (10_state.md R35). Raised by the host
  actions. Safe: the offset does not exist (log 9). -/
  | noSuchObufOffset
deriving DecidableEq, Repr

/-- Why the model gives an action no meaning. -/
inductive Refusal where
  /-- An instruction without a meaning in `exec`. Raised by no arm. Safe. -/
  | notModelled (mnemonic : String)
  /-- U1: a CTRL word with one of bits [31:3] set (30_encoding.md R74). Raised by the CTRL write. Safe. -/
  | reservedCommand
  /-- U2: START while `BUSY` (70_reset_and_hazards.md R222). Raised by every command. Safe. -/
  | startWhileBusy
  /-- U3: a register number of 8 or more (10_state.md R20). Raised by register accesses. Safe. -/
  | noSuchRegister
  /-- U4: START with `SRC_LEN > NMAX` (10_state.md R25). Raised by every command. Safe. -/
  | sourceTooLong
  /-- U6: IBUF written while `BUSY` (70_reset_and_hazards.md R224). Raised by the IBUF write. Safe. -/
  | ibufWriteWhileBusy
  /-- IBUF read by the host while `BUSY` (60_exceptions.md R195, log 10). Raised by the IBUF read. Safe. -/
  | ibufReadWhileBusy
  /-- U7: `SRC_LEN` written while `BUSY` (70_reset_and_hazards.md R223). Raised by the register write. Safe. -/
  | srcLenWriteWhileBusy
deriving DecidableEq, Repr

/-- `STATUS` after reset: 0x00000000 (10_state.md R21, R38). -/
def Status.reset : Status where
  state := .idle
  errKind := .none
  pad := 0
  op := .b64enc

/-- The hidden state after reset. DESIGN CHOICE (log 5): the spec gives none and reads none. -/
def Engine.reset : Engine where
  opl := .b64enc
  n := 0
  padc := 0
  neff := 0
  olen := 0
  idx := 0
  odx := 0
  sub := .entry

/-- The state of a block built with parameters `p`, right after power-on (10_state.md R38). The
model's own fields start at zero and empty (log 23). -/
def State.resetOf (p : Params) : State where
  params := p
  srcLen := 0
  status := Status.reset
  dstLen := 0
  errOffset := 0
  errByte := 0
  eng := Engine.reset
  ibuf := []
  obuf := []
  epoch := 0
  draws := 0
  script := []
  reads := []

/-- The machine right after reset. -/
def State.reset : State := State.resetOf Params.default

end Sys2Proof.Machine
end

