-- ==== Sys2Proof/Machine/Flags.lean ====
section
/-! DEFINITION. The status computations: the layout of `STATUS`, what START leaves in it, and the
structural length check. -/

namespace Sys2Proof.Machine

/-- The 3-bit code of `STATUS.STATE` (10_state.md R23). -/
def BlockState.code : BlockState → BitVec 3
  | .idle => 0
  | .busy => 1
  | .done => 2
  | .error => 3
  | .fatal => 4

/-- The 2-bit code of `STATUS.ERR_KIND` (10_state.md R23). -/
def ErrKind.code : ErrKind → BitVec 2
  | .none => 0
  | .length => 1
  | .codec => 2

/-- The register `STATUS` (10_state.md R23): [31:14] reserved, [13:12] `OP`, [11:10] reserved, [9:8]
`PAD`, [7:6] reserved, [5:4] `ERR_KIND`, [3] reserved, [2:0] `STATE`; reserved bits are 0. -/
def Status.word (t : Status) : Word :=
  (0 : BitVec 18) ++ t.op.op ++ (0 : BitVec 2) ++ t.pad ++ (0 : BitVec 2) ++ t.errKind.code
    ++ (0 : BitVec 1) ++ t.state.code

/-- `STATUS` after an accepted START of `i` (41_engine.md R107). -/
def Status.started (i : Instr) : Status where
  state := .busy
  errKind := .none
  pad := 0
  op := i

/-- Whether the structural length check of ENTRY fails (41_engine.md R108, 42_base64.md R152,
43_hex.md R176): the total length, trailing padding included (90_conflicts.md C1). -/
def lengthBad (i : Instr) (n : Nat) : Bool :=
  match i with
  | .b64enc => false
  | .b64dec => n % 4 != 0
  | .hexenc => false
  | .hexdec => n % 2 != 0

end Sys2Proof.Machine
end

