-- ==== Sys2Proof/Machine/Operands.lean ====
section
/-! DEFINITION. The implicit operands of a command (30_encoding.md R71) and the per-command constants
that follow from `L` (41_engine.md R106, R109). -/

namespace Sys2Proof.Machine

/-- `g_in` (41_engine.md R106): input bytes of one group. -/
def gIn : Instr → Nat
  | .b64enc => 3
  | .b64dec => 4
  | .hexenc => 1
  | .hexdec => 2

/-- `g_out` (41_engine.md R106): output bytes of one group. -/
def gOut : Instr → Nat
  | .b64enc => 4
  | .b64dec => 3
  | .hexenc => 2
  | .hexdec => 1

/-- `K` (41_engine.md R106): groups of one full vector step. -/
def vectorGroups (L : Nat) : Instr → Nat
  | .b64enc => L / 4
  | .b64dec => L / 4
  | .hexenc => L
  | .hexdec => L

/-- `K_eff` (41_engine.md R109): one group per step in the scalar path. -/
def groups (L : Nat) (sub : SubPhase) (i : Instr) : Nat :=
  if sub = .vector then vectorGroups L i else 1

/-- `S_i` (41_engine.md R109): input bytes of one full step in the path in force. -/
def stepIn (L : Nat) (sub : SubPhase) (i : Instr) : Nat := gIn i * groups L sub i

/-- `S_o` (41_engine.md R109): output bytes of one full step in the path in force. -/
def stepOut (L : Nat) (sub : SubPhase) (i : Instr) : Nat := gOut i * groups L sub i

/-- `tail_out(R)` (41_engine.md R106): the exact number of output bytes of a tail of `r` bytes. -/
def tailOut (i : Instr) (r : Nat) : Nat :=
  match i with
  | .b64enc => 4 * ((r + 2) / 3)
  | .b64dec => 3 * r / 4
  | .hexenc => 2 * r
  | .hexdec => r / 2

/-- `OLEN` (41_engine.md R108): the exact output length, computed before the first transform step. -/
def outLen (i : Instr) (n : Nat) (padc : BitVec 2) : Nat :=
  match i with
  | .b64enc => 4 * ((n + 2) / 3)
  | .b64dec => 3 * (n / 4) - padc.toNat
  | .hexenc => 2 * n
  | .hexdec => n / 2

/-- `S_i` of the step the engine is about to take. -/
def State.stepIn (s : State) : Nat := Machine.stepIn s.params.L s.eng.sub s.eng.opl

/-- `S_o` of the step the engine is about to take. -/
def State.stepOut (s : State) : Nat := Machine.stepOut s.params.L s.eng.sub s.eng.opl

end Sys2Proof.Machine
end

