-- ==== Sys2Proof/WellFormed.lean ====
section
/-! DEFINITION. Well-formedness: of a command, of the parameters of a block, of a buffer memory and of a
host action. -/

namespace Sys2Proof

/-- A command has no operand field, so every command is well formed (30_encoding.md R71, R73). -/
def Instr.wf : Instr → Bool
  | .b64enc => true
  | .b64dec => true
  | .hexenc => true
  | .hexdec => true

/-- `0 < NMAX <= 2^31 - 1` (00_scope.md R11). Any `L` and any `T_SMALL` may be built (R9, R10). -/
def Params.wf (p : Params) : Bool := decide (0 < p.nmax) && decide (p.nmax ≤ 2 ^ 31 - 1)

namespace Machine

/-- The canonical form of a buffer memory: strictly rising offsets (log 8). -/
abbrev Memory.wf (m : Memory) : Prop := m.Pairwise (fun c d => c.1 < d.1)

/-- A host action that names only what exists: register numbers 0 to 7 (10_state.md R20), IBUF
offsets below `NMAX` (R34), OBUF offsets below its capacity (R35). -/
def HostAction.wf (p : Params) : HostAction → Bool
  | .write r _ => decide (r < 8)
  | .read r => decide (r < 8)
  | .poll => true
  | .writeIbuf o _ => decide (o < p.nmax)
  | .readIbuf o => decide (o < p.nmax)
  | .readObuf o => decide (o < p.obufCap)
  | .yieldEngine => true
  | .reset => true

end Machine

end Sys2Proof
end

