-- ==== Sys2Proof/Machine/Ops.lean ====
section
/-! DEFINITION. The shared operations: the buffer memories, the engine's `MemRead` and `MemWrite`, the
host registers, START, and taking an exception. -/

namespace Sys2Proof.Machine

/-- The byte listed at offset `o`; `none` where nothing has been written since reset. -/
def Memory.read? : Memory → Nat → Option Byte
  | [], _ => none
  | (a, b) :: m, o => if o = a then some b else Memory.read? m o

/-- Write one byte, keeping the canonical form. -/
def Memory.write : Memory → Nat → Byte → Memory
  | [], o, b => [(o, b)]
  | (a, x) :: m, o, b =>
    if o < a then (o, b) :: (a, x) :: m
    else if o = a then (o, b) :: m
    else (a, x) :: Memory.write m o b

/-- Write the bytes of `v` at `o`, `o + 1`, …, the first at the lowest offset (20_memory.md R53). -/
def Memory.writeBytes : Memory → Nat → List Byte → Memory
  | m, _, [] => m
  | m, o, b :: v => Memory.writeBytes (Memory.write m o b) (o + 1) v

/-- What IBUF offset `o` holds. An offset not written since reset holds a free value, the same at
every read (93_implementation_defined.md U8, log 6). -/
def State.ibufByte (s : State) (o : Nat) : Byte :=
  (s.ibuf.read? o).getD (Config.ibufFree s.epoch o)

/-- The `n` bytes of IBUF from offset `o`, lowest offset first. -/
def State.ibufBytes (s : State) (o n : Nat) : List Byte :=
  (List.range n).map (fun i => s.ibufByte (o + i))

/-- The Input View of the command that is about to start: `IBUF[0..SRC_LEN)` (30_encoding.md R71). -/
def State.input (s : State) : List Byte := s.ibufBytes 0 s.srcLen.toNat

/-- `MemRead(IBUF, o, n)` (00_scope.md R16), with its bound as a checked precondition (41_engine.md R115). -/
def memRead (s : State) (o n : Nat) : Except Fault (List Byte) :=
  if o + n ≤ s.eng.n then .ok (s.ibufBytes o n) else .error .readOutOfBounds

/-- `MemWrite(OBUF, o, len(v), v)` (00_scope.md R16), with its bound `OLEN` as a checked precondition
(41_engine.md R115). Where `NMAX` is 1, `OLEN` of a `B64ENC` exceeds the capacity of OBUF (log 21). -/
def memWrite (s : State) (o : Nat) (v : List Byte) : Except Fault State :=
  if o + v.length ≤ s.eng.olen then .ok { s with obuf := s.obuf.writeBytes o v }
  else .error .writeOutOfBounds

/-- The names of the eight host registers (10_state.md R21). -/
inductive Reg where
  | ctrl
  | srcLen
  | status
  | dstLen
  | errOffset
  | errByte
  | laneW
  | cap
deriving DecidableEq, Repr

/-- The register of a number (10_state.md R20, R21); numbers 8 and above do not exist. -/
def regOfNumber : Nat → Option Reg
  | 0 => some .ctrl
  | 1 => some .srcLen
  | 2 => some .status
  | 3 => some .dstLen
  | 4 => some .errOffset
  | 5 => some .errByte
  | 6 => some .laneW
  | 7 => some .cap
  | _ => none

/-- What `LANE_W` reads (10_state.md R27): the lane width `L`. DESIGN CHOICE (log 24): the spec bounds no
`L`, and where `L` does not fit 32 bits the register reads a free value. -/
def laneWord (p : Params) : Word :=
  if p.L < 2 ^ 32 then BitVec.ofNat 32 p.L else Config.laneWFree p.L

/-- The value a register read returns (10_state.md R21, R22, R23, R27). No read has a side effect (20_memory.md R60). -/
def State.readReg (s : State) : Reg → Word
  | .ctrl => 0
  | .srcLen => s.srcLen
  | .status => s.status.word
  | .dstLen => s.dstLen
  | .errOffset => s.errOffset
  | .errByte => s.errByte
  | .laneW => laneWord s.params
  | .cap => BitVec.ofNat 32 s.params.nmax

/-- The exceptions of the block (60_exceptions.md R190): a closed taxonomy. -/
inductive Exception where
  | lengthError
  | codecError (offset : Nat) (byte : Byte)
  | fatal
deriving DecidableEq, Repr

/-- Taking an exception (60_exceptions.md R198, R199, R200). Nothing else changes (R201). There is no
return from an exception (R202). -/
def raise (e : Exception) (s : State) : State :=
  match e with
  | .lengthError => { s with status := { s.status with state := .error, errKind := .length } }
  | .codecError offset byte =>
    { s with
      status := { s.status with state := .error, errKind := .codec }
      errOffset := BitVec.ofNat 32 offset
      errByte := byte.setWidth 32 }
  | .fatal => { s with status := { s.status with state := .fatal } }

/-- The latch-and-clear of an accepted START (41_engine.md R107). -/
def State.started (s : State) (i : Instr) : State :=
  { s with
    dstLen := 0
    errOffset := 0
    errByte := 0
    status := Status.started i
    eng := { s.eng with opl := i, n := s.srcLen.toNat, sub := .entry } }

/-- START (41_engine.md R107): accepted in IDLE, DONE and ERROR, without effect in FATAL, refused
while BUSY (93_implementation_defined.md U2) and for a source longer than `NMAX` (U4). -/
def start (i : Instr) (s : State) : Host.Outcome State Fault Refusal :=
  match s.status.state with
  | .idle | .done | .error =>
    if s.srcLen.toNat ≤ s.params.nmax then .next (s.started i) else .refused .sourceTooLong
  | .fatal => .next s
  | .busy => .refused .startWhileBusy

/-- The result of a command as a pure function of its input (00_scope.md R19, 30_encoding.md R79). -/
inductive CodecResult where
  | ok (out : List Byte)
  | lengthError
  | codecError (offset : Nat) (byte : Byte)
deriving DecidableEq, Repr

/-- How the load, validate, transform and store of one chunk ends (41_engine.md R110, R111). -/
inductive ChunkEnd where
  /-- The first failing position, relative to the chunk, and its byte; nothing was stored. -/
  | invalid (p : Nat) (b : Byte)
  /-- The output is stored. -/
  | stored (s : State)
deriving DecidableEq, Repr

end Sys2Proof.Machine
end

