-- ==== Sys2Proof/Machine/Lane.lean ====
section
/-! DEFINITION. The Lane Vector and its primitive operations (40_lane_vector.md). A lane is the list of
its `L` bytes, position 0 first; a mask is the list of its `L` booleans. Both are values inside one
step (10_state.md R32, R33). A primitive used outside its operands has no value (log 14). -/

namespace Sys2Proof.Machine

/-- A lane register's contents: `L` bytes (40_lane_vector.md R85). -/
abbrev Lane := List Byte

/-- A lane mask: `L` booleans (40_lane_vector.md R85). -/
abbrev Mask := List Bool

/-- `LOAD_FULL(o)` (40_lane_vector.md R86). -/
def loadFull (s : State) (o : Nat) : Except Fault Lane := memRead s o s.params.L

/-- `LOAD_MASK(o, n)` (40_lane_vector.md R87): only offsets `o .. o+n-1` are read, and the inactive positions are zero. -/
def loadMask (s : State) (o n : Nat) : Except Fault Lane :=
  if n ≤ s.params.L then
    match memRead s o n with
    | .ok c => .ok (c ++ List.replicate (s.params.L - n) 0)
    | .error f => .error f
  else .error .laneOperand

/-- `STORE_FULL(o, v)` (40_lane_vector.md R88). -/
def storeFull (s : State) (o : Nat) (v : Lane) : Except Fault State :=
  if v.length = s.params.L then memWrite s o v else .error .laneOperand

/-- `STORE_MASK(o, v, n)` (40_lane_vector.md R89). -/
def storeMask (s : State) (o : Nat) (v : Lane) (n : Nat) : Except Fault State :=
  if v.length = s.params.L ∧ n ≤ s.params.L then memWrite s o (v.take n) else .error .laneOperand

/-- `VALID(n)` (40_lane_vector.md R90). -/
def valid (L n : Nat) : Mask := (List.range L).map (fun i => decide (i < n))

/-- A byte constant where a lane is expected (40_lane_vector.md R100). -/
def broadcast (L : Nat) (c : Byte) : Lane := List.replicate L c

/-- `CMPEQ` (40_lane_vector.md R91). -/
def cmpEq (a b : Lane) : Mask := List.zipWith (fun x y => decide (x = y)) a b

/-- `CMPGTU` (40_lane_vector.md R91): unsigned. -/
def cmpGtu (a b : Lane) : Mask := List.zipWith (fun x y => decide (y.toNat < x.toNat)) a b

/-- `CMPLTU` (40_lane_vector.md R91): unsigned. -/
def cmpLtu (a b : Lane) : Mask := List.zipWith (fun x y => decide (x.toNat < y.toNat)) a b

/-- A mask used as a lane (40_lane_vector.md R91). -/
def maskLane (m : Mask) : Lane := m.map (fun t => if t then 0xFF else 0x00)

/-- `SHL(a, k)` (40_lane_vector.md R92); a count of 8 or more is not defined. -/
def shl (a : Lane) (k : Nat) : Option Lane :=
  if k ≤ 7 then some (a.map (fun x : Byte => x <<< k)) else none

/-- `SHR(a, k)` (40_lane_vector.md R92): logical; a count of 8 or more is not defined. -/
def shr (a : Lane) (k : Nat) : Option Lane :=
  if k ≤ 7 then some (a.map (fun x : Byte => x >>> k)) else none

/-- `ADD` (40_lane_vector.md R93): wraps modulo 256. -/
def addLane (a b : Lane) : Lane := List.zipWith (fun x y => x + y) a b

/-- `SUB` (40_lane_vector.md R93): wraps modulo 256. -/
def subLane (a b : Lane) : Lane := List.zipWith (fun x y => x - y) a b

/-- `SUBS` (40_lane_vector.md R93): saturates at 0. -/
def subsLane (a b : Lane) : Lane :=
  List.zipWith (fun x y => if y.toNat ≤ x.toNat then x - y else 0) a b

/-- `AND` (40_lane_vector.md R94). -/
def andLane (a b : Lane) : Lane := List.zipWith (fun x y => x &&& y) a b

/-- `OR` (40_lane_vector.md R94). -/
def orLane (a b : Lane) : Lane := List.zipWith (fun x y => x ||| y) a b

/-- `XOR` (40_lane_vector.md R94). -/
def xorLane (a b : Lane) : Lane := List.zipWith (fun x y => x ^^^ y) a b

/-- `ANDN(a, b)` (40_lane_vector.md R94): `(a[i] ^ 0xFF) & b[i]`. -/
def andnLane (a b : Lane) : Lane := List.zipWith (fun x y => (x ^^^ 0xFF) &&& y) a b

/-- `NOT` (40_lane_vector.md R94). -/
def notLane (a : Lane) : Lane := a.map (fun x => x ^^^ 0xFF)

/-- `AND` of masks (40_lane_vector.md R94). -/
def andMask (a b : Mask) : Mask := List.zipWith (fun x y => x && y) a b

/-- `OR` of masks (40_lane_vector.md R94). -/
def orMask (a b : Mask) : Mask := List.zipWith (fun x y => x || y) a b

/-- `XOR` of masks (40_lane_vector.md R94). -/
def xorMask (a b : Mask) : Mask := List.zipWith (fun x y => xor x y) a b

/-- `ANDN` of masks (40_lane_vector.md R94). -/
def andnMask (a b : Mask) : Mask := List.zipWith (fun x y => !x && y) a b

/-- `NOT` of a mask (40_lane_vector.md R94). -/
def notMask (a : Mask) : Mask := a.map (fun x => !x)

/-- `LOOKUP16(t, idx)` (40_lane_vector.md R95): each 128-bit group looks up in its own 16 entries by
the low 4 bits of the index. An index with bit 7 set is not defined (93_implementation_defined.md U11). -/
def lookup16 (t idx : Lane) : Option Lane :=
  if t.length = idx.length ∧ t.length % 16 = 0 ∧ idx.all (fun x => !x.getLsbD 7) then
    some (idx.mapIdx (fun i x => t.getD (16 * (i / 16) + (x &&& 0x0F).toNat) 0))
  else none

/-- `SLIDE_UP(a, k)` (40_lane_vector.md R96): zero fill; a count above `L` is not defined. -/
def slideUp (a : Lane) (k : Nat) : Option Lane :=
  if k ≤ a.length then some (List.replicate k 0 ++ a.take (a.length - k)) else none

/-- `SLIDE_DOWN(a, k)` (40_lane_vector.md R96): zero fill; a count above `L` is not defined. -/
def slideDown (a : Lane) (k : Nat) : Option Lane :=
  if k ≤ a.length then some (a.drop k ++ List.replicate k 0) else none

/-- `EXTRACT(a, i)` (40_lane_vector.md R97). -/
def extract (a : Lane) (i : Nat) : Option Byte := a[i]?

/-- The sequence `s` with `s[2i] = h[i]` and `s[2i+1] = l[i]`. -/
def riffle : Lane → Lane → List Byte
  | a :: h, b :: l => a :: b :: riffle h l
  | _, _ => []

/-- The elements at even positions. -/
def evens : List Byte → Lane
  | a :: _ :: s => a :: evens s
  | [a] => [a]
  | [] => []

/-- The elements at odd positions. -/
def odds : List Byte → Lane
  | _ :: b :: s => b :: odds s
  | [_] => []
  | [] => []

/-- `INTERLEAVE(h, l)` (40_lane_vector.md R98). -/
def interleave (h l : Lane) : Lane × Lane := ((riffle h l).take h.length, (riffle h l).drop h.length)

/-- `DEINTERLEAVE(s0, s1)` (40_lane_vector.md R98). -/
def deinterleave (s0 s1 : Lane) : Lane × Lane := (evens (s0 ++ s1), odds (s0 ++ s1))

/-- `FIRST_FAIL(m, n)` (40_lane_vector.md R99): the least failing position below `n`. -/
def firstFail (m : Mask) (n : Nat) : Option Nat := (List.range n).find? (fun p => m.getD p false)

/-- `FIRST_FAIL2(mh, ml, n)` (40_lane_vector.md R99): the least failing position of the interleaved chunk below `n`. -/
def firstFail2 (mh ml : Mask) (n : Nat) : Option Nat :=
  (List.range n).find? (fun q => if q % 2 = 0 then mh.getD (q / 2) false else ml.getD (q / 2) false)

/-- `LOAD_WINDOW(o, n, pre, post)` (40_lane_vector.md R101): fetches the clamped range around the
nominal chunk and passes on only the nominal bytes. -/
def loadWindow (s : State) (o n pre post : Nat) : Except Fault (List Byte) :=
  if o + n ≤ s.eng.n then
    match memRead s (o - pre) (min s.eng.n (o + n + post) - (o - pre)) with
    | .ok w => .ok ((w.drop (o - (o - pre))).take n)
    | .error f => .error f
  else .error .readOutOfBounds

/-- A primitive's value, or the model's fault where it has none (log 14). -/
def laneValue {α : Type} : Option α → Except Fault α
  | some v => .ok v
  | none => .error .laneOperand

/-- The load of one lane register in a step (41_engine.md R110, R111): `LOAD_FULL` for a whole lane,
`LOAD_MASK` for fewer bytes. -/
def loadLane (s : State) (o n : Nat) : Except Fault Lane :=
  if n = s.params.L then loadFull s o else loadMask s o n

/-- The load of two lane registers (41_engine.md R110, R111): the second is used only for the bytes
beyond the first, and is empty where there are none. -/
def loadLanes (s : State) (o n : Nat) : Except Fault (Lane × Lane) :=
  if n ≤ s.params.L then
    match loadLane s o n with
    | .ok v => .ok (v, broadcast s.params.L 0)
    | .error f => .error f
  else
    match loadFull s o with
    | .ok v =>
      match loadLane s (o + s.params.L) (n - s.params.L) with
      | .ok w => .ok (v, w)
      | .error f => .error f
    | .error f => .error f

/-- The store of one lane register in a step: `STORE_FULL` for a whole lane, `STORE_MASK` for fewer bytes. -/
def storeLane (s : State) (o : Nat) (v : Lane) (n : Nat) : Except Fault State :=
  if n = s.params.L then storeFull s o v else storeMask s o v n

/-- The store of two lane registers, `v` then `w` (43_hex.md R172). -/
def storeLanes (s : State) (o : Nat) (v w : Lane) (n : Nat) : Except Fault State :=
  if n ≤ s.params.L then storeLane s o v n
  else
    match storeFull s o v with
    | .ok s1 => storeLane s1 (o + s.params.L) w (n - s.params.L)
    | .error f => .error f

/-- The bytes `out` in the low positions of a lane, the rest inactive. -/
def laneOf (L : Nat) (out : List Byte) : Lane := out ++ List.replicate (L - out.length) 0

/-- The end of a chunk whose output is stored. -/
def storedEnd : Except Fault State → Except Fault ChunkEnd
  | .ok s => .ok (.stored s)
  | .error f => .error f

/-- The end of a chunk that fails at position `p` of the chunk, the byte fetched by `EXTRACT` (40_lane_vector.md R97). -/
def invalidEnd (p : Nat) (v : Lane) (i : Nat) : Except Fault ChunkEnd :=
  match laneValue (extract v i) with
  | .ok b => .ok (.invalid p b)
  | .error f => .error f

end Sys2Proof.Machine
end

