-- ==== Sys2Proof/Machine/Base64.lean ====
section
/-! DEFINITION. The Base64 codec (42_base64.md): the alphabet, the 3→4 and 4→3 transforms, the chunk
units of the VECTOR path, the two commands as pure functions, and the meanings of `B64ENC` and `B64DEC`. -/

namespace Sys2Proof.Machine

/-- The padding character `'='` (42_base64.md R140). -/
def padChar : Byte := 0x3D

/-- `SYM` (42_base64.md R140). -/
def sym (n : Sextet) : Byte :=
  if n.toNat < 26 then BitVec.ofNat 8 (0x41 + n.toNat)
  else if n.toNat < 52 then BitVec.ofNat 8 (0x61 + (n.toNat - 26))
  else if n.toNat < 62 then BitVec.ofNat 8 (0x30 + (n.toNat - 52))
  else if n.toNat = 62 then 0x2B
  else 0x2F

/-- `VAL64` (42_base64.md R141); `none` is "invalid". -/
def val64 (c : Byte) : Option Sextet :=
  if 0x41 ≤ c.toNat ∧ c.toNat ≤ 0x5A then some (BitVec.ofNat 6 (c.toNat - 0x41))
  else if 0x61 ≤ c.toNat ∧ c.toNat ≤ 0x7A then some (BitVec.ofNat 6 (c.toNat - 0x61 + 26))
  else if 0x30 ≤ c.toNat ∧ c.toNat ≤ 0x39 then some (BitVec.ofNat 6 (c.toNat - 0x30 + 52))
  else if c = 0x2B then some 62
  else if c = 0x2F then some 63
  else none

/-- The four 6-bit fields of a 3-byte group (42_base64.md R142). Each is below 64 by construction. -/
def sextets3 (b0 b1 b2 : Byte) : Sextet × Sextet × Sextet × Sextet :=
  ((b0 >>> 2).setWidth 6,
   (((b0 &&& 0x03) <<< 4) ||| (b1 >>> 4)).setWidth 6,
   (((b1 &&& 0x0F) <<< 2) ||| (b2 >>> 6)).setWidth 6,
   (b2 &&& 0x3F).setWidth 6)

/-- `ENC3` (42_base64.md R142). -/
def enc3 (b0 b1 b2 : Byte) : List Byte :=
  match sextets3 b0 b1 b2 with
  | (q0, q1, q2, q3) => [sym q0, sym q1, sym q2, sym q3]

/-- `ENC1` (42_base64.md R143): the missing bits are 0. -/
def enc1 (b0 : Byte) : List Byte :=
  [sym ((b0 >>> 2).setWidth 6), sym (((b0 &&& 0x03) <<< 4).setWidth 6), padChar, padChar]

/-- `ENC2` (42_base64.md R144): the missing bits are 0. -/
def enc2 (b0 b1 : Byte) : List Byte :=
  [sym ((b0 >>> 2).setWidth 6), sym ((((b0 &&& 0x03) <<< 4) ||| (b1 >>> 4)).setWidth 6),
   sym (((b1 &&& 0x0F) <<< 2).setWidth 6), padChar]

/-- `B64ENC_X` (42_base64.md R145). -/
def b64encX : List Byte → List Byte
  | b0 :: b1 :: b2 :: c => enc3 b0 b1 b2 ++ b64encX c
  | [b0, b1] => enc2 b0 b1
  | [b0] => enc1 b0
  | [] => []

/-- `DEC4` (42_base64.md R149). -/
def dec4 (v0 v1 v2 v3 : Sextet) : List Byte :=
  [(v0.setWidth 8 <<< 2) ||| (v1.setWidth 8 >>> 4),
   ((v1.setWidth 8 &&& 0x0F) <<< 4) ||| (v2.setWidth 8 >>> 2),
   ((v2.setWidth 8 &&& 0x03) <<< 6) ||| v3.setWidth 8]

/-- `DEC2` (42_base64.md R150): the low 4 bits of `v1` are discarded (R157). -/
def dec2 (v0 v1 : Sextet) : List Byte := [(v0.setWidth 8 <<< 2) ||| (v1.setWidth 8 >>> 4)]

/-- `DEC3` (42_base64.md R150): the low 2 bits of `v2` are discarded (R157). -/
def dec3 (v0 v1 v2 : Sextet) : List Byte :=
  [(v0.setWidth 8 <<< 2) ||| (v1.setWidth 8 >>> 4),
   ((v1.setWidth 8 &&& 0x0F) <<< 4) ||| (v2.setWidth 8 >>> 2)]

/-- The 4→3 repacking of a sequence of 6-bit values (42_base64.md R154). A single leftover value cannot
occur (41_engine.md R106) and gives no byte. -/
def repack64 : List Sextet → List Byte
  | v0 :: v1 :: v2 :: v3 :: v => dec4 v0 v1 v2 v3 ++ repack64 v
  | [v0, v1, v2] => dec3 v0 v1 v2
  | [v0, v1] => dec2 v0 v1
  | [_] => []
  | [] => []

/-- `B64DEC_X` (42_base64.md R154), for a sequence of valid characters; it is used only after
`B64_FAIL` has answered none, so the value at an invalid character is never used (log 14). -/
def b64decX (c : List Byte) : List Byte := repack64 (c.map (fun x => (val64 x).getD 0))

/-- The range test of one character: true where it is outside the alphabet (42_base64.md R153). -/
def bad64 (c : Byte) : Bool := (val64 c).isNone

/-- `B64_FAIL` (42_base64.md R153): the least position of an invalid character. -/
def b64Fail (c : List Byte) : Option Nat := c.findIdx? bad64

/-- The Padding Count of a whole input (42_base64.md R151): only the last two bytes are examined. -/
def paddingCount (s : List Byte) : BitVec 2 :=
  if s ≠ [] ∧ s[s.length - 1]? = some padChar then
    if s[s.length - 2]? = some padChar then 2 else 1
  else 0

/-- The command `B64ENC` as a pure function (42_base64.md R147). -/
def b64encPure (b : List Byte) : CodecResult := .ok (b64encX b)

/-- The command `B64DEC` as a pure function (42_base64.md R156). -/
def b64decPure (s : List Byte) : CodecResult :=
  if s.length % 4 ≠ 0 then .lengthError
  else
    let body := s.take (s.length - (paddingCount s).toNat)
    match b64Fail body with
    | some p => .codecError p (s.getD p 0)
    | none => .ok (b64decX body)

/-- `SYM` of a lane of 6-bit values by the lane primitives: the informative realisation of 42_base64.md
R148, in 128-bit groups. -/
def symLane (v : Lane) : Option Lane :=
  let table : Lane := [71, 252, 252, 252, 252, 252, 252, 252, 252, 252, 252, 237, 240, 65, 0, 0]
  let r := subsLane v (broadcast v.length 51)
  let m := cmpLtu v (broadcast v.length 26)
  let idx := orLane r (andLane (maskLane m) (broadcast v.length 13))
  match lookup16 (List.replicate (v.length / 16) table).flatten idx with
  | some off => some (addLane v off)
  | none => none

/-- The load of `B64ENC` in the VECTOR path (41_engine.md R110, R111, R116): a window load of the nominal
chunk in a full step, a masked load in the tail, whose valid positions are passed on. -/
def loadGroups (s : State) (full : Bool) (n : Nat) : Except Fault (List Byte) :=
  if full then loadWindow s s.eng.idx n 0 0
  else
    match loadMask s s.eng.idx n with
    | .ok v => .ok (v.take n)
    | .error f => .error f

/-- The chunk of `B64ENC` in the VECTOR path (41_engine.md R110, R111, R119): `n` input bytes, `m` output bytes. -/
def b64encVector (s : State) (full : Bool) (n m : Nat) : Except Fault ChunkEnd :=
  match loadGroups s full n with
  | .ok c => storedEnd (storeLane s s.eng.odx (laneOf s.params.L (b64encX c)) m)
  | .error f => .error f

/-- The chunk of `B64DEC` in the VECTOR path (41_engine.md R110, R111, R119; 42_base64.md R153, R154). -/
def b64decVector (s : State) (n m : Nat) : Except Fault ChunkEnd :=
  match loadLane s s.eng.idx n with
  | .ok v =>
    match firstFail (v.map bad64) n with
    | some p => invalidEnd p v p
    | none => storedEnd (storeLane s s.eng.odx (laneOf s.params.L (b64decX (v.take n))) m)
  | .error f => .error f

/-- `B64ENC` (42_base64.md R147, 41_engine.md R107): the CTRL write starts the command; the engine
carries it out by the steps of Machine/Engine.lean (log 4). -/
def execB64enc (s : State) : Host.Outcome State Fault Refusal := start .b64enc s

/-- `B64DEC` (42_base64.md R156, 41_engine.md R107): the CTRL write starts the command; the engine
carries it out by the steps of Machine/Engine.lean (log 4). -/
def execB64dec (s : State) : Host.Outcome State Fault Refusal := start .b64dec s

end Sys2Proof.Machine
end

