-- ==== Sys2Proof/Machine/Hex.lean ====
section
/-! DEFINITION. The Hex codec (43_hex.md): the digits, the 1→2 and 2→1 transforms, the chunk units of
the VECTOR path, the two commands as pure functions, and the meanings of `HEXENC` and `HEXDEC`. -/

namespace Sys2Proof.Machine

/-- `HEXDIGIT` (43_hex.md R170): lower case. -/
def hexDigit (n : Nibble) : Byte :=
  if n.toNat ≤ 9 then BitVec.ofNat 8 (0x30 + n.toNat) else BitVec.ofNat 8 (0x61 + (n.toNat - 10))

/-- `VALHEX` (43_hex.md R171); `none` is "invalid". -/
def valHex (c : Byte) : Option Nibble :=
  if 0x30 ≤ c.toNat ∧ c.toNat ≤ 0x39 then some (BitVec.ofNat 4 (c.toNat - 0x30))
  else if 0x41 ≤ c.toNat ∧ c.toNat ≤ 0x46 then some (BitVec.ofNat 4 (c.toNat - 0x41 + 10))
  else if 0x61 ≤ c.toNat ∧ c.toNat ≤ 0x66 then some (BitVec.ofNat 4 (c.toNat - 0x61 + 10))
  else none

/-- `HEXENC_X` (43_hex.md R172): the high nibble first. -/
def hexencX : List Byte → List Byte
  | b :: c => hexDigit ((b >>> 4).setWidth 4) :: hexDigit ((b &&& 0x0F).setWidth 4) :: hexencX c
  | [] => []

/-- The 4-bit value of a valid digit, as a byte. It is used only where `HEX_FAIL` has answered none,
so the value at an invalid character is never used (log 14). -/
def hexValue (c : Byte) : Byte := ((valHex c).getD 0).setWidth 8

/-- `HEXDEC_X` (43_hex.md R175), for valid characters of even number; a single leftover character
cannot occur (41_engine.md R106) and gives no byte. -/
def hexdecX : List Byte → List Byte
  | h :: l :: c => ((hexValue h <<< 4) ||| hexValue l) :: hexdecX c
  | [_] => []
  | [] => []

/-- The range test of one character (43_hex.md R174): true where it is no hex digit. -/
def badHex (c : Byte) : Bool := (valHex c).isNone

/-- `HEX_FAIL` (43_hex.md R174): the least position of an invalid character. -/
def hexFail (c : List Byte) : Option Nat := c.findIdx? badHex

/-- The command `HEXENC` as a pure function (43_hex.md R173). -/
def hexencPure (b : List Byte) : CodecResult := .ok (hexencX b)

/-- The command `HEXDEC` as a pure function (43_hex.md R177). -/
def hexdecPure (s : List Byte) : CodecResult :=
  if s.length % 2 ≠ 0 then .lengthError
  else
    match hexFail s with
    | some q => .codecError q (s.getD q 0)
    | none => .ok (hexdecX s)

/-- The 16-entry table `"0123456789abcdef"` (43_hex.md R170). -/
def hexTable16 : Lane := (List.range 16).map (fun n => hexDigit (BitVec.ofNat 4 n))

/-- The table repeated in every 128-bit group of a lane (40_lane_vector.md R95). -/
def hexTable (L : Nat) : Lane := (List.replicate (L / 16) hexTable16).flatten

/-- The two digit lanes of an input lane (43_hex.md R172): `LOOKUP16` of the high nibbles and of the
low nibbles, interleaved. -/
def hexencLanes (v : Lane) : Option (Lane × Lane) :=
  match shr v 4 with
  | some hi =>
    match lookup16 (hexTable v.length) hi,
        lookup16 (hexTable v.length) (andLane v (broadcast v.length 0x0F)) with
    | some h, some l => some (interleave h l)
    | _, _ => none
  | none => none

/-- The chunk of `HEXENC` in the VECTOR path (41_engine.md R110, R111, R119; 43_hex.md R172). -/
def hexencVector (s : State) (n m : Nat) : Except Fault ChunkEnd :=
  match loadLane s s.eng.idx n with
  | .ok v =>
    match laneValue (hexencLanes v) with
    | .ok o => storedEnd (storeLanes s s.eng.odx o.1 o.2 m)
    | .error f => .error f
  | .error f => .error f

/-- The byte lane of the two value lanes (43_hex.md R175): `(high << 4) | low`. -/
def hexdecLane (h l : Lane) : Option Lane :=
  match shl (h.map hexValue) 4 with
  | some a => some (orLane a (l.map hexValue))
  | none => none

/-- The chunk of `HEXDEC` in the VECTOR path (41_engine.md R110, R111, R119; 43_hex.md R174, R175):
the characters are deinterleaved, validated on both sides, and combined. -/
def hexdecVector (s : State) (n m : Nat) : Except Fault ChunkEnd :=
  match loadLanes s s.eng.idx n with
  | .ok v =>
    let h := (deinterleave v.1 v.2).1
    let l := (deinterleave v.1 v.2).2
    match firstFail2 (h.map badHex) (l.map badHex) n with
    | some q => invalidEnd q (if q % 2 = 0 then h else l) (q / 2)
    | none =>
      match laneValue (hexdecLane h l) with
      | .ok o => storedEnd (storeLane s s.eng.odx o m)
      | .error f => .error f
  | .error f => .error f

/-- `HEXENC` (43_hex.md R173, 41_engine.md R107): the CTRL write starts the command; the engine
carries it out by the steps of Machine/Engine.lean (log 4). -/
def execHexenc (s : State) : Host.Outcome State Fault Refusal := start .hexenc s

/-- `HEXDEC` (43_hex.md R177, 41_engine.md R107): the CTRL write starts the command; the engine
carries it out by the steps of Machine/Engine.lean (log 4). -/
def execHexdec (s : State) : Host.Outcome State Fault Refusal := start .hexdec s

end Sys2Proof.Machine
end

