-- ==== Sys2Proof/Machine/Engine.lean ====
section
/-! DEFINITION. The Bulk Transform Engine (41_engine.md): ENTRY, the full step, the tail step, FINISH. -/

namespace Sys2Proof.Machine

/-- `XFORM_OPL` (41_engine.md R110). -/
def xform (i : Instr) (c : List Byte) : List Byte :=
  match i with
  | .b64enc => b64encX c
  | .b64dec => b64decX c
  | .hexenc => hexencX c
  | .hexdec => hexdecX c

/-- `FAIL_OPL` (41_engine.md R110); an encoder accepts every byte (60_exceptions.md R194). -/
def failPos (i : Instr) (c : List Byte) : Option Nat :=
  match i with
  | .b64enc => none
  | .b64dec => b64Fail c
  | .hexenc => none
  | .hexdec => hexFail c

/-- The command as a pure function of its whole input (00_scope.md R19, view (a)). -/
def pureResult (i : Instr) (b : List Byte) : CodecResult :=
  match i with
  | .b64enc => b64encPure b
  | .b64dec => b64decPure b
  | .hexenc => hexencPure b
  | .hexdec => hexdecPure b

/-- Padding detection (41_engine.md R108, 42_base64.md R151): at most the last two bytes are read, the
second of them only if the last is `'='`. -/
def detectPadding (s : State) : Except Fault (BitVec 2) :=
  if s.eng.opl = .b64dec ∧ 4 ≤ s.eng.n then
    match memRead s (s.eng.n - 1) 1 with
    | .ok c1 =>
      if c1 = [padChar] then
        match memRead s (s.eng.n - 2) 1 with
        | .ok c2 => if c2 = [padChar] then .ok 2 else .ok 1
        | .error f => .error f
      else .ok 0
    | .error f => .error f
  else .ok 0

/-- What ENTRY writes when it raises nothing (41_engine.md R108). -/
def State.entered (s : State) (padc : BitVec 2) : State :=
  { s with
    status := { s.status with pad := padc }
    eng := { s.eng with
      padc := padc
      neff := s.eng.n - padc.toNat
      olen := outLen s.eng.opl s.eng.n padc
      idx := 0
      odx := 0
      sub := if s.eng.n ≤ s.params.tSmall then .scalar else .vector } }

/-- ENTRY (41_engine.md R108): the lane-width check, the structural length check, padding detection,
output pre-sizing and path selection, in this order (60_exceptions.md R197). -/
def entryStep (s : State) : Except Fault State :=
  if s.params.supported = false then .ok (raise .fatal s)
  else if lengthBad s.eng.opl s.eng.n then .ok (raise .lengthError s)
  else
    match detectPadding s with
    | .ok padc => .ok (s.entered padc)
    | .error f => .error f

/-- One chunk of the scalar path (41_engine.md R109, R110, R111): load, validate, transform, store, by
the byte formulas. -/
def scalarChunk (s : State) (n : Nat) : Except Fault ChunkEnd :=
  match memRead s s.eng.idx n with
  | .ok c =>
    match failPos s.eng.opl c with
    | some p => invalidEnd p c p
    | none => storedEnd (memWrite s s.eng.odx (xform s.eng.opl c))
  | .error f => .error f

/-- One chunk of the vector path: the unit of the latched operation (41_engine.md R119). -/
def vectorChunk (s : State) (full : Bool) (n m : Nat) : Except Fault ChunkEnd :=
  match s.eng.opl with
  | .b64enc => b64encVector s full n m
  | .b64dec => b64decVector s n m
  | .hexenc => hexencVector s n m
  | .hexdec => hexdecVector s n m

/-- One chunk in the path in force: `n` input bytes, `m` output bytes. -/
def chunk (s : State) (full : Bool) (n m : Nat) : Except Fault ChunkEnd :=
  if s.eng.sub = .vector then vectorChunk s full n m else scalarChunk s n

/-- The cursors after a chunk. -/
def State.advance (s : State) (idx odx : Nat) (sub : SubPhase) : State :=
  { s with eng := { s.eng with idx := idx, odx := odx, sub := sub } }

/-- Full transform step (41_engine.md R110). A failing step stores nothing and does not advance; the
chunk base is added to the failing position here and nowhere else (R113). -/
def fullStep (s : State) : Except Fault State :=
  match chunk s true s.stepIn s.stepOut with
  | .ok (.invalid p b) => .ok (raise (.codecError (s.eng.idx + p) b) s)
  | .ok (.stored t) => .ok (t.advance (s.eng.idx + s.stepIn) (s.eng.odx + s.stepOut) s.eng.sub)
  | .error f => .error f

/-- Tail transform step (41_engine.md R111): with `R = 0` it touches no memory. -/
def tailStep (s : State) : Except Fault State :=
  let r := s.eng.neff - s.eng.idx
  let m := tailOut s.eng.opl r
  if r = 0 then .ok (s.advance s.eng.neff (s.eng.odx + m) .finish)
  else
    match chunk s false r m with
    | .ok (.invalid p b) => .ok (raise (.codecError (s.eng.idx + p) b) s)
    | .ok (.stored t) => .ok (t.advance s.eng.neff (s.eng.odx + m) .finish)
    | .error f => .error f

/-- FINISH (41_engine.md R112). -/
def finishStep (s : State) : State :=
  { s with
    dstLen := BitVec.ofNat 32 s.eng.odx
    status := { s.status with state := .done } }

/-- The one enabled step of a BUSY engine (10_state.md R31, 41_engine.md R118). -/
def engineStep (s : State) : Except Fault State :=
  match s.eng.sub with
  | .entry => entryStep s
  | .scalar | .vector => if s.eng.idx + s.stepIn ≤ s.eng.neff then fullStep s else tailStep s
  | .finish => .ok (finishStep s)

/-- The engine's turn: its enabled step while BUSY, and no step otherwise (00_scope.md R8, 10_state.md R24). -/
def engineTurn (s : State) : Host.Outcome State Fault Refusal :=
  if s.status.state = .busy then
    match engineStep s with
    | .ok t => .next t
    | .error f => .fault f
  else .next s

end Sys2Proof.Machine
end

