-- ==== Sys2Proof/Machine/Port.lean ====
section
/-! DEFINITION. The host's side of the block: register and buffer accesses, POLL, the reset event, and
the host programs of 30_encoding.md R78. -/

namespace Sys2Proof.Machine

/-- Record what a read returned. -/
def State.returned (s : State) (r : ReadBack) : State := { s with reads := r :: s.reads }

/-- A CTRL write (30_encoding.md R72 to R75): a command is carried out, a word with `START = 0` does
nothing, a reserved word is refused (93_implementation_defined.md U1). -/
def writeCtrl (w : Word) (s : State) : Host.Outcome State Fault Refusal :=
  match decode w with
  | .ok i => exec i s
  | .error .startClear => .next s
  | .error .reservedBits => .refused .reservedCommand

/-- `WR` (10_state.md R21, R25, R27): the read-only registers ignore the write; `SRC_LEN` may not be
written while BUSY (70_reset_and_hazards.md R223). -/
def writeReg (s : State) (r : Reg) (v : Word) : Host.Outcome State Fault Refusal :=
  match r with
  | .ctrl => writeCtrl v s
  | .srcLen =>
    if s.status.state = .busy then .refused .srcLenWriteWhileBusy else .next { s with srcLen := v }
  | .status => .next s
  | .dstLen => .next s
  | .errOffset => .next s
  | .errByte => .next s
  | .laneW => .next s
  | .cap => .next s

/-- A host write of one IBUF byte (10_state.md R34, 70_reset_and_hazards.md R224). -/
def writeIbufByte (s : State) (o : Nat) (b : Byte) : Host.Outcome State Fault Refusal :=
  if s.params.nmax ≤ o then .fault .noSuchIbufOffset
  else if s.status.state = .busy then .refused .ibufWriteWhileBusy
  else .next { s with ibuf := s.ibuf.write o b }

/-- A host read of one IBUF byte (10_state.md R34, 60_exceptions.md R195, log 10). -/
def readIbufByte (s : State) (o : Nat) : Host.Outcome State Fault Refusal :=
  if s.params.nmax ≤ o then .fault .noSuchIbufOffset
  else if s.status.state = .busy then .refused .ibufReadWhileBusy
  else .next (s.returned (.byte (s.ibufByte o)))

/-- What a host read of OBUF offset `o` returns where the spec gives it a value: in DONE and below
`DST_LEN` (10_state.md R35, 70_reset_and_hazards.md R225). -/
def State.obufDefined? (s : State) (o : Nat) : Option Byte :=
  if s.status.state = .done ∧ o < s.dstLen.toNat then s.obuf.read? o else none

/-- A host read of one OBUF byte: the defined value, else a free value drawn for this read
(93_implementation_defined.md U5, log 7). -/
def readObufByte (s : State) (o : Nat) : Host.Outcome State Fault Refusal :=
  if s.params.obufCap ≤ o then .fault .noSuchObufOffset
  else
    match s.obufDefined? o with
    | some b => .next (s.returned (.byte b))
    | none => .next ({ s with draws := s.draws + 1 }.returned (.byte (Config.obufFree s.draws)))

/-- `POLL` (30_encoding.md R77): one `STATUS` read; while it shows BUSY, the engine takes a step and
the host polls again (log 12). -/
def pollStatus (s : State) : State :=
  let t := s.returned (.word (s.readReg .status))
  if s.status.state = .busy then { t with script := .yieldEngine :: .poll :: t.script } else t

/-- The reset event (70_reset_and_hazards.md R215, R216), in any state: the reset column of 10_state.md
R38; only the block's constants survive. The host keeps its actions and what it has read (log 19). -/
def resetEvent (s : State) : State :=
  { State.resetOf s.params with
    epoch := s.epoch + 1
    draws := s.draws
    script := s.script
    reads := s.reads }

/-- One host action. -/
def hostAct (a : HostAction) (s : State) : Host.Outcome State Fault Refusal :=
  match a with
  | .write r v =>
    match regOfNumber r with
    | some x => writeReg s x v
    | none => .refused .noSuchRegister
  | .read r =>
    match regOfNumber r with
    | some x => .next (s.returned (.word (s.readReg x)))
    | none => .refused .noSuchRegister
  | .poll => .next (pollStatus s)
  | .writeIbuf o b => writeIbufByte s o b
  | .readIbuf o => readIbufByte s o
  | .readObuf o => readObufByte s o
  | .yieldEngine => engineTurn s
  | .reset => .next (resetEvent s)

/-- The next transition: the head of the host's actions, or the engine's turn if the host has none
pending. In FATAL, and in a resting state with no action pending, nothing is enabled and the state
stays (93_implementation_defined.md section 2, log 2). -/
def transition (s : State) : Host.Outcome State Fault Refusal :=
  match s.script with
  | a :: rest => hostAct a { s with script := rest }
  | [] => engineTurn s

/-- The pseudo-instruction of a command (30_encoding.md R78): `WR CTRL, <its word>`. -/
def commandAction (i : Instr) : HostAction := .write 0 (encode i)

/-- `IBUF[o..] <- b` (30_encoding.md R77), one byte a line. -/
def writeIbufActions : Nat → List Byte → List HostAction
  | _, [] => []
  | o, b :: bs => .writeIbuf o b :: writeIbufActions (o + 1) bs

/-- `CALL op, "input"` (30_encoding.md R78, 70_reset_and_hazards.md R219). -/
def callProgram (i : Instr) (input : List Byte) : List HostAction :=
  writeIbufActions 0 input ++ [.write 1 (BitVec.ofNat 32 input.length), commandAction i, .poll]

/-- `OBUF[a..a+n) =>` (30_encoding.md R77), one byte a line. -/
def readObufActions (a n : Nat) : List HostAction := (List.range n).map (fun j => .readObuf (a + j))

/-- The CTRL write of a table word, before everything else the host has pending (log 3). -/
def State.withCtrlWrite (s : State) (nbits w : Nat) : State :=
  { s with script := .write 0 (BitVec.ofNat 32 (w % 2 ^ nbits)) :: s.script }

end Sys2Proof.Machine
end

