-- ==== Sys2Proof/Machine/Step.lean ====
section
/-! DEFINITION. The step of the machine, and how a command word is placed where the next step takes it. -/

namespace Sys2Proof.Machine

/-- One step: one host action, or one step of the engine (Machine/Port.lean, `transition`). -/
def step (s : State) : Host.Outcome State Fault Refusal := transition s

/-- The block fetches no instructions (20_memory.md R67): a command word reaches it as a write of
`CTRL`. The next step of the state carries out exactly that write (log 3). -/
def State.withFetchWord (s : State) (nbits w : Nat) : State := s.withCtrlWrite nbits w

end Sys2Proof.Machine
end

