-- ==== Sys2Proof/Safety.lean ====
section
/-! DEFINITION. The terms the statements are made in: when a START is accepted, what a command delivers,
how long it runs, and the invariant that every step keeps. -/

namespace Sys2Proof.Machine

/-- A START is accepted (41_engine.md R107): a resting state other than FATAL, and a source that fits. -/
def State.acceptsStart (s : State) : Prop :=
  (s.status.state = .idle ∨ s.status.state = .done ∨ s.status.state = .error) ∧
    s.srcLen.toNat ≤ s.params.nmax

/-- The output of command `i` for an input of `n` bytes is no longer than OBUF (10_state.md R30, R35). It
is longer for `B64ENC` of one byte on a block with `NMAX` = 1 alone: 4 output bytes (42_base64.md R147), 2
bytes of OBUF (log 21). -/
abbrev outputFits (p : Params) (i : Instr) (n : Nat) : Prop := ¬ (i = .b64enc ∧ n = 1 ∧ p.nmax = 1)

/-- The largest output length of any command: `2 * NMAX`, and 4 where `NMAX` is 1 (log 21). -/
def maxOutput (p : Params) : Nat := max p.obufCap 4

/-- The host-visible outcome of a command (30_encoding.md R79, 60_exceptions.md R198, R199): the
registers, and every OBUF byte the spec gives a value. -/
def State.delivers (s : State) : CodecResult → Prop
  | .ok out =>
    s.status.state = .done ∧ s.status.errKind = .none ∧ s.dstLen.toNat = out.length ∧
      s.errOffset = 0 ∧ s.errByte = 0 ∧ ∀ o, s.obufDefined? o = out[o]?
  | .lengthError =>
    s.status.state = .error ∧ s.status.errKind = .length ∧ s.dstLen = 0 ∧ s.errOffset = 0 ∧ s.errByte = 0
  | .codecError offset byte =>
    s.status.state = .error ∧ s.status.errKind = .codec ∧ s.dstLen = 0 ∧
      s.errOffset.toNat = offset ∧ s.errByte = byte.setWidth 32

/-- `STATUS.PAD` at the end of a command (10_state.md R23, 42_base64.md R156): the Padding Count of a
`B64DEC` input whose length is a multiple of 4, and 0 otherwise. -/
def finalPad (i : Instr) (b : List Byte) : BitVec 2 :=
  if i = .b64dec ∧ b.length % 4 = 0 then paddingCount b else 0

/-- What the host can read of a block about its last command: `STATUS`, the result registers, and every
OBUF byte the spec gives a value (41_engine.md R117). -/
structure HostView where
  status : Word
  dstLen : Word
  errOffset : Word
  errByte : Word
  output : List (Option Byte)
deriving DecidableEq, Repr

/-- The host's view of a state; beyond `DST_LEN` no OBUF byte has a value (10_state.md R35). -/
def State.hostView (s : State) : HostView where
  status := s.readReg .status
  dstLen := s.readReg .dstLen
  errOffset := s.readReg .errOffset
  errByte := s.readReg .errByte
  output := (List.range s.dstLen.toNat).map s.obufDefined?

/-- The bits that no output byte receives are zero in the last body character (42_base64.md R157): 4 bits
where the Padding Count is 2, 2 bits where it is 1. -/
def canonical64 (s : List Byte) : Prop :=
  ∀ v, val64 (s.getD (s.length - (paddingCount s).toNat - 1) 0) = some v →
    (paddingCount s = 2 → v &&& 0x0F = 0) ∧ (paddingCount s = 1 → v &&& 0x03 = 0)

/-- The registers at the reset column (10_state.md R21, R38); `LANE_W` where `L` fits 32 bits (log 24). -/
def State.atResetColumn (t : State) (p : Params) : Prop :=
  t.readReg .ctrl = 0 ∧ t.readReg .srcLen = 0 ∧ t.readReg .status = 0 ∧ t.readReg .dstLen = 0 ∧
    t.readReg .errOffset = 0 ∧ t.readReg .errByte = 0 ∧
    (p.L < 2 ^ 32 → t.readReg .laneW = BitVec.ofNat 32 p.L) ∧ t.readReg .cap = BitVec.ofNat 32 p.nmax ∧
    t.params = p ∧ t.status.state = .idle

/-- The path that ENTRY selects for an input of `n` bytes (41_engine.md R109). -/
def pathOf (p : Params) (n : Nat) : SubPhase := if n ≤ p.tSmall then .scalar else .vector

/-- The number of engine steps of a command on a supported lane width (41_engine.md R118). -/
def commandSteps (p : Params) (i : Instr) (b : List Byte) : Nat :=
  match pureResult i b with
  | .ok _ => 1 + (b.length - (finalPad i b).toNat) / stepIn p.L (pathOf p b.length) i + 1 + 1
  | .lengthError => 1
  | .codecError e _ => 1 + e / stepIn p.L (pathOf p b.length) i + 1

/-- The fields of `STATUS` are consistent (10_state.md R23, R24; 93_implementation_defined.md U12). -/
structure StatusOk (s : State) : Prop where
  errKindIff : s.status.errKind ≠ .none ↔ s.status.state = .error
  padLe : s.status.pad.toNat ≤ 2
  padOnlyB64dec : s.status.pad ≠ 0 → s.status.op = .b64dec
  idleIsReset : s.status.state = .idle → s.status = Status.reset
  fatalUnsupported : s.status.state = .fatal → s.params.supported = false
  endedSupported : s.status.state = .done ∨ s.status.state = .error → s.params.supported = true

/-- The result registers are consistent (10_state.md R26, 70_reset_and_hazards.md R226). -/
structure ResultsOk (s : State) : Prop where
  dstLenZero : s.status.state ≠ .done → s.dstLen = 0
  dstLenFits : s.dstLen.toNat ≤ maxOutput s.params
  errZero : s.status.errKind ≠ .codec → s.errOffset = 0 ∧ s.errByte = 0
  errByteIsByte : s.errByte.toNat < 256
  errOffsetInside : s.status.errKind = .codec → s.errOffset.toNat < s.params.nmax
  outputListed : s.status.state = .done → ∀ o < s.dstLen.toNat, (s.obuf.read? o).isSome

/-- The two buffers are in canonical form and hold only offsets of the input and of an output (10_state.md R34, R35). -/
structure BuffersOk (s : State) : Prop where
  ibufWf : Memory.wf s.ibuf
  obufWf : Memory.wf s.obuf
  ibufInside : ∀ c ∈ s.ibuf, c.1 < s.params.nmax
  obufInside : ∀ c ∈ s.obuf, c.1 < maxOutput s.params

/-- What ENTRY has computed (41_engine.md R108, 10_state.md R29). -/
structure Sized (s : State) : Prop where
  supported : s.params.supported = true
  lengthOk : lengthBad s.eng.opl s.eng.n = false
  padVisible : s.status.pad = s.eng.padc
  padcLe : s.eng.padc.toNat ≤ 2
  padcOnly : s.eng.padc ≠ 0 → s.eng.opl = .b64dec ∧ 4 ≤ s.eng.n
  neffEq : s.eng.neff = s.eng.n - s.eng.padc.toNat
  olenEq : s.eng.olen = outLen s.eng.opl s.eng.n s.eng.padc
  odxListed : ∀ o < s.eng.odx, (s.obuf.read? o).isSome
  olenFits : outputFits s.params s.eng.opl s.eng.n → s.eng.olen ≤ s.params.obufCap

/-- The cursors before a transform step (10_state.md R30). -/
structure CursorsOk (s : State) : Prop where
  pathEq : s.eng.sub = pathOf s.params s.eng.n
  idxLe : s.eng.idx ≤ s.eng.neff
  idxGroup : s.eng.idx % gIn s.eng.opl = 0
  odxEq : s.eng.odx = s.eng.idx / gIn s.eng.opl * gOut s.eng.opl

/-- The engine's hidden state while a command runs (10_state.md R28 to R31, 41_engine.md R112). -/
structure EngineOk (s : State) : Prop where
  oplEq : s.status.op = s.eng.opl
  nLe : s.eng.n ≤ s.params.nmax
  entry : s.eng.sub = .entry → s.status.pad = 0
  transform : s.eng.sub = .scalar ∨ s.eng.sub = .vector → Sized s ∧ CursorsOk s
  finish : s.eng.sub = .finish → Sized s ∧ s.eng.idx = s.eng.neff ∧ s.eng.odx = s.eng.olen

/-- The invariant of the block. -/
structure Inv (s : State) : Prop where
  paramsWf : s.params.wf = true
  status : StatusOk s
  results : ResultsOk s
  buffers : BuffersOk s
  engine : s.status.state = .busy → EngineOk s

end Sys2Proof.Machine
end

