-- ==== Sys2Proof/Certificates/Slice0/Obligations.lean ====
section
/-! DEFINITION. The statements for the provers. Each docstring names the rule of spec/ it formalises. -/

open Sys2Proof Sys2Proof.Machine

/-! ### Encoding -/

/-- 30_encoding.md R72: the four command words, complete, with their `OP`, `DIR` and ratio columns. -/
def Obligations.CommandWordsAreExactlyTheTable : Prop :=
  (∀ w : Word, decode w = .ok .b64enc ↔ w = 0x00000001) ∧
  (∀ w : Word, decode w = .ok .b64dec ↔ w = 0x00000003) ∧
  (∀ w : Word, decode w = .ok .hexenc ↔ w = 0x00000005) ∧
  (∀ w : Word, decode w = .ok .hexdec ↔ w = 0x00000007) ∧
  (Instr.b64enc.op = 0 ∧ Instr.b64dec.op = 1 ∧ Instr.hexenc.op = 2 ∧ Instr.hexdec.op = 3) ∧
  (Instr.b64enc.isDecoder = false ∧ Instr.b64dec.isDecoder = true ∧
    Instr.hexenc.isDecoder = false ∧ Instr.hexdec.isDecoder = true) ∧
  ((gIn .b64enc, gOut .b64enc) = (3, 4) ∧ (gIn .b64dec, gOut .b64dec) = (4, 3) ∧
    (gIn .hexenc, gOut .hexenc) = (1, 2) ∧ (gIn .hexdec, gOut .hexdec) = (2, 1))

/-- 30_encoding.md R73, R74: with reserved bits zero, `START = 1` is always a command and `START = 0`
changes no state in any `STATUS.STATE`; a reserved word is refused. -/
def Obligations.OtherCtrlWordsDoNothingOrAreRefused : Prop :=
  (∀ w : Word, w.extractLsb' 3 29 = 0 → w.getLsbD 0 = true → ∃ i, decode w = .ok i ∧ i.op = w.extractLsb' 1 2) ∧
  (∀ (s : State) (w : Word), w = 0x0 ∨ w = 0x2 ∨ w = 0x4 ∨ w = 0x6 → hostAct (.write 0 w) s = .next s) ∧
  (∀ (s : State) (w : Word), w.extractLsb' 3 29 ≠ 0 → hostAct (.write 0 w) s = .refused .reservedCommand)

/-- Sanity: the decoder inverts the encoder, and the table's numbering of bits is the decoder's. -/
def Obligations.DecodeInvertsEncode : Prop :=
  ∀ i : Instr, i.wf = true → decode (encode i) = .ok i ∧ decodeTableWord 32 (encode i).toNat = some i

/-! ### The step -/

/-- 30_encoding.md R77: a CTRL write at the head of the host's actions whose word decodes is the effect
of the decoded command on the state with that action taken; `withFetchWord` places such a write. -/
def Obligations.StepRunsTheDecodedCommand : Prop :=
  (∀ (s : State) (w : Word) (rest : List HostAction) (i : Instr), s.script = .write 0 w :: rest →
    decode w = .ok i → step s = exec i { s with script := rest }) ∧
  (∀ (s : State) (i : Instr), step (s.withFetchWord 32 (encode i).toNat) = exec i s)

/-- 00_scope.md R8, 70_reset_and_hazards.md R217: with no host action pending, a BUSY block takes its
engine step, and a resting block stays as it is; the action `yieldEngine` takes the same turn, on the
state with that action taken (the model's rendering, log 2). -/
def Obligations.EngineStepsOnlyWhileBusy : Prop :=
  ∀ s r : State, (s.script = [] ∧ r = s) ∨ (∃ rest, s.script = .yieldEngine :: rest ∧ r = { s with script := rest }) →
    (r.status.state ≠ .busy → step s = .next r) ∧
    (r.status.state = .busy → ∀ t, engineStep r = .ok t → step s = .next t) ∧
    (r.status.state = .busy → ∀ f, engineStep r = .error f → step s = .fault f)

/-! ### Host registers -/

/-- 10_state.md R20, R21, R22, R27, 20_memory.md R60: what a read of each register returns; a read
changes nothing of the block; numbers 8 and above do not exist. An `L` that does not fit the register
reads as some value that `L` fixes (the model's choice, log 24). -/
def Obligations.RegisterReadsReturnTheRegisterMap : Prop :=
  ∀ s : State,
    hostAct (.read 0) s = .next { s with reads := .word 0 :: s.reads } ∧
    hostAct (.read 1) s = .next { s with reads := .word s.srcLen :: s.reads } ∧
    hostAct (.read 2) s = .next { s with reads := .word s.status.word :: s.reads } ∧
    hostAct (.read 3) s = .next { s with reads := .word s.dstLen :: s.reads } ∧
    hostAct (.read 4) s = .next { s with reads := .word s.errOffset :: s.reads } ∧
    hostAct (.read 5) s = .next { s with reads := .word s.errByte :: s.reads } ∧
    (s.params.L < 2 ^ 32 →
      hostAct (.read 6) s = .next { s with reads := .word (BitVec.ofNat 32 s.params.L) :: s.reads }) ∧
    (∃ v : Word, ∀ t : State, t.params.L = s.params.L →
      hostAct (.read 6) t = .next { t with reads := .word v :: t.reads }) ∧
    hostAct (.read 7) s = .next { s with reads := .word (BitVec.ofNat 32 s.params.nmax) :: s.reads } ∧
    ∀ r, 8 ≤ r → hostAct (.read r) s = .refused .noSuchRegister ∧
      ∀ v, hostAct (.write r v) s = .refused .noSuchRegister

/-- 10_state.md R21, R25, R27, 70_reset_and_hazards.md R223: writes of `SRC_LEN` outside BUSY store,
while BUSY they are refused; writes of the six read-only registers are ignored in every state. -/
def Obligations.RegisterWritesStoreOnlySrcLen : Prop :=
  ∀ (s : State) (v : Word),
    (s.status.state ≠ .busy → hostAct (.write 1 v) s = .next { s with srcLen := v }) ∧
    (s.status.state = .busy → hostAct (.write 1 v) s = .refused .srcLenWriteWhileBusy) ∧
    ∀ r, 2 ≤ r → r ≤ 7 → hostAct (.write r v) s = .next s

/-- 10_state.md R23: the fields of `STATUS`, their values, the reserved bits, and what the table's last
column says of every state of the invariant. -/
def Obligations.StatusRegisterLayout : Prop :=
  (∀ t : Status,
    t.word.extractLsb' 0 3 = (match t.state with
      | .idle => 0 | .busy => 1 | .done => 2 | .error => 3 | .fatal => 4) ∧
    t.word.extractLsb' 3 1 = 0 ∧
    t.word.extractLsb' 4 2 = (match t.errKind with | .none => 0 | .length => 1 | .codec => 2) ∧
    t.word.extractLsb' 6 2 = 0 ∧
    t.word.extractLsb' 8 2 = t.pad ∧
    t.word.extractLsb' 10 2 = 0 ∧
    t.word.extractLsb' 12 2 = (match t.op with | .b64enc => 0 | .b64dec => 1 | .hexenc => 2 | .hexdec => 3) ∧
    t.word.extractLsb' 14 18 = 0) ∧
  ∀ s : State, Inv s →
    (s.status.errKind ≠ .none ↔ s.status.state = .error) ∧
    s.status.pad.toNat ≤ 2 ∧ (s.status.op ≠ .b64dec → s.status.pad = 0)

/-! ### START -/

/-- 41_engine.md R107: START, for each of `B64ENC`, `B64DEC`, `HEXENC`, `HEXDEC`, in each
`STATUS.STATE`, and as the CTRL write of the command's word. -/
def Obligations.StartLatchesAndClears : Prop :=
  ∀ (i : Instr) (s : State),
    (s.status.state = .idle ∨ s.status.state = .done ∨ s.status.state = .error →
      s.srcLen.toNat ≤ s.params.nmax →
      exec i s = .next
        { s with
          eng := { s.eng with opl := i, n := s.srcLen.toNat, sub := .entry }
          dstLen := 0, errOffset := 0, errByte := 0
          status := { state := .busy, errKind := .none, pad := 0, op := i } }) ∧
    (s.status.state = .idle ∨ s.status.state = .done ∨ s.status.state = .error →
      s.params.nmax < s.srcLen.toNat → exec i s = .refused .sourceTooLong) ∧
    (s.status.state = .fatal → exec i s = .next s) ∧
    (s.status.state = .busy → exec i s = .refused .startWhileBusy) ∧
    (∀ w : Word, w.getLsbD 0 = true → w.extractLsb' 3 29 = 0 → w.extractLsb' 1 2 = i.op →
      hostAct (.write 0 w) s = exec i s)

/-- The frame of the four commands: when `exec` gives a next state, only the registers that
41_engine.md R107 names may differ, and every byte of both buffers reads as before. -/
def Obligations.StartFrame : Prop :=
  ∀ (i : Instr) (s t : State), exec i s = .next t →
    t.params = s.params ∧ t.srcLen = s.srcLen ∧ t.epoch = s.epoch ∧ t.draws = s.draws ∧
    t.script = s.script ∧ t.reads = s.reads ∧
    t.eng.padc = s.eng.padc ∧ t.eng.neff = s.eng.neff ∧ t.eng.olen = s.eng.olen ∧
    t.eng.idx = s.eng.idx ∧ t.eng.odx = s.eng.odx ∧
    (∀ o, t.ibufByte o = s.ibufByte o) ∧ (∀ o, t.obuf.read? o = s.obuf.read? o)

/-! ### The engine steps -/

/-- 41_engine.md R106, R109: the step sizes of the vector path and of the scalar path, `tail_out` as the
number of output bytes of a tail, and the remainders that a running engine can meet. -/
def Obligations.StepSizesOfEachCommand : Prop :=
  (∀ L, L % 4 = 0 →
    (stepIn L .vector .b64enc = 3 * L / 4 ∧ stepOut L .vector .b64enc = L) ∧
    (stepIn L .vector .b64dec = L ∧ stepOut L .vector .b64dec = 3 * L / 4) ∧
    (stepIn L .vector .hexenc = L ∧ stepOut L .vector .hexenc = 2 * L) ∧
    (stepIn L .vector .hexdec = 2 * L ∧ stepOut L .vector .hexdec = L)) ∧
  (∀ L i, stepIn L .scalar i = gIn i ∧ stepOut L .scalar i = gOut i) ∧
  (∀ r, tailOut .b64enc r = 4 * ((r + 2) / 3) ∧ tailOut .b64dec r = 3 * r / 4 ∧
    tailOut .hexenc r = 2 * r ∧ tailOut .hexdec r = r / 2) ∧
  (∀ (i : Instr) (c : List Byte), (xform i c).length = tailOut i c.length) ∧
  ∀ s : State, Inv s → s.status.state = .busy → s.eng.sub = .scalar ∨ s.eng.sub = .vector →
    (s.eng.opl = .b64dec → (s.eng.neff - s.eng.idx) % 4 ≠ 1) ∧
    (s.eng.opl = .hexdec → (s.eng.neff - s.eng.idx) % 2 = 0)

/-- 41_engine.md R108: ENTRY, for every command, every `L`, every `T_SMALL`; the Padding Count by
42_base64.md R151, from the last two bytes. -/
def Obligations.EntryChecksSizesAndSelects : Prop :=
  ∀ s : State, s.eng.sub = .entry →
    (¬ (s.params.L = 16 ∨ s.params.L = 32 ∨ s.params.L = 64) → engineStep s = .ok (raise .fatal s)) ∧
    (s.params.L = 16 ∨ s.params.L = 32 ∨ s.params.L = 64 →
      (s.eng.opl = .hexdec → s.eng.n % 2 ≠ 0 → engineStep s = .ok (raise .lengthError s)) ∧
      (s.eng.opl = .b64dec → s.eng.n % 4 ≠ 0 → engineStep s = .ok (raise .lengthError s)) ∧
      ((s.eng.opl = .hexdec → s.eng.n % 2 = 0) → (s.eng.opl = .b64dec → s.eng.n % 4 = 0) →
        ∃ (padc : BitVec 2) (olen : Nat),
          (padc = if s.eng.opl = .b64dec ∧ 4 ≤ s.eng.n ∧ s.ibufByte (s.eng.n - 1) = 0x3D
            then (if s.ibufByte (s.eng.n - 2) = 0x3D then 2 else 1) else 0) ∧
          (olen = match s.eng.opl with
            | .b64enc => 4 * ((s.eng.n + 2) / 3)
            | .b64dec => 3 * (s.eng.n / 4) - padc.toNat
            | .hexenc => 2 * s.eng.n
            | .hexdec => s.eng.n / 2) ∧
          engineStep s = .ok
            { s with
              status := { s.status with pad := padc }
              eng := { s.eng with
                padc := padc
                neff := s.eng.n - padc.toNat
                olen := olen
                idx := 0
                odx := 0
                sub := if s.eng.n ≤ s.params.tSmall then .scalar else .vector } }))

/-- 41_engine.md R110: the full step, in the scalar path and in the lane path alike: validation first,
with the absolute offset, then the transform, the store and the cursors. -/
def Obligations.FullStepTransformsOneChunk : Prop :=
  ∀ s : State, s.params.supported = true → s.eng.sub = .scalar ∨ s.eng.sub = .vector →
    s.eng.idx + s.stepIn ≤ s.eng.neff → s.eng.neff ≤ s.eng.n → s.eng.odx + s.stepOut ≤ s.eng.olen →
    (∀ p, failPos s.eng.opl (s.ibufBytes s.eng.idx s.stepIn) = some p →
      engineStep s = .ok (raise (.codecError (s.eng.idx + p) (s.ibufByte (s.eng.idx + p))) s)) ∧
    (failPos s.eng.opl (s.ibufBytes s.eng.idx s.stepIn) = none →
      engineStep s = .ok
        { s with
          obuf := s.obuf.writeBytes s.eng.odx (xform s.eng.opl (s.ibufBytes s.eng.idx s.stepIn))
          eng := { s.eng with idx := s.eng.idx + s.stepIn, odx := s.eng.odx + s.stepOut } })

/-- 41_engine.md R111: the tail step, in either path, for every remainder (an odd one cannot occur for
`HEXDEC`, R106). -/
def Obligations.TailStepTransformsTheRemainder : Prop :=
  ∀ (s : State) (r : Nat), s.params.supported = true → s.eng.sub = .scalar ∨ s.eng.sub = .vector →
    s.eng.neff < s.eng.idx + s.stepIn → s.eng.neff = s.eng.idx + r → s.eng.neff ≤ s.eng.n →
    s.eng.odx + tailOut s.eng.opl r ≤ s.eng.olen → (s.eng.opl = .hexdec → r % 2 = 0) →
    (∀ p, failPos s.eng.opl (s.ibufBytes s.eng.idx r) = some p →
      engineStep s = .ok (raise (.codecError (s.eng.idx + p) (s.ibufByte (s.eng.idx + p))) s)) ∧
    (failPos s.eng.opl (s.ibufBytes s.eng.idx r) = none →
      engineStep s = .ok
        { s with
          obuf := s.obuf.writeBytes s.eng.odx (xform s.eng.opl (s.ibufBytes s.eng.idx r))
          eng := { s.eng with
            idx := s.eng.neff, odx := s.eng.odx + tailOut s.eng.opl r, sub := .finish } })

/-- 41_engine.md R112: FINISH, the invariant that stands beside it, and the registers it leaves. -/
def Obligations.FinishPublishesTheLength : Prop :=
  (∀ s : State, s.eng.sub = .finish →
    engineStep s = .ok
      { s with dstLen := BitVec.ofNat 32 s.eng.odx, status := { s.status with state := .done } }) ∧
  (∀ s : State, Inv s → s.status.state = .busy → s.eng.sub = .finish →
    s.eng.idx = s.eng.neff ∧ s.eng.odx = s.eng.olen ∧
      s.status.errKind = .none ∧ s.errOffset = 0 ∧ s.errByte = 0 ∧
      ∀ o < s.eng.olen, (s.obuf.read? o).isSome = true)

/-- 60_exceptions.md R198, R199, R200, R201: what each exception writes, that it writes nothing else,
that the engine takes no step after it, and that the registers it leaves alone hold 0 before it. -/
def Obligations.RaiseWritesOnlyTheErrorRegisters : Prop :=
  (∀ s : State, Inv s → s.status.state = .busy →
    s.dstLen = 0 ∧ s.errOffset = 0 ∧ s.errByte = 0 ∧ s.status.errKind = .none ∧
    (s.eng.sub = .entry → s.status.pad = 0)) ∧
  (∀ (e : Exception) (s : State), engineTurn (raise e s) = .next (raise e s)) ∧
  ∀ s : State,
    raise .lengthError s = { s with status := { s.status with errKind := .length, state := .error } } ∧
    (∀ (o : Nat) (b : Byte), raise (.codecError o b) s =
      { s with
        errOffset := BitVec.ofNat 32 o, errByte := b.setWidth 32
        status := { s.status with errKind := .codec, state := .error } }) ∧
    raise .fatal s = { s with status := { s.status with state := .fatal } }

/-- The frame of every engine step (10_state.md R25, R29, R34, 41_engine.md R110, R111, 60_exceptions.md
R201): the engine writes neither IBUF nor `SRC_LEN` nor a constant; the latches keep their values; an
OBUF byte outside the bytes this step stores at `ODX` keeps its value. -/
def Obligations.EngineStepFrame : Prop :=
  ∀ s t : State, Inv s → s.status.state = .busy → engineStep s = .ok t →
    t.params = s.params ∧ t.srcLen = s.srcLen ∧ t.epoch = s.epoch ∧ t.draws = s.draws ∧
    t.script = s.script ∧ t.reads = s.reads ∧ t.status.op = s.status.op ∧
    t.eng.opl = s.eng.opl ∧ t.eng.n = s.eng.n ∧
    (s.eng.sub ≠ .entry → t.eng.padc = s.eng.padc ∧ t.eng.neff = s.eng.neff ∧ t.eng.olen = s.eng.olen ∧
      t.status.pad = s.status.pad) ∧
    (s.eng.sub ≠ .finish → t.dstLen = s.dstLen) ∧
    (t.status.errKind ≠ .codec → t.errOffset = s.errOffset ∧ t.errByte = s.errByte) ∧
    (∀ o, t.ibufByte o = s.ibufByte o) ∧
    (s.eng.sub = .entry ∨ s.eng.sub = .finish ∨ t.status.state = .error →
      ∀ o, t.obuf.read? o = s.obuf.read? o) ∧
    (s.eng.sub = .scalar ∨ s.eng.sub = .vector → s.eng.idx + s.stepIn ≤ s.eng.neff →
      ∀ o, o < s.eng.odx ∨ s.eng.odx + s.stepOut ≤ o → t.obuf.read? o = s.obuf.read? o) ∧
    (s.eng.sub = .scalar ∨ s.eng.sub = .vector → s.eng.neff < s.eng.idx + s.stepIn →
      ∀ o, o < s.eng.odx ∨ s.eng.odx + tailOut s.eng.opl (s.eng.neff - s.eng.idx) ≤ o →
        t.obuf.read? o = s.obuf.read? o)

/-! ### The invariant -/

/-- The state after power-on of a block with any sound parameters satisfies the invariant. -/
def Obligations.ResetSatisfiesTheInvariant : Prop :=
  (∀ p : Params, p.wf = true → Inv (State.resetOf p)) ∧ Inv State.reset

/-- Every step, of the host or of the engine, keeps the invariant of Safety.lean: legal `STATUS`, result
registers as 10_state.md R26 says, buffers in canonical form and inside their capacity, cursors as R30 says (at `NMAX` = 1: log 21). -/
def Obligations.StepKeepsTheInvariant : Prop :=
  ∀ s t : State, Inv s → step s = .next t → Inv t

/-- 20_memory.md R58, 41_engine.md R115: from every state of the invariant the engine's step exists (no
checked precondition of a load or store fails), and its accesses lie inside the Input View and the output,
which is no longer than OBUF (10_state.md R30) but for one byte of `B64ENC` where `NMAX` is 1 (log 21). -/
def Obligations.EngineStaysInsideItsBuffers : Prop :=
  ∀ s : State, Inv s → s.status.state = .busy →
    (∃ t, engineStep s = .ok t) ∧
    (s.eng.sub = .scalar ∨ s.eng.sub = .vector →
      (s.eng.idx + s.stepIn ≤ s.eng.neff →
        s.eng.idx + s.stepIn ≤ s.eng.n ∧ s.eng.odx + s.stepOut ≤ s.eng.olen) ∧
      (s.eng.neff < s.eng.idx + s.stepIn →
        s.eng.idx + (s.eng.neff - s.eng.idx) ≤ s.eng.n ∧
        s.eng.odx + tailOut s.eng.opl (s.eng.neff - s.eng.idx) ≤ s.eng.olen)) ∧
    s.eng.n ≤ s.params.nmax ∧ (s.eng.sub ≠ .entry →
      ¬ (s.eng.opl = .b64enc ∧ s.eng.n = 1 ∧ s.params.nmax = 1) → s.eng.olen ≤ 2 * s.params.nmax)

/-- 10_state.md R26, 60_exceptions.md R200, R202: FATAL is absorbing: every step but a reset event leaves
`STATUS` and the result registers as they are; in IDLE, DONE and ERROR every step but a reset event and a
CTRL write does. -/
def Obligations.RestingStatesPersist : Prop :=
  ∀ s t : State, step s = .next t → s.script.head? ≠ some .reset →
    s.status.state = .fatal ∨
      ((s.status.state = .idle ∨ s.status.state = .done ∨ s.status.state = .error) ∧
        ∀ w, s.script.head? ≠ some (.write 0 w)) →
    t.status = s.status ∧ t.dstLen = s.dstLen ∧ t.errOffset = s.errOffset ∧ t.errByte = s.errByte

/-- 10_state.md R24: the transitions of `STATUS.STATE`: a step that changes it is START (to BUSY), the
engine (from BUSY to DONE, ERROR or FATAL) or the reset event (to IDLE). -/
def Obligations.StatusLifeCycle : Prop :=
  ∀ s t : State, step s = .next t → t.status.state ≠ s.status.state →
    (s.script.head? = some .reset ∧ t.status.state = .idle) ∨
    ((∃ w, s.script.head? = some (.write 0 w)) ∧ t.status.state = .busy ∧
      (s.status.state = .idle ∨ s.status.state = .done ∨ s.status.state = .error)) ∨
    (s.status.state = .busy ∧ (s.script = [] ∨ s.script.head? = some .yieldEngine) ∧
      (t.status.state = .done ∨ t.status.state = .error ∨ t.status.state = .fatal))

/-! ### Whole commands -/

/-- 41_engine.md R117, R118: for every command, every input, every supported `L`, every `T_SMALL` and
every `NMAX`, the run from an accepted START takes exactly the stated number of engine steps and ends
with the result of the command's pure function. -/
def Obligations.RunDeliversThePureFunction : Prop :=
  ∀ (i : Instr) (s : State), s.params.wf = true → s.params.supported = true → s.script = [] → s.acceptsStart →
    ∃ t u, exec i s = .next t ∧
      Host.Core.run Sys2Proof.core (commandSteps s.params i s.input) t = .next u ∧
      u.delivers (pureResult i s.input) ∧ u.status.op = i ∧ u.status.pad = finalPad i s.input ∧
      (∀ k < commandSteps s.params i s.input, ∃ v : State,
        Host.Core.run Sys2Proof.core k t = .next v ∧ v.status.state = .busy)

/-- 42_base64.md R147, 41_engine.md R117, R118: `B64ENC` from START to DONE, on a supported lane width,
in exactly the stated number of engine steps. -/
def Obligations.B64encDeliversTheEncoding : Prop :=
  ∀ s : State, s.params.wf = true → s.params.supported = true → s.script = [] → s.acceptsStart →
    ∃ t u, hostAct (.write 0 0x00000001) s = exec .b64enc s ∧ exec .b64enc s = .next t ∧
      Host.Core.run Sys2Proof.core
        (1 + s.srcLen.toNat / stepIn s.params.L (pathOf s.params s.srcLen.toNat) .b64enc + 1 + 1) t = .next u ∧
      u.status = { state := .done, errKind := .none, pad := 0, op := .b64enc } ∧
      u.dstLen.toNat = 4 * ((s.srcLen.toNat + 2) / 3) ∧ u.errOffset = 0 ∧ u.errByte = 0 ∧
      (∀ o, u.obufDefined? o = (b64encX s.input)[o]?) ∧
      u.params = s.params ∧ u.srcLen = s.srcLen ∧ u.script = [] ∧ u.reads = s.reads ∧ u.draws = s.draws ∧
      (∀ o, u.ibufByte o = s.ibufByte o)

/-- 42_base64.md R156, 41_engine.md R117, R118: `B64DEC` from START to DONE or ERROR. -/
def Obligations.B64decDeliversTheDecoding : Prop :=
  ∀ s : State, s.params.wf = true → s.params.supported = true → s.script = [] → s.acceptsStart →
    ∃ t u, hostAct (.write 0 0x00000003) s = exec .b64dec s ∧ exec .b64dec s = .next t ∧
      Host.Core.run Sys2Proof.core (commandSteps s.params .b64dec s.input) t = .next u ∧
      u.status.op = .b64dec ∧
      (s.srcLen.toNat % 4 ≠ 0 →
        u.status.state = .error ∧ u.status.errKind = .length ∧ u.status.pad = 0 ∧
        u.dstLen = 0 ∧ u.errOffset = 0 ∧ u.errByte = 0) ∧
      (s.srcLen.toNat % 4 = 0 →
        u.status.pad = paddingCount s.input ∧
        (∀ p, b64Fail (s.input.take (s.srcLen.toNat - (paddingCount s.input).toNat)) = some p →
          u.status.state = .error ∧ u.status.errKind = .codec ∧ u.dstLen = 0 ∧
          u.errOffset.toNat = p ∧ u.errByte = (s.ibufByte p).setWidth 32) ∧
        (b64Fail (s.input.take (s.srcLen.toNat - (paddingCount s.input).toNat)) = none →
          u.status.state = .done ∧ u.status.errKind = .none ∧ u.errOffset = 0 ∧ u.errByte = 0 ∧
          u.dstLen.toNat = 3 * (s.srcLen.toNat / 4) - (paddingCount s.input).toNat ∧
          ∀ o, u.obufDefined? o =
            (b64decX (s.input.take (s.srcLen.toNat - (paddingCount s.input).toNat)))[o]?)) ∧
      u.params = s.params ∧ u.srcLen = s.srcLen ∧ u.script = [] ∧ u.reads = s.reads ∧ u.draws = s.draws ∧
      (∀ o, u.ibufByte o = s.ibufByte o)

/-- 43_hex.md R173, 41_engine.md R117, R118: `HEXENC` from START to DONE, on a supported lane width, in
exactly the stated number of engine steps. -/
def Obligations.HexencDeliversTheEncoding : Prop :=
  ∀ s : State, s.params.wf = true → s.params.supported = true → s.script = [] → s.acceptsStart →
    ∃ t u, hostAct (.write 0 0x00000005) s = exec .hexenc s ∧ exec .hexenc s = .next t ∧
      Host.Core.run Sys2Proof.core
        (1 + s.srcLen.toNat / stepIn s.params.L (pathOf s.params s.srcLen.toNat) .hexenc + 1 + 1) t = .next u ∧
      u.status = { state := .done, errKind := .none, pad := 0, op := .hexenc } ∧
      u.dstLen.toNat = 2 * s.srcLen.toNat ∧ u.errOffset = 0 ∧ u.errByte = 0 ∧
      (∀ o, u.obufDefined? o = (hexencX s.input)[o]?) ∧
      u.params = s.params ∧ u.srcLen = s.srcLen ∧ u.script = [] ∧ u.reads = s.reads ∧ u.draws = s.draws ∧
      (∀ o, u.ibufByte o = s.ibufByte o)

/-- 43_hex.md R177, 41_engine.md R117, R118: `HEXDEC` from START to DONE or ERROR. -/
def Obligations.HexdecDeliversTheDecoding : Prop :=
  ∀ s : State, s.params.wf = true → s.params.supported = true → s.script = [] → s.acceptsStart →
    ∃ t u, hostAct (.write 0 0x00000007) s = exec .hexdec s ∧ exec .hexdec s = .next t ∧
      Host.Core.run Sys2Proof.core (commandSteps s.params .hexdec s.input) t = .next u ∧
      u.status.op = .hexdec ∧ u.status.pad = 0 ∧
      (s.srcLen.toNat % 2 ≠ 0 →
        u.status.state = .error ∧ u.status.errKind = .length ∧
        u.dstLen = 0 ∧ u.errOffset = 0 ∧ u.errByte = 0) ∧
      (s.srcLen.toNat % 2 = 0 →
        (∀ q, hexFail s.input = some q →
          u.status.state = .error ∧ u.status.errKind = .codec ∧ u.dstLen = 0 ∧
          u.errOffset.toNat = q ∧ u.errByte = (s.ibufByte q).setWidth 32) ∧
        (hexFail s.input = none →
          u.status.state = .done ∧ u.status.errKind = .none ∧ u.errOffset = 0 ∧ u.errByte = 0 ∧
          u.dstLen.toNat = s.srcLen.toNat / 2 ∧ ∀ o, u.obufDefined? o = (hexdecX s.input)[o]?)) ∧
      u.params = s.params ∧ u.srcLen = s.srcLen ∧ u.script = [] ∧ u.reads = s.reads ∧ u.draws = s.draws ∧
      (∀ o, u.ibufByte o = s.ibufByte o)

/-- 60_exceptions.md R196, R200: on an unsupported lane width every command, whatever its input, ends
in FATAL at its first engine step with all result registers 0, and every later START is ignored; the
other states it can reach are IDLE and BUSY with the first ENTRY pending; on a supported width FATAL is
unreachable. -/
def Obligations.UnsupportedWidthEndsInFatal : Prop :=
  (∀ (i j : Instr) (s : State), s.params.supported = false → s.script = [] → s.acceptsStart →
    ∃ t u, exec i s = .next t ∧ Host.Core.run Sys2Proof.core 1 t = .next u ∧
      u.status = { state := .fatal, errKind := .none, pad := 0, op := i } ∧
      u.dstLen = 0 ∧ u.errOffset = 0 ∧ u.errByte = 0 ∧ exec j u = .next u) ∧
  ∀ s : State, Inv s →
    (s.params.supported = true → s.status.state ≠ .fatal) ∧
    (s.params.supported = false →
      s.status.state = .idle ∨ (s.status.state = .busy ∧ s.eng.sub = .entry) ∨ s.status.state = .fatal)

/-- 41_engine.md R117, 10_state.md R37, 70_reset_and_hazards.md R227: the host's view of a command's end
is a function of the command, its length and its input bytes alone: it depends on no supported `L`, no
`T_SMALL`, no byte beyond the input, and nothing an earlier command left behind. -/
def Obligations.ResultDependsOnlyOnTheInput : Prop :=
  ∀ (i : Instr) (s s' : State),
    s.params.wf = true → s'.params.wf = true → s.params.supported = true → s'.params.supported = true →
    s.script = [] → s'.script = [] → s.acceptsStart → s'.acceptsStart →
    s.srcLen = s'.srcLen → (∀ o < s.srcLen.toNat, s.ibufByte o = s'.ibufByte o) →
    ∃ t t' u u', exec i s = .next t ∧ exec i s' = .next t' ∧
      Host.Core.run Sys2Proof.core (commandSteps s.params i s.input) t = .next u ∧
      Host.Core.run Sys2Proof.core (commandSteps s'.params i s'.input) t' = .next u' ∧
      u.status.state ≠ .busy ∧ u.hostView = u'.hostView

/-- 60_exceptions.md R204: re-issuing a command on the same IBUF contents and `SRC_LEN`, from the state
in which it ended, ends with the same host view (a failed command: the same error). -/
def Obligations.RetryGivesTheSameResult : Prop :=
  ∀ (i : Instr) (s : State), s.params.wf = true → s.params.supported = true → s.script = [] → s.acceptsStart →
    ∃ t u t' u', exec i s = .next t ∧
      Host.Core.run Sys2Proof.core (commandSteps s.params i s.input) t = .next u ∧
      exec i u = .next t' ∧
      Host.Core.run Sys2Proof.core (commandSteps u.params i u.input) t' = .next u' ∧
      u'.hostView = u.hostView

/-- 30_encoding.md R78, R79, 70_reset_and_hazards.md R219: `CALL op, "input"` from a resting block on a
supported lane width comes to its end, its last STATUS read shows the end, and the block delivers the
command's pure function of exactly that input (the interleaving of POLL with the engine is the model's, log 12). -/
def Obligations.CallDeliversThePureFunction : Prop :=
  ∀ (i : Instr) (b : List Byte) (s : State),
    s.params.wf = true → s.params.supported = true → b.length ≤ s.params.nmax →
    s.status.state = .idle ∨ s.status.state = .done ∨ s.status.state = .error →
    s.script = callProgram i b →
    ∃ k u, Host.Core.run Sys2Proof.core k s = .next u ∧ u.script = [] ∧
      u.delivers (pureResult i b) ∧ u.status.op = i ∧ u.status.pad = finalPad i b ∧
      u.reads.head? = some (.word u.status.word)

/-! ### The Base64 codec -/

/-- 42_base64.md R140: `SYM`, as its five buckets, and `'='` is not among its values. -/
def Obligations.SymIsTheStandardAlphabet : Prop :=
  ∀ n : Sextet,
    (n.toNat ≤ 25 → (sym n).toNat = 0x41 + n.toNat) ∧
    (26 ≤ n.toNat → n.toNat ≤ 51 → (sym n).toNat = 0x61 + (n.toNat - 26)) ∧
    (52 ≤ n.toNat → n.toNat ≤ 61 → (sym n).toNat = 0x30 + (n.toNat - 52)) ∧
    (n = 62 → sym n = 0x2B) ∧ (n = 63 → sym n = 0x2F) ∧
    sym n ≠ 0x3D ∧ ∀ m : Sextet, sym m = sym n → m = n

/-- 42_base64.md R141: `VAL64` is the inverse of `SYM`, and exactly the alphabet is valid. -/
def Obligations.Val64InvertsSym : Prop :=
  (∀ n : Sextet, val64 (sym n) = some n) ∧
  (∀ (c : Byte) (n : Sextet), val64 c = some n → sym n = c) ∧
  (∀ c : Byte, (val64 c).isSome = true ↔
    (0x41 ≤ c.toNat ∧ c.toNat ≤ 0x5A) ∨ (0x61 ≤ c.toNat ∧ c.toNat ≤ 0x7A) ∨
    (0x30 ≤ c.toNat ∧ c.toNat ≤ 0x39) ∨ c = 0x2B ∨ c = 0x2F)

/-- 42_base64.md R142, R149, 20_memory.md R54: the four 6-bit fields are the bits [23:18], [17:12],
[11:6], [5:0] of the group, whose first byte is the most significant; `DEC4` is the inverse. -/
def Obligations.GroupBitOrder : Prop :=
  (∀ b0 b1 b2 : Byte, ∃ q0 q1 q2 q3 : Sextet,
    q0 ++ q1 ++ q2 ++ q3 = b0 ++ b1 ++ b2 ∧
    enc3 b0 b1 b2 = [sym q0, sym q1, sym q2, sym q3] ∧ dec4 q0 q1 q2 q3 = [b0, b1, b2]) ∧
  (∀ v0 v1 v2 v3 : Sextet, ∃ b0 b1 b2 : Byte,
    dec4 v0 v1 v2 v3 = [b0, b1, b2] ∧ b0 ++ b1 ++ b2 = v0 ++ v1 ++ v2 ++ v3)

/-- 42_base64.md R143, R144, R150: the partial groups: an encoder fills the missing low bits with 0, a
decoder discards the low bits of its last value. -/
def Obligations.PartialGroupBitOrder : Prop :=
  (∀ b0 : Byte, ∃ q0 q1 : Sextet,
    q0 ++ q1 = b0 ++ (0 : BitVec 4) ∧ enc1 b0 = [sym q0, sym q1, 0x3D, 0x3D]) ∧
  (∀ b0 b1 : Byte, ∃ q0 q1 q2 : Sextet,
    q0 ++ q1 ++ q2 = b0 ++ b1 ++ (0 : BitVec 2) ∧ enc2 b0 b1 = [sym q0, sym q1, sym q2, 0x3D]) ∧
  (∀ v0 v1 : Sextet, ∃ (b0 : Byte) (d : BitVec 4), b0 ++ d = v0 ++ v1 ∧ dec2 v0 v1 = [b0]) ∧
  (∀ v0 v1 v2 : Sextet, ∃ (b0 b1 : Byte) (d : BitVec 2),
    b0 ++ b1 ++ d = v0 ++ v1 ++ v2 ∧ dec3 v0 v1 v2 = [b0, b1])

/-- 42_base64.md R145, R154: the chunk transforms, group by group, and their last partial group. -/
def Obligations.Base64ChunkTransforms : Prop :=
  (∀ (s : List Byte) (g : Nat) (b0 b1 b2 : Byte),
    (b64encX s).length = 4 * ((s.length + 2) / 3) ∧
    (s[3 * g]? = some b0 → s[3 * g + 1]? = some b1 → s[3 * g + 2]? = some b2 →
      ((b64encX s).drop (4 * g)).take 4 = enc3 b0 b1 b2) ∧
    (s.length = 3 * g + 1 → s[3 * g]? = some b0 → (b64encX s).drop (4 * g) = enc1 b0) ∧
    (s.length = 3 * g + 2 → s[3 * g]? = some b0 → s[3 * g + 1]? = some b1 →
      (b64encX s).drop (4 * g) = enc2 b0 b1)) ∧
  (∀ (s : List Byte) (g : Nat) (v0 v1 v2 v3 : Sextet),
    (b64decX s).length = 3 * s.length / 4 ∧
    (s[4 * g]?.map val64 = some (some v0) → s[4 * g + 1]?.map val64 = some (some v1) →
      (s[4 * g + 2]?.map val64 = some (some v2) → s[4 * g + 3]?.map val64 = some (some v3) →
        ((b64decX s).drop (3 * g)).take 3 = dec4 v0 v1 v2 v3) ∧
      (s.length = 4 * g + 2 → (b64decX s).drop (3 * g) = dec2 v0 v1) ∧
      (s.length = 4 * g + 3 → s[4 * g + 2]?.map val64 = some (some v2) →
        (b64decX s).drop (3 * g) = dec3 v0 v1 v2)))

/-- 42_base64.md R146: the padding of an encoding: `(3 - N mod 3) mod 3` characters `'='` at its end,
and before them only symbols of the alphabet. -/
def Obligations.EncodingEndsInItsPadding : Prop :=
  ∀ b : List Byte, ∃ v : List Sextet,
    b64encX b = v.map sym ++ List.replicate ((3 - b.length % 3) % 3) 0x3D ∧
    (b64encX b).length = 4 * ((b.length + 2) / 3) ∧ (b64encX b).length % 4 = 0

/-- 42_base64.md R158: the round trip, for every byte buffer; and the other direction exactly for
canonical texts (R157, 90_conflicts.md C2). -/
def Obligations.Base64RoundTrip : Prop :=
  (∀ b : List Byte, b64decPure (b64encX b) = .ok b) ∧
  (∀ s b : List Byte, b64decPure s = .ok b →
    (b64encX b).length = s.length ∧ (b64encX b = s ↔ canonical64 s))

/-- 60_exceptions.md R192, R193, R197, 42_base64.md R151 to R153: when `B64DEC` fails, how, and where:
the length first, then the least offset below `NEFF` whose byte is outside the alphabet. -/
def Obligations.B64decFailsExactlyWhere : Prop :=
  ∀ s : List Byte,
    (b64decPure s = .lengthError ↔ s.length % 4 ≠ 0) ∧
    ∀ (o : Nat) (c : Byte), b64decPure s = .codecError o c ↔
      s.length % 4 = 0 ∧ o < s.length - (paddingCount s).toNat ∧ s[o]? = some c ∧ val64 c = none ∧
        ∀ q < o, ∃ d, s[q]? = some d ∧ val64 d ≠ none

/-- 42_base64.md R151, 90_conflicts.md C4: the Padding Count looks at the last two bytes only and never
exceeds 2; a third `'='` before them is a stray one and fails the decoding, at the least invalid offset. -/
def Obligations.ThirdEqualsSignIsNotPadding : Prop :=
  (∀ s : List Byte, paddingCount s =
    if s = [] ∨ s[s.length - 1]? ≠ some 0x3D then 0
    else if s[s.length - 2]? ≠ some 0x3D then 1 else 2) ∧
  (∀ s : List Byte, (s ++ [0x3D, 0x3D, 0x3D]).length % 4 = 0 →
    paddingCount (s ++ [0x3D, 0x3D, 0x3D]) = 2 ∧
    b64decPure (s ++ [0x3D, 0x3D, 0x3D]) =
      match b64Fail s with
      | some p => .codecError p (s.getD p 0)
      | none => .codecError s.length 0x3D)

/-- 42_base64.md R148: the lane realisation of `SYM` computes `SYM`, for lanes of any whole number of
128-bit groups. -/
def Obligations.SymLaneComputesSym : Prop :=
  ∀ v : Lane, v.length % 16 = 0 → (∀ x ∈ v, x.toNat < 64) →
    symLane v = some (v.map (fun x => sym (x.setWidth 6)))

/-! ### The Hex codec -/

/-- 43_hex.md R170, R171: the digits and the three ranges of valid characters. -/
def Obligations.HexDigitsAndTheirValues : Prop :=
  (∀ n : Nibble, (n.toNat ≤ 9 → (hexDigit n).toNat = 0x30 + n.toNat) ∧
    (10 ≤ n.toNat → (hexDigit n).toNat = 0x61 + (n.toNat - 10)) ∧ valHex (hexDigit n) = some n) ∧
  (∀ c : Byte,
    (0x30 ≤ c.toNat → c.toNat ≤ 0x39 → valHex c = some (BitVec.ofNat 4 (c.toNat - 0x30))) ∧
    (0x41 ≤ c.toNat → c.toNat ≤ 0x46 → valHex c = some (BitVec.ofNat 4 (c.toNat - 0x41 + 10))) ∧
    (0x61 ≤ c.toNat → c.toNat ≤ 0x66 → valHex c = some (BitVec.ofNat 4 (c.toNat - 0x61 + 10))) ∧
    ((valHex c).isSome = true →
      (0x30 ≤ c.toNat ∧ c.toNat ≤ 0x39) ∨ (0x41 ≤ c.toNat ∧ c.toNat ≤ 0x46) ∨
      (0x61 ≤ c.toNat ∧ c.toNat ≤ 0x66)))

/-- 43_hex.md R172, R175, 20_memory.md R55: the chunk transforms, position by position: the high nibble
is the first character. -/
def Obligations.HexChunkTransforms : Prop :=
  (∀ (s : List Byte) (i : Nat) (b : Byte), s[i]? = some b →
    ∃ h l : Nibble, h ++ l = b ∧
      (hexencX s)[2 * i]? = some (hexDigit h) ∧ (hexencX s)[2 * i + 1]? = some (hexDigit l)) ∧
  (∀ (s : List Byte) (i : Nat) (h l : Nibble),
    s[2 * i]?.map valHex = some (some h) → s[2 * i + 1]?.map valHex = some (some l) →
    (hexdecX s)[i]? = some (h ++ l)) ∧
  (∀ s : List Byte, (hexencX s).length = 2 * s.length ∧ (hexdecX s).length = s.length / 2)

/-- 43_hex.md R179: the round trip for every byte buffer; the other direction up to the case of the
digits (90_conflicts.md C2). -/
def Obligations.HexRoundTrip : Prop :=
  (∀ b : List Byte, hexdecPure (hexencX b) = .ok b) ∧
  (∀ s b : List Byte, hexdecPure s = .ok b →
    hexencX b = s.map (fun c => if 0x41 ≤ c.toNat ∧ c.toNat ≤ 0x46 then c + 0x20 else c) ∧
    (hexencX b = s ↔ ∀ c ∈ s, ¬ (0x41 ≤ c.toNat ∧ c.toNat ≤ 0x46)))

/-- 43_hex.md R174, R176, R177, 60_exceptions.md R192, R193, R197: when `HEXDEC` fails, how, and where. -/
def Obligations.HexdecFailsExactlyWhere : Prop :=
  ∀ s : List Byte,
    (hexdecPure s = .lengthError ↔ s.length % 2 ≠ 0) ∧
    ∀ (o : Nat) (c : Byte), hexdecPure s = .codecError o c ↔
      s.length % 2 = 0 ∧ s[o]? = some c ∧ valHex c = none ∧ ∀ q < o, ∃ d, s[q]? = some d ∧ valHex d ≠ none

/-- 42_base64.md R159: the length formulas, for every length. -/
def Obligations.OutputLengths : Prop :=
  (∀ b : List Byte, (b64encX b).length = 4 * ((b.length + 2) / 3)) ∧
  (∀ s b : List Byte, b64decPure s = .ok b →
    b.length = 3 * (s.length / 4) - (paddingCount s).toNat ∧ (paddingCount s).toNat ≤ 2) ∧
  (∀ b : List Byte, (hexencX b).length = 2 * b.length) ∧
  (∀ s b : List Byte, hexdecPure s = .ok b → 2 * b.length = s.length)

/-- 43_hex.md R172, R174, R175: on lanes of any whole number of 128-bit groups, the lane realisation of
the hex transforms computes the byte formulas, and the two-sided validation reports the least failing
position of the interleaved characters. -/
def Obligations.HexLanesComputeTheByteFormulas : Prop :=
  (∀ v : Lane, v.length % 16 = 0 → ∃ o0 o1 : Lane, hexencLanes v = some (o0, o1) ∧
    o0.length = v.length ∧ o1.length = v.length ∧ o0 ++ o1 = hexencX v) ∧
  (∀ s0 s1 : Lane, s0.length = s1.length →
    hexdecLane (deinterleave s0 s1).1 (deinterleave s0 s1).2 = some (hexdecX (s0 ++ s1)) ∧
    ∀ n ≤ s0.length + s1.length,
      firstFail2 ((deinterleave s0 s1).1.map badHex) ((deinterleave s0 s1).2.map badHex) n =
        hexFail ((s0 ++ s1).take n))

/-! ### The lane primitives -/

/-- 40_lane_vector.md R86 to R90: the loads and stores of lanes, and the valid mask. -/
def Obligations.LaneLoadsAndStores : Prop :=
  ∀ (s : State) (o n : Nat),
    (o + s.params.L ≤ s.eng.n → loadFull s o = .ok (s.ibufBytes o s.params.L)) ∧
    (n ≤ s.params.L → o + n ≤ s.eng.n → ∃ v, loadMask s o n = .ok v ∧ v.length = s.params.L ∧
      ∀ i < s.params.L, v[i]? = some (if i < n then s.ibufByte (o + i) else 0)) ∧
    (∀ v : Lane, v.length = s.params.L →
      (o + s.params.L ≤ s.eng.olen → ∃ t, storeFull s o v = .ok t ∧
        ∀ a, t.obuf.read? a = if o ≤ a ∧ a < o + s.params.L then v[a - o]? else s.obuf.read? a) ∧
      (n ≤ s.params.L → o + n ≤ s.eng.olen → ∃ t, storeMask s o v n = .ok t ∧
        ∀ a, t.obuf.read? a = if o ≤ a ∧ a < o + n then v[a - o]? else s.obuf.read? a)) ∧
    ∀ i < s.params.L, (valid s.params.L n)[i]? = some (decide (i < n))

/-- 40_lane_vector.md R91 to R94, R102: each elementwise primitive computes position `i` from position
`i` of its operands; masks alike. -/
def Obligations.ElementwisePrimitives : Prop :=
  (∀ (m n : Mask) (i : Nat) (p q : Bool), m[i]? = some p → n[i]? = some q →
    (maskLane m)[i]? = some (if p then 0xFF else 0x00) ∧
    (andMask m n)[i]? = some (p && q) ∧ (orMask m n)[i]? = some (p || q) ∧
    (xorMask m n)[i]? = some (p != q) ∧ (andnMask m n)[i]? = some (!p && q) ∧
    (notMask m)[i]? = some (!p)) ∧
  ∀ (a b : Lane) (i : Nat) (x y : Byte), a[i]? = some x → b[i]? = some y →
    (cmpEq a b)[i]? = some (decide (x = y)) ∧
    (cmpGtu a b)[i]? = some (decide (y.toNat < x.toNat)) ∧
    (cmpLtu a b)[i]? = some (decide (x.toNat < y.toNat)) ∧
    ((addLane a b)[i]?.map BitVec.toNat) = some ((x.toNat + y.toNat) % 256) ∧
    ((subLane a b)[i]?.map BitVec.toNat) = some ((256 + x.toNat - y.toNat) % 256) ∧
    ((subsLane a b)[i]?.map BitVec.toNat) = some (x.toNat - y.toNat) ∧
    (andLane a b)[i]? = some (x &&& y) ∧ (orLane a b)[i]? = some (x ||| y) ∧
    (xorLane a b)[i]? = some (x ^^^ y) ∧ (andnLane a b)[i]? = some ((x ^^^ 0xFF) &&& y) ∧
    (notLane a)[i]? = some (x ^^^ 0xFF) ∧
    (∀ k ≤ 7, ∃ l r, shl a k = some l ∧ shr a k = some r ∧
      (l[i]?.map BitVec.toNat) = some (x.toNat * 2 ^ k % 256) ∧
      (r[i]?.map BitVec.toNat) = some (x.toNat / 2 ^ k)) ∧
    (∀ k, 8 ≤ k → shl a k = none ∧ shr a k = none)

/-- 40_lane_vector.md R95: `LOOKUP16`: position `i` reads entry `idx[i] & 0x0F` of its own 128-bit
group; an index with bit 7 set has no value (93_implementation_defined.md U11). -/
def Obligations.Lookup16ReadsItsOwnGroup : Prop :=
  ∀ t idx : Lane, t.length = idx.length → t.length % 16 = 0 →
    ((∀ x ∈ idx, x.toNat < 128) → ∃ r, lookup16 t idx = some r ∧ r.length = idx.length ∧
      ∀ (i : Nat) (x : Byte), idx[i]? = some x → r[i]? = t[16 * (i / 16) + x.toNat % 16]?) ∧
    ((∃ x ∈ idx, 128 ≤ x.toNat) → lookup16 t idx = none)

/-- 40_lane_vector.md R96: the slides, with zero fill, over the whole lane. -/
def Obligations.SlidesMoveAndZeroFill : Prop :=
  ∀ (a : Lane) (k : Nat),
    (k ≤ a.length → ∃ u d, slideUp a k = some u ∧ slideDown a k = some d ∧
      u.length = a.length ∧ d.length = a.length ∧
      (∀ i < a.length, u[i]? = if k ≤ i then a[i - k]? else some 0) ∧
      (∀ i < a.length, d[i]? = if i + k < a.length then a[i + k]? else some 0)) ∧
    (a.length < k → slideUp a k = none ∧ slideDown a k = none)

/-- 40_lane_vector.md R98: interleave and deinterleave, position by position, and each is the inverse of
the other. -/
def Obligations.InterleaveAndDeinterleave : Prop :=
  (∀ h l : Lane, h.length = l.length →
    (∀ i < h.length, ((interleave h l).1 ++ (interleave h l).2)[2 * i]? = h[i]? ∧
      ((interleave h l).1 ++ (interleave h l).2)[2 * i + 1]? = l[i]?) ∧
    (interleave h l).1.length = h.length ∧ (interleave h l).2.length = h.length ∧
    deinterleave (interleave h l).1 (interleave h l).2 = (h, l)) ∧
  (∀ s0 s1 : Lane, s0.length = s1.length →
    interleave (deinterleave s0 s1).1 (deinterleave s0 s1).2 = (s0, s1))

/-- 40_lane_vector.md R99: `FIRST_FAIL` and `FIRST_FAIL2` answer the least failing position below the
valid count, and none if there is none. -/
def Obligations.FirstFailIsTheLeast : Prop :=
  (∀ (m : Mask) (n p : Nat), firstFail m n = some p ↔
    p < n ∧ m.getD p false = true ∧ ∀ q < p, m.getD q false = false) ∧
  (∀ (mh ml : Mask) (n q : Nat), firstFail2 mh ml n = some q ↔
    q < n ∧ (if q % 2 = 0 then mh.getD (q / 2) false else ml.getD ((q - 1) / 2) false) = true ∧
      ∀ r < q, (if r % 2 = 0 then mh.getD (r / 2) false else ml.getD ((r - 1) / 2) false) = false)

/-- 40_lane_vector.md R101, 41_engine.md R116: a window load passes on exactly the nominal bytes,
however many extra bytes it may fetch, and never leaves the Input View. -/
def Obligations.WindowLoadPassesOnTheNominalChunk : Prop :=
  ∀ (s : State) (o n pre post : Nat),
    (o + n ≤ s.eng.n → loadWindow s o n pre post = .ok (s.ibufBytes o n)) ∧
    (s.eng.n < o + n → loadWindow s o n pre post = .error .readOutOfBounds)

/-! ### Buffers, host accesses and reset -/

/-- The buffer memories (20_memory.md R60): a read after a write gives the value written, every other
byte keeps its value, and the canonical form is kept. -/
def Obligations.MemoryReadAfterWrite : Prop :=
  ∀ (m : Memory) (o : Nat) (v : List Byte),
    (∀ a, (m.writeBytes o v).read? a = if o ≤ a ∧ a < o + v.length then v[a - o]? else m.read? a) ∧
    (Memory.wf m → Memory.wf (m.writeBytes o v))

/-- 10_state.md R34, 70_reset_and_hazards.md R224: the host's IBUF accesses outside BUSY: a read returns
the byte and changes nothing else, a write is read back, and other bytes keep their value. While BUSY a
write is refused (R224), and so is a read (60_exceptions.md R195, DEDUCED, log 10). -/
def Obligations.HostAccessesOfIbuf : Prop :=
  ∀ (s : State) (o : Nat) (b : Byte), o < s.params.nmax →
    (s.status.state ≠ .busy →
      hostAct (.readIbuf o) s = .next { s with reads := .byte (s.ibufByte o) :: s.reads } ∧
      ∃ t, hostAct (.writeIbuf o b) s = .next t ∧
        t = { s with ibuf := t.ibuf } ∧ t.ibufByte o = b ∧ (∀ a, a ≠ o → t.ibufByte a = s.ibufByte a) ∧
        hostAct (.readIbuf o) t = .next { t with reads := .byte b :: t.reads }) ∧
    (s.status.state = .busy → hostAct (.writeIbuf o b) s = .refused .ibufWriteWhileBusy ∧
      hostAct (.readIbuf o) s = .refused .ibufReadWhileBusy)

/-- 10_state.md R35, 70_reset_and_hazards.md R225: the host's OBUF reads: in DONE and below `DST_LEN`
the byte the command wrote; anywhere else inside OBUF some value, and nothing else changes but the
model's count of such values (log 7). That a read while BUSY is such a draw and no refusal is the model's
DESIGN CHOICE (log 13): 93_implementation_defined.md U5 allows it, 60_exceptions.md R195 refuses it. -/
def Obligations.HostReadsOfObuf : Prop :=
  ∀ (s : State) (o : Nat), Inv s → o < s.params.obufCap →
    (s.status.state = .done → o < s.dstLen.toNat → ∃ b, s.obuf.read? o = some b ∧
      hostAct (.readObuf o) s = .next { s with reads := .byte b :: s.reads }) ∧
    (s.status.state ≠ .done ∨ s.dstLen.toNat ≤ o → ∃ b,
      hostAct (.readObuf o) s = .next { s with reads := .byte b :: s.reads, draws := s.draws + 1 })

/-- 70_reset_and_hazards.md R215, 10_state.md R21: the registers after power-on and after the reset event
in any state; the constants of the block are as before, and `LANE_W` and `CAP` read as before (R27). -/
def Obligations.ResetEventRestoresTheResetColumn : Prop :=
  (∀ p : Params, (State.resetOf p).atResetColumn p) ∧
  ∀ s : State, ∃ t, hostAct .reset s = .next t ∧ t.atResetColumn s.params ∧
    t.readReg .laneW = s.readReg .laneW ∧ t.readReg .cap = s.readReg .cap

/-- 70_reset_and_hazards.md R216: after the reset event no OBUF byte is defined to the host, and every
IBUF byte is again the free value of its offset, of this reset's own number (the model's rendering, logs 6, 7, 19). -/
def Obligations.ResetForgetsTheBuffers : Prop :=
  ∀ s : State, ∃ t, hostAct .reset s = .next t ∧
    (∀ o, t.obufDefined? o = none) ∧ (∀ o, t.ibufByte o = Config.ibufFree (s.epoch + 1) o)

/-- 42_base64.md R147, 41_engine.md R108 on the block where they meet 10_state.md R30 and R35 (log 21): the
output of a legal input is longer than the `2 * NMAX` bytes of OBUF for `B64ENC` of one byte with `NMAX` =
1 alone. The model's choice (log 21): that command too ends in DONE, after three engine steps, with its 4
bytes; and no host read reaches an offset of `2 * NMAX` or more (log 9). -/
def Obligations.SmallestBlockDeliversB64enc : Prop :=
  (∀ (p : Params) (i : Instr) (n : Nat) (padc : BitVec 2), n ≤ p.nmax →
    (p.obufCap < outLen i n padc ↔ i = .b64enc ∧ n = 1 ∧ p.nmax = 1)) ∧
  (∀ s : State, s.params.supported = true → s.script = [] → s.acceptsStart →
    s.srcLen = 1 → s.params.nmax = 1 →
    ∃ t u, exec .b64enc s = .next t ∧ Host.Core.run Sys2Proof.core 3 t = .next u ∧
      u.status = { state := .done, errKind := .none, pad := 0, op := .b64enc } ∧ u.dstLen = 4 ∧
      ∀ o, u.obufDefined? o = (enc1 (s.ibufByte 0))[o]?) ∧
  ∀ (s : State) (o : Nat), 2 * s.params.nmax ≤ o → hostAct (.readObuf o) s = .fault .noSuchObufOffset
end

