-- ==== Sys2Proof/Laws/Base64.lean ====
section
/-! SUPPORT. Laws of the Base64 transforms: lengths, concatenation at group boundaries, and the inverse
laws of the alphabet and of the repacking. -/

namespace Sys2Proof.Machine

/-! ### The alphabet (42_base64.md R140, R141) -/

theorem val64_sym (n : Sextet) : val64 (sym n) = some n := by
  revert n
  decide

theorem sym_of_val64 {c : Byte} {n : Sextet} (h : val64 c = some n) : sym n = c := by
  have key : ∀ c : Byte, (val64 c).map sym = if (val64 c).isSome then some c else none := by decide
  have := key c
  simpa [h] using this

theorem bad64_sym (n : Sextet) : bad64 (sym n) = false := by simp [bad64, val64_sym]

theorem bad64_padChar : bad64 padChar = true := by decide

theorem sym_ne_padChar (n : Sextet) : sym n ≠ padChar := by
  intro h
  have := bad64_sym n
  rw [h, bad64_padChar] at this
  cases this

/-! ### Encoding (42_base64.md R142 to R146) -/

@[simp] theorem length_enc3 (a b c : Byte) : (enc3 a b c).length = 4 := rfl
@[simp] theorem length_enc2 (a b : Byte) : (enc2 a b).length = 4 := rfl
@[simp] theorem length_enc1 (a : Byte) : (enc1 a).length = 4 := rfl

@[simp] theorem length_b64encX (c : List Byte) : (b64encX c).length = 4 * ((c.length + 2) / 3) := by
  induction c using b64encX.induct with
  | case1 b0 b1 b2 c ih => simp only [b64encX, List.length_append, length_enc3, ih, List.length_cons]; omega
  | case2 b0 b1 => simp [b64encX]
  | case3 b0 => simp [b64encX]
  | case4 => simp [b64encX]

theorem b64encX_append (c d : List Byte) (h : c.length % 3 = 0) :
    b64encX (c ++ d) = b64encX c ++ b64encX d := by
  induction c using b64encX.induct with
  | case1 b0 b1 b2 c ih =>
    have h' : c.length % 3 = 0 := by simp only [List.length_cons] at h; omega
    simp [b64encX, ih h']
  | case2 b0 b1 => simp at h
  | case3 b0 => simp at h
  | case4 => simp [b64encX]

/-! ### Decoding (42_base64.md R149, R150, R154) -/

@[simp] theorem length_dec4 (a b c d : Sextet) : (dec4 a b c d).length = 3 := rfl
@[simp] theorem length_dec3 (a b c : Sextet) : (dec3 a b c).length = 2 := rfl
@[simp] theorem length_dec2 (a b : Sextet) : (dec2 a b).length = 1 := rfl

@[simp] theorem length_repack64 (v : List Sextet) : (repack64 v).length = 3 * v.length / 4 := by
  induction v using repack64.induct with
  | case1 v0 v1 v2 v3 v ih => simp only [repack64, List.length_append, length_dec4, ih, List.length_cons]; omega
  | case2 | case3 | case4 | case5 => simp [repack64]

theorem repack64_append (c d : List Sextet) (h : c.length % 4 = 0) :
    repack64 (c ++ d) = repack64 c ++ repack64 d := by
  induction c using repack64.induct with
  | case1 v0 v1 v2 v3 c ih =>
    have h' : c.length % 4 = 0 := by simp only [List.length_cons] at h; omega
    simp [repack64, ih h']
  | case2 | case3 | case4 => simp at h
  | case5 => simp [repack64]

@[simp] theorem length_b64decX (c : List Byte) : (b64decX c).length = 3 * c.length / 4 := by
  simp [b64decX]

theorem b64decX_append (c d : List Byte) (h : c.length % 4 = 0) :
    b64decX (c ++ d) = b64decX c ++ b64decX d := by
  rw [b64decX, List.map_append, repack64_append _ _ (by simpa using h), b64decX, b64decX]

/-! ### `DEC` inverts the bit extraction of `ENC` (42_base64.md R149, R150) -/

theorem dec4_sextets3 (b0 b1 b2 : Byte) :
    (match sextets3 b0 b1 b2 with | (q0, q1, q2, q3) => dec4 q0 q1 q2 q3) = [b0, b1, b2] := by
  simp only [sextets3, dec4, List.cons.injEq, and_true]
  refine ⟨?_, ?_, ?_⟩ <;>
  · apply BitVec.eq_of_getLsbD_eq
    intro i hi
    interval_cases i <;> simp

theorem dec2_enc1 (b0 : Byte) :
    dec2 ((b0 >>> 2).setWidth 6) (((b0 &&& 0x03) <<< 4).setWidth 6) = [b0] := by
  simp only [dec2, List.cons.injEq, and_true]
  apply BitVec.eq_of_getLsbD_eq
  intro i hi
  interval_cases i <;> simp

theorem dec3_enc2 (b0 b1 : Byte) :
    dec3 ((b0 >>> 2).setWidth 6) ((((b0 &&& 0x03) <<< 4) ||| (b1 >>> 4)).setWidth 6)
      (((b1 &&& 0x0F) <<< 2).setWidth 6) = [b0, b1] := by
  simp only [dec3, List.cons.injEq, and_true]
  refine ⟨?_, ?_⟩ <;>
  · apply BitVec.eq_of_getLsbD_eq
    intro i hi
    interval_cases i <;> simp

/-! ### The symbols of an encoding, before translation -/

/-- The 6-bit values whose symbols an encoding is made of, its padding left out. -/
def sextetsOf : List Byte → List Sextet
  | b0 :: b1 :: b2 :: c =>
    (match sextets3 b0 b1 b2 with | (q0, q1, q2, q3) => [q0, q1, q2, q3]) ++ sextetsOf c
  | [b0, b1] =>
    [(b0 >>> 2).setWidth 6, (((b0 &&& 0x03) <<< 4) ||| (b1 >>> 4)).setWidth 6,
     ((b1 &&& 0x0F) <<< 2).setWidth 6]
  | [b0] => [(b0 >>> 2).setWidth 6, ((b0 &&& 0x03) <<< 4).setWidth 6]
  | [] => []

theorem b64encX_eq_sextets (b : List Byte) :
    b64encX b = (sextetsOf b).map sym ++ List.replicate ((3 - b.length % 3) % 3) padChar := by
  induction b using b64encX.induct with
  | case1 b0 b1 b2 c ih =>
    have : (3 - (b0 :: b1 :: b2 :: c).length % 3) % 3 = (3 - c.length % 3) % 3 := by
      simp only [List.length_cons]; omega
    rw [this, b64encX, ih, sextetsOf, List.map_append, List.append_assoc]
    rfl
  | case2 b0 b1 => rfl
  | case3 b0 => rfl
  | case4 => rfl

theorem length_sextetsOf (b : List Byte) :
    (sextetsOf b).length + (3 - b.length % 3) % 3 = 4 * ((b.length + 2) / 3) := by
  have := congrArg List.length (b64encX_eq_sextets b)
  simpa using this.symm

theorem repack64_sextetsOf (b : List Byte) : repack64 (sextetsOf b) = b := by
  induction b using b64encX.induct with
  | case1 b0 b1 b2 c ih =>
    have := dec4_sextets3 b0 b1 b2
    simp only [sextetsOf, sextets3, List.cons_append, List.nil_append, repack64, ih] at this ⊢
    rw [this]
    rfl
  | case2 b0 b1 => exact dec3_enc2 b0 b1
  | case3 b0 => exact dec2_enc1 b0
  | case4 => rfl

theorem b64decX_map_sym (v : List Sextet) : b64decX (v.map sym) = repack64 v := by
  simp [b64decX, Function.comp_def, val64_sym]

theorem b64Fail_map_sym (v : List Sextet) : b64Fail (v.map sym) = none := by
  simp [b64Fail, List.findIdx?_eq_none_iff, bad64_sym]

/-! ### Validation (42_base64.md R153) -/

theorem b64Fail_eq_none {c : List Byte} : b64Fail c = none ↔ ∀ x ∈ c, bad64 x = false := by
  simp [b64Fail, List.findIdx?_eq_none_iff]

theorem b64Fail_eq_some {s : List Byte} {p : Nat} :
    b64Fail s = some p ↔
      ∃ h : p < s.length, bad64 s[p] = true ∧ ∀ q (hq : q < p), bad64 (s[q]'(hq.trans h)) = false := by
  simp [b64Fail, List.findIdx?_eq_some_iff_getElem]

theorem b64Fail_append (c d : List Byte) :
    b64Fail (c ++ d) = (b64Fail c).or ((b64Fail d).map (· + c.length)) := by
  simp [b64Fail, List.findIdx?_append]

/-! ### Padding (42_base64.md R151) -/

theorem paddingCount_le (s : List Byte) : (paddingCount s).toNat ≤ 2 := by
  unfold paddingCount
  split
  · split <;> decide
  · decide

/-- The trailing padding of an encoding is counted exactly: the symbols before it are no `'='`. -/
theorem paddingCount_sym_append (v : List Sextet) (k : Nat) (hk : k ≤ 2) (hv : k ≤ v.length) :
    paddingCount (v.map sym ++ List.replicate k padChar) = BitVec.ofNat 2 k := by
  have hsym : ∀ i : Nat, (v.map sym)[i]? ≠ some padChar := by
    intro i h
    simp only [List.getElem?_map, Option.map_eq_some_iff] at h
    obtain ⟨q, -, hq⟩ := h
    exact sym_ne_padChar q hq
  have hlen : (v.map sym).length = v.length := by simp
  interval_cases k
  · by_cases hnil : v = []
    · subst hnil; rfl
    · simp only [List.replicate_zero, List.append_nil, paddingCount]
      rw [if_neg (fun h => hsym _ h.2)]
      rfl
  · have h1 : (v.map sym ++ List.replicate 1 padChar)[(v.map sym ++ List.replicate 1 padChar).length - 1]? =
        some padChar := by simp
    have h2 : (v.map sym ++ List.replicate 1 padChar)[(v.map sym ++ List.replicate 1 padChar).length - 2]? ≠
        some padChar := by
      rw [List.getElem?_append_left (by simp; omega)]
      exact hsym _
    simp only [paddingCount]
    rw [if_pos ⟨by simp, h1⟩, if_neg h2]
    rfl
  · have h1 : (v.map sym ++ List.replicate 2 padChar)[(v.map sym ++ List.replicate 2 padChar).length - 1]? =
        some padChar := by
      rw [List.getElem?_append_right (by simp)]
      simp [List.replicate]
    have h2 : (v.map sym ++ List.replicate 2 padChar)[(v.map sym ++ List.replicate 2 padChar).length - 2]? =
        some padChar := by
      rw [List.getElem?_append_right (by simp)]
      simp [List.replicate]
    simp only [paddingCount]
    rw [if_pos ⟨by simp, h1⟩, if_pos h2]
    rfl

end Sys2Proof.Machine
end

