-- ==== Sys2Proof/Laws/Hex.lean ====
section
/-! SUPPORT. Laws of the Hex transforms: lengths, concatenation at group boundaries, the digits, and the
lane realisation against the byte formulas. -/

namespace Sys2Proof.Machine

/-! ### The digits (43_hex.md R170, R171) -/

theorem valHex_hexDigit (n : Nibble) : valHex (hexDigit n) = some n := by
  revert n
  decide

theorem badHex_hexDigit (n : Nibble) : badHex (hexDigit n) = false := by simp [badHex, valHex_hexDigit]

/-- Lower case of the digits `'A'..'F'`, and every other byte itself (43_hex.md R179). -/
def lowerHex (c : Byte) : Byte := if 0x41 ≤ c.toNat ∧ c.toNat ≤ 0x46 then c + 0x20 else c

theorem hexDigit_of_valHex {c : Byte} {n : Nibble} (h : valHex c = some n) : hexDigit n = lowerHex c := by
  have key : ∀ c : Byte, (valHex c).map hexDigit = if (valHex c).isSome then some (lowerHex c) else none := by
    decide
  have := key c
  simpa [h] using this

/-! ### Encoding and decoding (43_hex.md R172, R175) -/

@[simp] theorem length_hexencX (c : List Byte) : (hexencX c).length = 2 * c.length := by
  induction c with
  | nil => rfl
  | cons b c ih => simp only [hexencX, List.length_cons, ih]; omega

theorem hexencX_append (c d : List Byte) : hexencX (c ++ d) = hexencX c ++ hexencX d := by
  induction c with
  | nil => rfl
  | cons b c ih => simp [hexencX, ih]

@[simp] theorem length_hexdecX (c : List Byte) : (hexdecX c).length = c.length / 2 := by
  induction c using hexdecX.induct with
  | case1 h l c ih => simp only [hexdecX, List.length_cons, ih]; omega
  | case2 | case3 => simp [hexdecX]

theorem hexdecX_append (c d : List Byte) (h : c.length % 2 = 0) :
    hexdecX (c ++ d) = hexdecX c ++ hexdecX d := by
  induction c using hexdecX.induct with
  | case1 a b c ih =>
    have h' : c.length % 2 = 0 := by simp only [List.length_cons] at h; omega
    simp [hexdecX, ih h']
  | case2 a => simp at h
  | case3 => simp [hexdecX]

theorem nibbles_combine (b : Byte) :
    ((((b >>> 4).setWidth 4 : Nibble).setWidth 8 : Byte) <<< 4) |||
      (((b &&& 0x0F).setWidth 4 : Nibble).setWidth 8) = b := by
  apply BitVec.eq_of_getLsbD_eq
  intro i hi
  interval_cases i <;> simp

theorem hexdecX_hexencX (b : List Byte) : hexdecX (hexencX b) = b := by
  induction b with
  | nil => rfl
  | cons b c ih =>
    simp only [hexencX, hexdecX, ih, hexValue, valHex_hexDigit, Option.getD_some, nibbles_combine]

/-! ### Validation (43_hex.md R174) -/

theorem hexFail_eq_none {c : List Byte} : hexFail c = none ↔ ∀ x ∈ c, badHex x = false := by
  simp [hexFail, List.findIdx?_eq_none_iff]

theorem hexFail_eq_some {s : List Byte} {p : Nat} :
    hexFail s = some p ↔
      ∃ h : p < s.length, badHex s[p] = true ∧ ∀ q (hq : q < p), badHex (s[q]'(hq.trans h)) = false := by
  simp [hexFail, List.findIdx?_eq_some_iff_getElem]

theorem hexFail_append (c d : List Byte) :
    hexFail (c ++ d) = (hexFail c).or ((hexFail d).map (· + c.length)) := by
  simp [hexFail, List.findIdx?_append]

theorem hexFail_hexencX (b : List Byte) : hexFail (hexencX b) = none := by
  rw [hexFail_eq_none]
  induction b with
  | nil => simp [hexencX]
  | cons b c ih => simpa [hexencX, badHex_hexDigit] using ih

end Sys2Proof.Machine
end

