-- ==== Sys2Proof/Laws/Memory.lean ====
section
/-! SUPPORT. Laws of the buffer memories: read after write, and the canonical form is kept. -/

namespace Sys2Proof.Machine

@[simp] theorem Memory.read?_nil (o : Nat) : Memory.read? [] o = none := rfl

theorem Memory.read?_write (m : Memory) (o : Nat) (b : Byte) (a : Nat) :
    (Memory.write m o b).read? a = if a = o then some b else m.read? a := by
  induction m with
  | nil => simp [Memory.write, Memory.read?]
  | cons c m ih =>
    obtain ⟨k, x⟩ := c
    unfold Memory.write
    split
    · simp [Memory.read?]
    · split
      · next h => subst h; by_cases h' : a = o <;> simp [Memory.read?, h']
      · next h => by_cases h' : a = k <;> simp_all [Memory.read?, eq_comm]

theorem Memory.read?_writeBytes (m : Memory) (o : Nat) (v : List Byte) (a : Nat) :
    (Memory.writeBytes m o v).read? a =
      if o ≤ a ∧ a < o + v.length then v[a - o]? else m.read? a := by
  induction v generalizing m o with
  | nil =>
    have : ¬ (o ≤ a ∧ a < o) := by omega
    simp [Memory.writeBytes, this]
  | cons b v ih =>
    simp only [Memory.writeBytes, ih, Memory.read?_write, List.length_cons]
    by_cases h1 : a = o
    · subst h1
      simp
    · by_cases h2 : o + 1 ≤ a ∧ a < o + 1 + v.length
      · have h3 : o ≤ a ∧ a < o + (v.length + 1) := by omega
        have h4 : a - o = (a - (o + 1)) + 1 := by omega
        simp [h2, h3, h4]
      · have h3 : ¬ (o ≤ a ∧ a < o + (v.length + 1)) := by omega
        rw [if_neg h2, if_neg h3, if_neg h1]

theorem Memory.read?_writeBytes_inside (m : Memory) (o : Nat) (v : List Byte) (a : Nat)
    (h : o ≤ a ∧ a < o + v.length) : (Memory.writeBytes m o v).read? a = v[a - o]? := by
  rw [Memory.read?_writeBytes, if_pos h]

theorem Memory.read?_writeBytes_outside (m : Memory) (o : Nat) (v : List Byte) (a : Nat)
    (h : a < o ∨ o + v.length ≤ a) : (Memory.writeBytes m o v).read? a = m.read? a := by
  rw [Memory.read?_writeBytes, if_neg (by omega)]

theorem Memory.mem_write {m : Memory} {o : Nat} {b : Byte} {c : Host.Cell}
    (h : c ∈ Memory.write m o b) : c.1 = o ∨ c ∈ m := by
  induction m with
  | nil => simp [Memory.write] at h; simp [h]
  | cons d m ih =>
    obtain ⟨k, x⟩ := d
    unfold Memory.write at h
    split at h
    · rcases List.mem_cons.1 h with rfl | h
      · exact .inl rfl
      · exact .inr h
    · split at h
      · rcases List.mem_cons.1 h with rfl | h
        · exact .inl rfl
        · exact .inr (List.mem_cons_of_mem _ h)
      · rcases List.mem_cons.1 h with rfl | h
        · exact .inr (List.mem_cons_self ..)
        · exact (ih h).imp_right (List.mem_cons_of_mem _)

theorem Memory.mem_writeBytes {m : Memory} {o : Nat} {v : List Byte} {c : Host.Cell}
    (h : c ∈ Memory.writeBytes m o v) : (o ≤ c.1 ∧ c.1 < o + v.length) ∨ c ∈ m := by
  induction v generalizing m o with
  | nil => exact .inr h
  | cons b v ih =>
    rcases ih h with h | h
    · exact .inl (by simp only [List.length_cons]; omega)
    · rcases Memory.mem_write h with h | h
      · exact .inl (by simp only [List.length_cons]; omega)
      · exact .inr h

theorem Memory.wf_write {m : Memory} (o : Nat) (b : Byte) (h : Memory.wf m) :
    Memory.wf (Memory.write m o b) := by
  induction m with
  | nil => simp [Memory.write, Memory.wf]
  | cons d m ih =>
    obtain ⟨k, x⟩ := d
    obtain ⟨hk, hm⟩ := List.pairwise_cons.1 h
    unfold Memory.write
    split
    · next hlt =>
      refine List.pairwise_cons.2 ⟨fun c hc => ?_, h⟩
      rcases List.mem_cons.1 hc with rfl | hc
      · exact hlt
      · exact lt_trans hlt (hk c hc)
    · split
      · next h' => subst h'; exact List.pairwise_cons.2 ⟨hk, hm⟩
      · refine List.pairwise_cons.2 ⟨fun c hc => ?_, ih hm⟩
        rcases Memory.mem_write hc with hc | hc
        · show k < c.1; omega
        · exact hk c hc

theorem Memory.wf_writeBytes {m : Memory} (o : Nat) (v : List Byte) (h : Memory.wf m) :
    Memory.wf (Memory.writeBytes m o v) := by
  induction v generalizing m o with
  | nil => exact h
  | cons b v ih => exact ih _ (Memory.wf_write o b h)

theorem Memory.writeBytes_append (m : Memory) (o : Nat) (u v : List Byte) :
    Memory.writeBytes m o (u ++ v) = Memory.writeBytes (Memory.writeBytes m o u) (o + u.length) v := by
  induction u generalizing m o with
  | nil => simp [Memory.writeBytes]
  | cons b u ih =>
    simp only [List.cons_append, Memory.writeBytes, ih, List.length_cons]
    congr 1
    omega

end Sys2Proof.Machine
end

