-- ==== Sys2Proof/Laws/State.lean ====
section
/-! SUPPORT. One lemma per field per update of State, true by rfl, so that no later proof unfolds an update. -/

namespace Sys2Proof.Machine

/-! ### Register reads (10_state.md R27) -/
theorem laneWord_of_lt {p : Params} (h : p.L < 2 ^ 32) : laneWord p = BitVec.ofNat 32 p.L := if_pos h
theorem laneWord_of_le {p : Params} (h : 2 ^ 32 ≤ p.L) : laneWord p = Config.laneWFree p.L :=
  if_neg (Nat.not_lt.2 h)

/-! ### START (41_engine.md R107) -/
@[simp] theorem State.started_params (s : State) (i : Instr) : (s.started i).params = s.params := rfl
@[simp] theorem State.started_srcLen (s : State) (i : Instr) : (s.started i).srcLen = s.srcLen := rfl
@[simp] theorem State.started_status (s : State) (i : Instr) : (s.started i).status = Status.started i := rfl
@[simp] theorem State.started_dstLen (s : State) (i : Instr) : (s.started i).dstLen = 0 := rfl
@[simp] theorem State.started_errOffset (s : State) (i : Instr) : (s.started i).errOffset = 0 := rfl
@[simp] theorem State.started_errByte (s : State) (i : Instr) : (s.started i).errByte = 0 := rfl
@[simp] theorem State.started_eng (s : State) (i : Instr) : (s.started i).eng = { s.eng with opl := i, n := s.srcLen.toNat, sub := .entry } := rfl
@[simp] theorem State.started_ibuf (s : State) (i : Instr) : (s.started i).ibuf = s.ibuf := rfl
@[simp] theorem State.started_obuf (s : State) (i : Instr) : (s.started i).obuf = s.obuf := rfl
@[simp] theorem State.started_epoch (s : State) (i : Instr) : (s.started i).epoch = s.epoch := rfl
@[simp] theorem State.started_draws (s : State) (i : Instr) : (s.started i).draws = s.draws := rfl
@[simp] theorem State.started_script (s : State) (i : Instr) : (s.started i).script = s.script := rfl
@[simp] theorem State.started_reads (s : State) (i : Instr) : (s.started i).reads = s.reads := rfl

/-! ### ENTRY (41_engine.md R108) -/
@[simp] theorem State.entered_params (s : State) (p : BitVec 2) : (s.entered p).params = s.params := rfl
@[simp] theorem State.entered_srcLen (s : State) (p : BitVec 2) : (s.entered p).srcLen = s.srcLen := rfl
@[simp] theorem State.entered_status (s : State) (p : BitVec 2) : (s.entered p).status = { s.status with pad := p } := rfl
@[simp] theorem State.entered_dstLen (s : State) (p : BitVec 2) : (s.entered p).dstLen = s.dstLen := rfl
@[simp] theorem State.entered_errOffset (s : State) (p : BitVec 2) : (s.entered p).errOffset = s.errOffset := rfl
@[simp] theorem State.entered_errByte (s : State) (p : BitVec 2) : (s.entered p).errByte = s.errByte := rfl
@[simp] theorem State.entered_eng (s : State) (p : BitVec 2) : (s.entered p).eng = { s.eng with padc := p, neff := s.eng.n - p.toNat, olen := outLen s.eng.opl s.eng.n p, idx := 0, odx := 0, sub := if s.eng.n ≤ s.params.tSmall then .scalar else .vector } := rfl
@[simp] theorem State.entered_ibuf (s : State) (p : BitVec 2) : (s.entered p).ibuf = s.ibuf := rfl
@[simp] theorem State.entered_obuf (s : State) (p : BitVec 2) : (s.entered p).obuf = s.obuf := rfl
@[simp] theorem State.entered_epoch (s : State) (p : BitVec 2) : (s.entered p).epoch = s.epoch := rfl
@[simp] theorem State.entered_draws (s : State) (p : BitVec 2) : (s.entered p).draws = s.draws := rfl
@[simp] theorem State.entered_script (s : State) (p : BitVec 2) : (s.entered p).script = s.script := rfl
@[simp] theorem State.entered_reads (s : State) (p : BitVec 2) : (s.entered p).reads = s.reads := rfl

/-! ### The cursors after a chunk -/
@[simp] theorem State.advance_params (s : State) (idx odx : Nat) (sub : SubPhase) : (s.advance idx odx sub).params = s.params := rfl
@[simp] theorem State.advance_srcLen (s : State) (idx odx : Nat) (sub : SubPhase) : (s.advance idx odx sub).srcLen = s.srcLen := rfl
@[simp] theorem State.advance_status (s : State) (idx odx : Nat) (sub : SubPhase) : (s.advance idx odx sub).status = s.status := rfl
@[simp] theorem State.advance_dstLen (s : State) (idx odx : Nat) (sub : SubPhase) : (s.advance idx odx sub).dstLen = s.dstLen := rfl
@[simp] theorem State.advance_errOffset (s : State) (idx odx : Nat) (sub : SubPhase) : (s.advance idx odx sub).errOffset = s.errOffset := rfl
@[simp] theorem State.advance_errByte (s : State) (idx odx : Nat) (sub : SubPhase) : (s.advance idx odx sub).errByte = s.errByte := rfl
@[simp] theorem State.advance_eng (s : State) (idx odx : Nat) (sub : SubPhase) : (s.advance idx odx sub).eng = { s.eng with idx := idx, odx := odx, sub := sub } := rfl
@[simp] theorem State.advance_ibuf (s : State) (idx odx : Nat) (sub : SubPhase) : (s.advance idx odx sub).ibuf = s.ibuf := rfl
@[simp] theorem State.advance_obuf (s : State) (idx odx : Nat) (sub : SubPhase) : (s.advance idx odx sub).obuf = s.obuf := rfl
@[simp] theorem State.advance_epoch (s : State) (idx odx : Nat) (sub : SubPhase) : (s.advance idx odx sub).epoch = s.epoch := rfl
@[simp] theorem State.advance_draws (s : State) (idx odx : Nat) (sub : SubPhase) : (s.advance idx odx sub).draws = s.draws := rfl
@[simp] theorem State.advance_script (s : State) (idx odx : Nat) (sub : SubPhase) : (s.advance idx odx sub).script = s.script := rfl
@[simp] theorem State.advance_reads (s : State) (idx odx : Nat) (sub : SubPhase) : (s.advance idx odx sub).reads = s.reads := rfl

/-! ### FINISH (41_engine.md R112) -/
@[simp] theorem finishStep_params (s : State) : (finishStep s).params = s.params := rfl
@[simp] theorem finishStep_srcLen (s : State) : (finishStep s).srcLen = s.srcLen := rfl
@[simp] theorem finishStep_status (s : State) : (finishStep s).status = { s.status with state := .done } := rfl
@[simp] theorem finishStep_dstLen (s : State) : (finishStep s).dstLen = BitVec.ofNat 32 s.eng.odx := rfl
@[simp] theorem finishStep_errOffset (s : State) : (finishStep s).errOffset = s.errOffset := rfl
@[simp] theorem finishStep_errByte (s : State) : (finishStep s).errByte = s.errByte := rfl
@[simp] theorem finishStep_eng (s : State) : (finishStep s).eng = s.eng := rfl
@[simp] theorem finishStep_ibuf (s : State) : (finishStep s).ibuf = s.ibuf := rfl
@[simp] theorem finishStep_obuf (s : State) : (finishStep s).obuf = s.obuf := rfl
@[simp] theorem finishStep_epoch (s : State) : (finishStep s).epoch = s.epoch := rfl
@[simp] theorem finishStep_draws (s : State) : (finishStep s).draws = s.draws := rfl
@[simp] theorem finishStep_script (s : State) : (finishStep s).script = s.script := rfl
@[simp] theorem finishStep_reads (s : State) : (finishStep s).reads = s.reads := rfl

/-! ### A returned read -/
@[simp] theorem State.returned_params (s : State) (r : ReadBack) : (s.returned r).params = s.params := rfl
@[simp] theorem State.returned_srcLen (s : State) (r : ReadBack) : (s.returned r).srcLen = s.srcLen := rfl
@[simp] theorem State.returned_status (s : State) (r : ReadBack) : (s.returned r).status = s.status := rfl
@[simp] theorem State.returned_dstLen (s : State) (r : ReadBack) : (s.returned r).dstLen = s.dstLen := rfl
@[simp] theorem State.returned_errOffset (s : State) (r : ReadBack) : (s.returned r).errOffset = s.errOffset := rfl
@[simp] theorem State.returned_errByte (s : State) (r : ReadBack) : (s.returned r).errByte = s.errByte := rfl
@[simp] theorem State.returned_eng (s : State) (r : ReadBack) : (s.returned r).eng = s.eng := rfl
@[simp] theorem State.returned_ibuf (s : State) (r : ReadBack) : (s.returned r).ibuf = s.ibuf := rfl
@[simp] theorem State.returned_obuf (s : State) (r : ReadBack) : (s.returned r).obuf = s.obuf := rfl
@[simp] theorem State.returned_epoch (s : State) (r : ReadBack) : (s.returned r).epoch = s.epoch := rfl
@[simp] theorem State.returned_draws (s : State) (r : ReadBack) : (s.returned r).draws = s.draws := rfl
@[simp] theorem State.returned_script (s : State) (r : ReadBack) : (s.returned r).script = s.script := rfl
@[simp] theorem State.returned_reads (s : State) (r : ReadBack) : (s.returned r).reads = r :: s.reads := rfl

/-! ### The reset event (70_reset_and_hazards.md R215) -/
@[simp] theorem resetEvent_params (s : State) : (resetEvent s).params = s.params := rfl
@[simp] theorem resetEvent_srcLen (s : State) : (resetEvent s).srcLen = 0 := rfl
@[simp] theorem resetEvent_status (s : State) : (resetEvent s).status = Status.reset := rfl
@[simp] theorem resetEvent_dstLen (s : State) : (resetEvent s).dstLen = 0 := rfl
@[simp] theorem resetEvent_errOffset (s : State) : (resetEvent s).errOffset = 0 := rfl
@[simp] theorem resetEvent_errByte (s : State) : (resetEvent s).errByte = 0 := rfl
@[simp] theorem resetEvent_eng (s : State) : (resetEvent s).eng = Engine.reset := rfl
@[simp] theorem resetEvent_ibuf (s : State) : (resetEvent s).ibuf = [] := rfl
@[simp] theorem resetEvent_obuf (s : State) : (resetEvent s).obuf = [] := rfl
@[simp] theorem resetEvent_epoch (s : State) : (resetEvent s).epoch = s.epoch + 1 := rfl
@[simp] theorem resetEvent_draws (s : State) : (resetEvent s).draws = s.draws := rfl
@[simp] theorem resetEvent_script (s : State) : (resetEvent s).script = s.script := rfl
@[simp] theorem resetEvent_reads (s : State) : (resetEvent s).reads = s.reads := rfl

/-! ### Taking an exception (60_exceptions.md R198 to R201) -/
@[simp] theorem raise_params (e : Exception) (s : State) : (raise e s).params = s.params := by cases e <;> rfl
@[simp] theorem raise_srcLen (e : Exception) (s : State) : (raise e s).srcLen = s.srcLen := by cases e <;> rfl
@[simp] theorem raise_dstLen (e : Exception) (s : State) : (raise e s).dstLen = s.dstLen := by cases e <;> rfl
@[simp] theorem raise_eng (e : Exception) (s : State) : (raise e s).eng = s.eng := by cases e <;> rfl
@[simp] theorem raise_ibuf (e : Exception) (s : State) : (raise e s).ibuf = s.ibuf := by cases e <;> rfl
@[simp] theorem raise_obuf (e : Exception) (s : State) : (raise e s).obuf = s.obuf := by cases e <;> rfl
@[simp] theorem raise_epoch (e : Exception) (s : State) : (raise e s).epoch = s.epoch := by cases e <;> rfl
@[simp] theorem raise_draws (e : Exception) (s : State) : (raise e s).draws = s.draws := by cases e <;> rfl
@[simp] theorem raise_script (e : Exception) (s : State) : (raise e s).script = s.script := by cases e <;> rfl
@[simp] theorem raise_reads (e : Exception) (s : State) : (raise e s).reads = s.reads := by cases e <;> rfl
@[simp] theorem raise_lengthError_status (s : State) :
    (raise .lengthError s).status = { s.status with state := .error, errKind := .length } := rfl
@[simp] theorem raise_codecError_status (s : State) (o : Nat) (b : Byte) :
    (raise (.codecError o b) s).status = { s.status with state := .error, errKind := .codec } := rfl
@[simp] theorem raise_fatal_status (s : State) : (raise .fatal s).status = { s.status with state := .fatal } := rfl
@[simp] theorem raise_lengthError_errOffset (s : State) : (raise .lengthError s).errOffset = s.errOffset := rfl
@[simp] theorem raise_lengthError_errByte (s : State) : (raise .lengthError s).errByte = s.errByte := rfl
@[simp] theorem raise_fatal_errOffset (s : State) : (raise .fatal s).errOffset = s.errOffset := rfl
@[simp] theorem raise_fatal_errByte (s : State) : (raise .fatal s).errByte = s.errByte := rfl
@[simp] theorem raise_codecError_errOffset (s : State) (o : Nat) (b : Byte) :
    (raise (.codecError o b) s).errOffset = BitVec.ofNat 32 o := rfl
@[simp] theorem raise_codecError_errByte (s : State) (o : Nat) (b : Byte) :
    (raise (.codecError o b) s).errByte = b.setWidth 32 := rfl

/-! ### What an IBUF byte depends on -/

theorem State.ibufByte_congr {s t : State} (hi : t.ibuf = s.ibuf) (he : t.epoch = s.epoch) (o : Nat) :
    t.ibufByte o = s.ibufByte o := by simp [State.ibufByte, hi, he]

theorem State.ibufBytes_congr {s t : State} (hi : t.ibuf = s.ibuf) (he : t.epoch = s.epoch) (o n : Nat) :
    t.ibufBytes o n = s.ibufBytes o n := by
  simp [State.ibufBytes, State.ibufByte_congr hi he]

@[simp] theorem State.length_ibufBytes (s : State) (o n : Nat) : (s.ibufBytes o n).length = n := by
  simp [State.ibufBytes]

theorem State.getElem?_ibufBytes (s : State) (o n i : Nat) :
    (s.ibufBytes o n)[i]? = if i < n then some (s.ibufByte (o + i)) else none := by
  by_cases h : i < n <;> simp [State.ibufBytes, h]

theorem State.ibufBytes_add (s : State) (o n k : Nat) :
    s.ibufBytes o (n + k) = s.ibufBytes o n ++ s.ibufBytes (o + n) k := by
  apply List.ext_getElem?
  intro i
  rw [List.getElem?_append]
  simp only [State.getElem?_ibufBytes, State.length_ibufBytes]
  by_cases h1 : i < n
  · simp [h1, Nat.lt_of_lt_of_le h1 (Nat.le_add_right n k)]
  · have : o + n + (i - n) = o + i := by omega
    have h2 : (i < n + k) = (i - n < k) := by simp; omega
    simp [h1, this, h2]

theorem State.take_ibufBytes (s : State) (o n k : Nat) (h : k ≤ n) :
    (s.ibufBytes o n).take k = s.ibufBytes o k := by
  obtain ⟨d, rfl⟩ := Nat.exists_eq_add_of_le h
  rw [State.ibufBytes_add]
  simp

theorem State.drop_ibufBytes (s : State) (o n k : Nat) (h : k ≤ n) :
    (s.ibufBytes o n).drop k = s.ibufBytes (o + k) (n - k) := by
  obtain ⟨d, rfl⟩ := Nat.exists_eq_add_of_le h
  rw [State.ibufBytes_add]
  simp

/-! ### The engine's loads and stores -/

theorem memRead_eq {s : State} {o n : Nat} (h : o + n ≤ s.eng.n) :
    memRead s o n = .ok (s.ibufBytes o n) := by simp [memRead, h]

theorem memRead_ok {s : State} {o n : Nat} {c : List Byte} (h : memRead s o n = .ok c) :
    o + n ≤ s.eng.n ∧ c = s.ibufBytes o n := by
  unfold memRead at h
  split at h
  · exact ⟨‹_›, by simpa using h.symm⟩
  · cases h

theorem memWrite_eq {s : State} {o : Nat} {v : List Byte} (h : o + v.length ≤ s.eng.olen) :
    memWrite s o v = .ok { s with obuf := s.obuf.writeBytes o v } := by simp [memWrite, h]

theorem memWrite_ok {s t : State} {o : Nat} {v : List Byte} (h : memWrite s o v = .ok t) :
    o + v.length ≤ s.eng.olen ∧ t = { s with obuf := s.obuf.writeBytes o v } := by
  unfold memWrite at h
  split at h
  · exact ⟨‹_›, by simpa using h.symm⟩
  · cases h

end Sys2Proof.Machine
end

