-- ==== Sys2Proof/Laws/Lane.lean ====
section
/-! SUPPORT. Laws of the lane primitives: what the loads and stores of a step do, and what the lane
realisations of the transforms and of the validations compute. -/

namespace Sys2Proof.Machine

/-! ### Loads and stores (40_lane_vector.md R86 to R89, R101) -/

theorem loadLane_eq {s : State} {o n : Nat} (hn : n ≤ s.params.L) (ho : o + n ≤ s.eng.n) :
    loadLane s o n = .ok (s.ibufBytes o n ++ List.replicate (s.params.L - n) 0) := by
  unfold loadLane
  split
  · next h => subst h; simp [loadFull, memRead_eq ho]
  · simp [loadMask, hn, memRead_eq ho]

theorem loadWindow_eq {s : State} {o n : Nat} (pre post : Nat) (ho : o + n ≤ s.eng.n) :
    loadWindow s o n pre post = .ok (s.ibufBytes o n) := by
  unfold loadWindow
  rw [if_pos ho]
  have hlen : o - pre + (min s.eng.n (o + n + post) - (o - pre)) ≤ s.eng.n := by omega
  simp only [memRead_eq hlen]
  rw [State.drop_ibufBytes _ _ _ _ (by omega), State.take_ibufBytes _ _ _ _ (by omega)]
  have : o - pre + (o - (o - pre)) = o := by omega
  rw [this]

theorem storeLane_eq {s : State} {o n : Nat} {v : Lane} (hv : v.length = s.params.L)
    (hn : n ≤ s.params.L) : storeLane s o v n = memWrite s o (v.take n) := by
  unfold storeLane
  split
  · next h => rw [storeFull, if_pos hv, h, List.take_of_length_le (by omega)]
  · simp [storeMask, hv, hn]

theorem storeLanes_eq {s : State} {o n : Nat} {v w : Lane} (hv : v.length = s.params.L)
    (hw : w.length = s.params.L) (hn : n ≤ 2 * s.params.L) (ho : o + n ≤ s.eng.olen) :
    storeLanes s o v w n = memWrite s o ((v ++ w).take n) := by
  unfold storeLanes
  split
  · next h =>
    rw [storeLane_eq hv h, List.take_append_of_le_length (by omega)]
  · next h =>
    have h1 : ((v ++ w).take n).length = n := by simp; omega
    have h2 : (v ++ w).take n = v ++ w.take (n - s.params.L) := by
      rw [List.take_append, List.take_of_length_le (by omega), hv]
    have h3 : (w.take (n - s.params.L)).length = n - s.params.L := by simp; omega
    simp only [storeFull, hv, if_true]
    rw [memWrite_eq (by omega), memWrite_eq (by omega), h2, Memory.writeBytes_append, hv]
    dsimp only
    rw [storeLane_eq (by exact hw) (by show _ ≤ s.params.L; omega), memWrite_eq (by rw [h3]; show _ ≤ s.eng.olen; omega)]

theorem loadLanes_eq {s : State} {o n : Nat} (hn : n ≤ 2 * s.params.L) (ho : o + n ≤ s.eng.n) :
    ∃ v w : Lane, loadLanes s o n = .ok (v, w) ∧ v.length = s.params.L ∧ w.length = s.params.L ∧
      v ++ w = s.ibufBytes o n ++ List.replicate (2 * s.params.L - n) 0 := by
  unfold loadLanes
  split
  · next h =>
    refine ⟨_, _, by rw [loadLane_eq h ho], by simp; omega, by simp [broadcast], ?_⟩
    rw [List.append_assoc, broadcast, List.replicate_append_replicate]
    congr 2
    omega
  · next h =>
    have hfull : loadFull s o = .ok (s.ibufBytes o s.params.L) := memRead_eq (by omega)
    rw [hfull]
    dsimp only
    rw [loadLane_eq (by omega) (by omega)]
    refine ⟨_, _, rfl, by simp, by simp; omega, ?_⟩
    rw [← List.append_assoc, ← State.ibufBytes_add]
    have h1 : s.params.L + (n - s.params.L) = n := by omega
    have h2 : s.params.L - (n - s.params.L) = 2 * s.params.L - n := by omega
    rw [h1, h2]

theorem length_laneOf (L : Nat) (out : List Byte) (h : out.length ≤ L) : (laneOf L out).length = L := by
  simp [laneOf]; omega

theorem take_laneOf (L : Nat) (out : List Byte) : (laneOf L out).take out.length = out := by
  simp [laneOf]

/-! ### First failing position (40_lane_vector.md R99) -/

theorem range_find?_eq_findIdx? (m : List Bool) (n : Nat) (hn : n ≤ m.length) :
    (List.range n).find? (fun p => m.getD p false) = (m.take n).findIdx? id := by
  apply Option.ext
  intro p
  simp only [List.find?_range_eq_some]
  rw [List.findIdx?_eq_some_iff_getElem]
  constructor
  · rintro ⟨h1, h2, h3⟩
    simp only [List.mem_range] at h2
    refine ⟨by simp; omega, ?_, ?_⟩
    · simpa [List.getD_eq_getElem?_getD, List.getElem?_eq_getElem (show p < m.length by omega)] using h1
    · intro j hj
      have := h3 j hj
      simpa [List.getD_eq_getElem?_getD, List.getElem?_eq_getElem (show j < m.length by omega)] using this
  · rintro ⟨h1, h2, h3⟩
    simp at h1
    refine ⟨?_, by simp; omega, ?_⟩
    · simpa [List.getD_eq_getElem?_getD, List.getElem?_eq_getElem (show p < m.length by omega)] using h2
    · intro j hj
      have := h3 j hj
      simpa [List.getD_eq_getElem?_getD, List.getElem?_eq_getElem (show j < m.length by omega)] using this

theorem firstFail_map (bad : Byte → Bool) (v : Lane) (n : Nat) (hn : n ≤ v.length) :
    firstFail (v.map bad) n = (v.take n).findIdx? bad := by
  rw [firstFail, range_find?_eq_findIdx? _ _ (by simpa using hn), ← List.map_take, List.findIdx?_map]
  rfl

theorem getElem?_evens (s : List Byte) (i : Nat) : (evens s)[i]? = s[2 * i]? := by
  induction s using evens.induct generalizing i with
  | case1 a b s ih =>
    cases i with
    | zero => rfl
    | succ i => simp [evens, ih, show 2 * (i + 1) = 2 * i + 1 + 1 by omega]
  | case2 a =>
    cases i with
    | zero => rfl
    | succ i => simp [evens, show 2 * (i + 1) = 2 * i + 1 + 1 by omega]
  | case3 => simp [evens]

theorem getElem?_odds (s : List Byte) (i : Nat) : (odds s)[i]? = s[2 * i + 1]? := by
  induction s using odds.induct generalizing i with
  | case1 a b s ih =>
    cases i with
    | zero => rfl
    | succ i => simp [odds, ih, show 2 * (i + 1) = 2 * i + 1 + 1 by omega]
  | case2 a => simp [odds]
  | case3 => simp [odds]

/-- The deinterleaved validation reports the least failing position of the interleaved chunk. -/
theorem firstFail2_deinterleave (bad : Byte → Bool) (s : List Byte) (n : Nat) (hn : n ≤ s.length) :
    firstFail2 ((evens s).map bad) ((odds s).map bad) n = (s.take n).findIdx? bad := by
  have hfun : (fun q => if q % 2 = 0 then ((evens s).map bad).getD (q / 2) false
      else ((odds s).map bad).getD (q / 2) false) = fun q => (s.map bad).getD q false := by
    funext q
    simp only [List.getD_eq_getElem?_getD, List.getElem?_map, getElem?_evens, getElem?_odds]
    split
    · next h => rw [show 2 * (q / 2) = q by omega]
    · next h => rw [show 2 * (q / 2) + 1 = q by omega]
  rw [firstFail2, hfun, range_find?_eq_findIdx? _ _ (by simpa using hn), ← List.map_take,
    List.findIdx?_map]
  rfl

/-! ### Table lookup (40_lane_vector.md R95) -/

theorem getElem?_replicate_flatten {α : Type} (t : List α) (m j k : Nat) (hj : j < m)
    (hk : k < t.length) : (List.replicate m t).flatten[t.length * j + k]? = t[k]? := by
  induction m generalizing j with
  | zero => omega
  | succ m ih =>
    rw [List.replicate_succ, List.flatten_cons]
    cases j with
    | zero => rw [List.getElem?_append_left (by omega)]; simp
    | succ j =>
      rw [Nat.mul_succ, List.getElem?_append_right (by omega), ← ih j (by omega)]
      congr 1
      omega

/-- One 16-entry table repeated in every group looks up every index in that table. -/
theorem lookup16_repeated (t idx : Lane) (ht : t.length = 16) (h16 : idx.length % 16 = 0)
    (h7 : ∀ x ∈ idx, x.getLsbD 7 = false) :
    lookup16 (List.replicate (idx.length / 16) t).flatten idx =
      some (idx.map (fun x => t.getD (x &&& 0x0F).toNat 0)) := by
  have hlen : (List.replicate (idx.length / 16) t).flatten.length = idx.length := by
    simp [ht]; omega
  rw [lookup16, if_pos ⟨hlen, by rw [hlen]; exact h16, by simpa using h7⟩]
  congr 1
  apply List.ext_getElem (by simp)
  intro i h1 h2
  simp only [List.length_mapIdx] at h1
  simp only [List.getElem_mapIdx, List.getElem_map, List.getD_eq_getElem?_getD]
  have hk : (idx[i] &&& 0x0F).toNat < t.length := by
    rw [ht, BitVec.toNat_and]
    exact Nat.lt_of_le_of_lt Nat.and_le_right (by decide)
  rw [← getElem?_replicate_flatten t (idx.length / 16) (i / 16) _ (by omega) hk, ht]

theorem zipWith_broadcast {α β : Type} (f : α → Byte → β) (v : List α) (c : Byte) :
    List.zipWith f v (broadcast v.length c) = v.map (fun x => f x c) := by
  unfold broadcast
  induction v with
  | nil => rfl
  | cons a v ih => simp [List.replicate_succ, ih]

/-- The informative lane realisation of `SYM` computes `SYM` (42_base64.md R148). -/
theorem symLane_eq (v : Lane) (h16 : v.length % 16 = 0) (h64 : ∀ x ∈ v, x.toNat < 64) :
    symLane v = some (v.map (fun x => sym (x.setWidth 6))) := by
  let f : Byte → Byte := fun x =>
    (if (51 : Byte).toNat ≤ x.toNat then x - 51 else 0) |||
      ((if decide (x.toNat < (26 : Byte).toNat) then 0xFF else 0x00) &&& 13)
  have hidx : orLane (subsLane v (broadcast v.length 51))
      (andLane (maskLane (cmpLtu v (broadcast v.length 26))) (broadcast v.length 13)) = v.map f := by
    have hl : (maskLane (cmpLtu v (broadcast v.length 26))).length = v.length := by
      simp [maskLane, cmpLtu, broadcast]
    have h13 := zipWith_broadcast (fun x y : Byte => x &&& y) (maskLane (cmpLtu v (broadcast v.length 26))) 13
    rw [hl] at h13
    simp only [orLane, subsLane, andLane, zipWith_broadcast, h13]
    simp only [maskLane, cmpLtu, zipWith_broadcast, List.map_map, List.zipWith_map, List.zipWith_self]
    rfl
  have hbit : ∀ x : Byte, x.toNat < 64 → (f x).getLsbD 7 = false := by decide
  have hval : ∀ x : Byte, x.toNat < 64 →
      x + ([71, 252, 252, 252, 252, 252, 252, 252, 252, 252, 252, 237, 240, 65, 0, 0] : Lane).getD
        (f x &&& 0x0F).toNat 0 = sym (x.setWidth 6) := by decide
  have hlook := lookup16_repeated [71, 252, 252, 252, 252, 252, 252, 252, 252, 252, 252, 237, 240, 65, 0, 0]
    (v.map f) rfl (by simpa using h16) (by simpa using fun x hx => hbit x (h64 x hx))
  rw [List.length_map] at hlook
  simp only [symLane, hidx, hlook, addLane, List.map_map, List.zipWith_map_right, List.zipWith_self]
  congr 1
  exact List.map_congr_left (fun x hx => hval x (h64 x hx))

/-! ### The Hex datapath (43_hex.md R172, R174, R175) -/

theorem lookup16_hexTable (idx : Lane) (h16 : idx.length % 16 = 0) (hx : ∀ x ∈ idx, x.toNat < 16) :
    lookup16 (hexTable idx.length) idx = some (idx.map (fun x => hexDigit (x.setWidth 4))) := by
  have hbit : ∀ x : Byte, x.toNat < 16 → x.getLsbD 7 = false := by decide
  have hval : ∀ x : Byte, x.toNat < 16 →
      hexTable16.getD (x &&& 0x0F).toNat 0 = hexDigit (x.setWidth 4) := by decide
  rw [hexTable, lookup16_repeated hexTable16 idx rfl h16 (fun x h => hbit x (hx x h))]
  congr 1
  exact List.map_congr_left (fun x h => hval x (hx x h))

theorem riffle_map (f g : Byte → Byte) (v : Lane) :
    riffle (v.map f) (v.map g) = v.flatMap (fun x => [f x, g x]) := by
  induction v with
  | nil => rfl
  | cons a v ih => simp [riffle, ih]

theorem hexencX_eq_flatMap (v : List Byte) :
    hexencX v = v.flatMap (fun b : Byte => [hexDigit ((b >>> 4).setWidth 4), hexDigit ((b &&& 0x0F).setWidth 4)]) := by
  induction v with
  | nil => rfl
  | cons a v ih => simp [hexencX, ih]

/-- The two digit lanes of a lane are the two halves of its hex encoding. -/
theorem hexencLanes_eq (v : Lane) (h16 : v.length % 16 = 0) :
    hexencLanes v = some ((hexencX v).take v.length, (hexencX v).drop v.length) := by
  have hhi : ∀ x : Byte, (x >>> 4).toNat < 16 := by decide
  have hlo : ∀ x : Byte, (x &&& 0x0F).toNat < 16 := by decide
  have h1 := lookup16_hexTable (v.map (fun x : Byte => x >>> 4)) (by simpa using h16)
    (by simpa using fun x _ => hhi x)
  have h2 := lookup16_hexTable (v.map (fun x : Byte => x &&& 0x0F)) (by simpa using h16)
    (by simpa using fun x _ => hlo x)
  rw [List.length_map] at h1 h2
  simp only [hexencLanes, shr, show (4 : Nat) ≤ 7 by decide, if_true, andLane, zipWith_broadcast, h1, h2,
    List.map_map, interleave, riffle_map, List.length_map, hexencX_eq_flatMap]
  rfl

/-- The byte lane of the deinterleaved value lanes is the hex decoding of the interleaved characters. -/
theorem hexdecLane_eq (s : List Byte) : s.length % 2 = 0 → hexdecLane (evens s) (odds s) = some (hexdecX s) := by
  induction s using hexdecX.induct with
  | case1 a b s ih =>
    intro h
    have := ih (by simp only [List.length_cons] at h; omega)
    simp only [hexdecLane, shl, show (4 : Nat) ≤ 7 by decide, if_true, orLane, Option.some.injEq] at this ⊢
    simp only [evens, odds, hexdecX, List.map_cons, List.zipWith_cons_cons, this]
  | case2 a => intro h; simp at h
  | case3 => intro _; rfl

theorem take_hexdecX (s : List Byte) (n : Nat) (hn : n ≤ s.length) (h2 : n % 2 = 0) :
    (hexdecX s).take (n / 2) = hexdecX (s.take n) := by
  conv_lhs => rw [← List.take_append_drop n s]
  rw [hexdecX_append _ _ (by simp [hn, h2])]
  rw [List.take_append_of_le_length (by simp [hn]), List.take_of_length_le (by simp [hn])]

theorem take_hexencX (s : List Byte) (n : Nat) (hn : n ≤ s.length) :
    (hexencX s).take (2 * n) = hexencX (s.take n) := by
  conv_lhs => rw [← List.take_append_drop n s]
  rw [hexencX_append]
  rw [List.take_append_of_le_length (by simp [hn]), List.take_of_length_le (by simp [hn])]

end Sys2Proof.Machine
end

