-- ==== Sys2Proof/Laws/Engine.lean ====
section
/-! SUPPORT. Laws of the engine: what one chunk does in either path, and what each step does. -/

namespace Sys2Proof.Machine

/-! ### The transforms, over all commands -/

@[simp] theorem length_xform (i : Instr) (c : List Byte) : (xform i c).length = tailOut i c.length := by
  cases i <;> simp [xform, tailOut]

theorem xform_append (i : Instr) (c d : List Byte) (h : c.length % gIn i = 0) :
    xform i (c ++ d) = xform i c ++ xform i d := by
  cases i
  · exact b64encX_append c d h
  · exact b64decX_append c d h
  · exact hexencX_append c d
  · exact hexdecX_append c d h

@[simp] theorem xform_nil (i : Instr) : xform i [] = [] := by cases i <;> rfl

theorem failPos_append (i : Instr) (c d : List Byte) :
    failPos i (c ++ d) = (failPos i c).or ((failPos i d).map (· + c.length)) := by
  cases i
  · rfl
  · exact b64Fail_append c d
  · rfl
  · exact hexFail_append c d

theorem failPos_lt {i : Instr} {c : List Byte} {p : Nat} (h : failPos i c = some p) : p < c.length := by
  cases i
  · cases h
  · exact (b64Fail_eq_some.1 h).1
  · cases h
  · exact (hexFail_eq_some.1 h).1

theorem failPos_append_none {i : Instr} {c d : List Byte} (h : failPos i (c ++ d) = none) :
    failPos i c = none ∧ failPos i d = none := by
  rw [failPos_append] at h
  cases hc : failPos i c <;> simp_all

theorem failPos_append_some {i : Instr} {c d : List Byte} {e : Nat} (h : failPos i (c ++ d) = some e) :
    (e < c.length ∧ failPos i c = some e) ∨
      (c.length ≤ e ∧ failPos i c = none ∧ failPos i d = some (e - c.length)) := by
  rw [failPos_append] at h
  cases hc : failPos i c with
  | some p =>
    have hp : p = e := by simpa [hc] using h
    subst hp
    exact .inl ⟨failPos_lt hc, rfl⟩
  | none =>
    simp only [hc, Option.none_or, Option.map_eq_some_iff] at h
    obtain ⟨q, hq, rfl⟩ := h
    exact .inr ⟨by omega, rfl, by simpa using hq⟩

/-! ### The per-command constants (41_engine.md R106) -/

theorem gIn_pos (i : Instr) : 0 < gIn i := by cases i <;> decide

theorem supported_iff {p : Params} : p.supported = true ↔ p.L = 16 ∨ p.L = 32 ∨ p.L = 64 := by
  simp [Params.supported, or_assoc]

theorem groups_pos {p : Params} (h : p.supported = true) (sub : SubPhase) (i : Instr) :
    0 < groups p.L sub i := by
  unfold groups
  split
  · rcases supported_iff.1 h with h | h | h <;> rw [h] <;> cases i <;> decide
  · decide

theorem stepIn_pos {p : Params} (h : p.supported = true) (sub : SubPhase) (i : Instr) :
    0 < stepIn p.L sub i := Nat.mul_pos (gIn_pos i) (groups_pos h sub i)

theorem stepIn_mod (L : Nat) (sub : SubPhase) (i : Instr) : stepIn L sub i % gIn i = 0 :=
  Nat.mul_mod_right _ _

/-- Whole groups first: the output length of `k` groups and a rest (41_engine.md R106). -/
theorem tailOut_add (i : Instr) (k r : Nat) : tailOut i (gIn i * k + r) = gOut i * k + tailOut i r := by
  cases i <;> simp only [tailOut, gIn, gOut] <;> omega

theorem tailOut_stepIn (L : Nat) (sub : SubPhase) (i : Instr) (r : Nat) :
    tailOut i (stepIn L sub i + r) = stepOut L sub i + tailOut i r := tailOut_add i _ r

@[simp] theorem tailOut_zero (i : Instr) : tailOut i 0 = 0 := by cases i <;> rfl

/-! ### One chunk -/

/-- What a chunk of `n` bytes does in either path, by the byte formulas (41_engine.md R110, R111). -/
def chunkSpec (s : State) (n : Nat) : ChunkEnd :=
  let c := s.ibufBytes s.eng.idx n
  match failPos s.eng.opl c with
  | some p => .invalid p (c.getD p 0)
  | none => .stored { s with obuf := s.obuf.writeBytes s.eng.odx (xform s.eng.opl c) }

/-- The conditions under which a chunk of `n` bytes stays in bounds. -/
structure ChunkFits (s : State) (n : Nat) : Prop where
  read : s.eng.idx + n ≤ s.eng.n
  write : s.eng.odx + tailOut s.eng.opl n ≤ s.eng.olen
  even : s.eng.opl = .hexdec → n % 2 = 0

theorem invalidEnd_eq {p : Nat} {v : Lane} {i : Nat} (h : i < v.length) :
    invalidEnd p v i = .ok (.invalid p (v.getD i 0)) := by
  simp [invalidEnd, extract, laneValue, h]

theorem scalarChunk_eq {s : State} {n : Nat} (h : ChunkFits s n) :
    scalarChunk s n = .ok (chunkSpec s n) := by
  unfold scalarChunk chunkSpec
  rw [memRead_eq h.read]
  dsimp only
  cases hf : failPos s.eng.opl (s.ibufBytes s.eng.idx n) with
  | some p => exact invalidEnd_eq (failPos_lt hf)
  | none =>
    dsimp only
    rw [memWrite_eq (by simpa using h.write)]
    rfl

theorem b64encVector_eq {s : State} {full : Bool} {n : Nat} (ho : s.eng.opl = .b64enc)
    (hs : s.params.supported = true) (h : ChunkFits s n) (hn : n ≤ 3 * (s.params.L / 4)) :
    b64encVector s full n (tailOut .b64enc n) = .ok (chunkSpec s n) := by
  have hL := supported_iff.1 hs
  have hw := h.write
  rw [ho] at hw
  have hlen : (b64encX (s.ibufBytes s.eng.idx n)).length = tailOut .b64enc n := by simp [tailOut]
  have hm : tailOut .b64enc n ≤ s.params.L := by simp only [tailOut]; omega
  have hload : loadGroups s full n = .ok (s.ibufBytes s.eng.idx n) := by
    unfold loadGroups
    split
    · exact loadWindow_eq 0 0 h.read
    · simp [loadMask, show n ≤ s.params.L by omega, memRead_eq h.read]
  simp only [b64encVector, hload, chunkSpec, ho, failPos, xform]
  rw [storeLane_eq (length_laneOf _ _ (by omega)) hm, ← hlen, take_laneOf, memWrite_eq (by omega)]
  rfl

theorem b64decVector_eq {s : State} {n : Nat} (ho : s.eng.opl = .b64dec)
    (hs : s.params.supported = true) (h : ChunkFits s n) (hn : n ≤ s.params.L) :
    b64decVector s n (tailOut .b64dec n) = .ok (chunkSpec s n) := by
  have hL := supported_iff.1 hs
  have hw := h.write
  rw [ho] at hw
  have hlen : (b64decX (s.ibufBytes s.eng.idx n)).length = tailOut .b64dec n := by simp [tailOut]
  have hm : tailOut .b64dec n ≤ s.params.L := by simp only [tailOut]; omega
  have hff := firstFail_map bad64 (s.ibufBytes s.eng.idx n ++ List.replicate (s.params.L - n) 0) n (by simp)
  have htake : (s.ibufBytes s.eng.idx n ++ List.replicate (s.params.L - n) (0 : Byte)).take n =
      s.ibufBytes s.eng.idx n := by simp
  rw [htake] at hff
  simp only [b64decVector, loadLane_eq hn h.read, hff, htake, chunkSpec, ho, failPos, xform, b64Fail]
  cases hf : (s.ibufBytes s.eng.idx n).findIdx? bad64 with
  | some p =>
    have hp : p < n := by
      have := failPos_lt (i := .b64dec) (c := s.ibufBytes s.eng.idx n) hf
      simpa using this
    dsimp only
    rw [invalidEnd_eq (by simp; omega)]
    simp [List.getD_eq_getElem?_getD, List.getElem?_append, hp]
  | none =>
    dsimp only
    rw [storeLane_eq (length_laneOf _ _ (by omega)) hm, ← hlen, take_laneOf, memWrite_eq (by omega)]
    rfl

theorem hexencVector_eq {s : State} {n : Nat} (ho : s.eng.opl = .hexenc)
    (hs : s.params.supported = true) (h : ChunkFits s n) (hn : n ≤ s.params.L) :
    hexencVector s n (tailOut .hexenc n) = .ok (chunkSpec s n) := by
  have hL := supported_iff.1 hs
  have hw := h.write
  rw [ho] at hw
  simp only [tailOut] at hw
  have hv : (s.ibufBytes s.eng.idx n ++ List.replicate (s.params.L - n) (0 : Byte)).length = s.params.L := by
    simp; omega
  have htake : (s.ibufBytes s.eng.idx n ++ List.replicate (s.params.L - n) (0 : Byte)).take n =
      s.ibufBytes s.eng.idx n := by simp
  simp only [hexencVector, loadLane_eq hn h.read]
  rw [hexencLanes_eq _ (by omega)]
  simp only [laneValue, chunkSpec, ho, failPos, xform, tailOut]
  rw [storeLanes_eq (by simp; omega) (by simp; omega) (by omega) hw, List.take_append_drop,
    take_hexencX _ _ (by omega), htake, memWrite_eq (by simpa using hw)]
  rfl

theorem hexdecVector_eq {s : State} {n : Nat} (ho : s.eng.opl = .hexdec)
    (hs : s.params.supported = true) (h : ChunkFits s n) (hn : n ≤ 2 * s.params.L) :
    hexdecVector s n (tailOut .hexdec n) = .ok (chunkSpec s n) := by
  have hL := supported_iff.1 hs
  have hw := h.write
  have heven := h.even ho
  rw [ho] at hw
  simp only [tailOut] at hw
  obtain ⟨v, w, hload, hv, hwl, hvw⟩ := loadLanes_eq (o := s.eng.idx) hn h.read
  have hlen : (v ++ w).length = 2 * s.params.L := by simp; omega
  have htake : (v ++ w).take n = s.ibufBytes s.eng.idx n := by rw [hvw]; simp
  simp only [hexdecVector, hload, deinterleave, firstFail2_deinterleave badHex (v ++ w) n (by omega), htake,
    chunkSpec, ho, failPos, xform, hexFail]
  cases hf : (s.ibufBytes s.eng.idx n).findIdx? badHex with
  | some q =>
    have hq : q < n := by
      have := failPos_lt (i := .hexdec) (c := s.ibufBytes s.eng.idx n) hf
      simpa using this
    have hget : (v ++ w)[q]? = (s.ibufBytes s.eng.idx n)[q]? := by
      rw [← htake, List.getElem?_take_of_lt hq]
    have hside : (if q % 2 = 0 then evens (v ++ w) else odds (v ++ w))[q / 2]? = (v ++ w)[q]? := by
      split
      · rw [getElem?_evens, show 2 * (q / 2) = q by omega]
      · rw [getElem?_odds, show 2 * (q / 2) + 1 = q by omega]
    have hin : q / 2 < (if q % 2 = 0 then evens (v ++ w) else odds (v ++ w)).length := by
      by_contra hc
      rw [List.getElem?_eq_none (by omega)] at hside
      have := List.getElem?_eq_none_iff.1 hside.symm
      omega
    dsimp only
    rw [invalidEnd_eq hin]
    simp only [List.getD_eq_getElem?_getD, hside, hget]
  | none =>
    dsimp only
    rw [hexdecLane_eq _ (by omega)]
    simp only [laneValue, tailOut]
    rw [storeLane_eq (by simp; omega) (by omega), take_hexdecX _ _ (by omega) heven, htake,
      memWrite_eq (by simpa using hw)]
    rfl

/-- The vector path computes what the byte formulas say (41_engine.md R117). -/
theorem vectorChunk_eq {s : State} {full : Bool} {n : Nat} (hs : s.params.supported = true)
    (h : ChunkFits s n) (hn : n ≤ stepIn s.params.L .vector s.eng.opl) :
    vectorChunk s full n (tailOut s.eng.opl n) = .ok (chunkSpec s n) := by
  unfold vectorChunk
  cases ho : s.eng.opl <;> rw [ho] at hn <;>
    simp only [stepIn, gIn, groups, if_true, vectorGroups] at hn <;> dsimp only
  · exact b64encVector_eq ho hs h hn
  · exact b64decVector_eq ho hs h (by omega)
  · exact hexencVector_eq ho hs h (by omega)
  · exact hexdecVector_eq ho hs h hn

/-- What one chunk does, in the path in force. -/
theorem chunk_eq {s : State} {full : Bool} {n : Nat} (hs : s.params.supported = true)
    (h : ChunkFits s n) (hn : n ≤ s.stepIn) :
    chunk s full n (tailOut s.eng.opl n) = .ok (chunkSpec s n) := by
  unfold chunk
  split
  · next hv => exact vectorChunk_eq hs h (by simpa [State.stepIn, hv] using hn)
  · exact scalarChunk_eq h

/-! ### The transform steps (41_engine.md R110, R111) -/

/-- The state after the engine has carried out `e` of a chunk based at the current cursors. -/
def afterChunk (s : State) (e : ChunkEnd) (idx odx : Nat) (sub : SubPhase) : State :=
  match e with
  | .invalid p b => raise (.codecError (s.eng.idx + p) b) s
  | .stored t => t.advance idx odx sub

/-- The two transform sub-phases. -/
def State.transforming (s : State) : Prop := s.eng.sub = .scalar ∨ s.eng.sub = .vector

theorem engineStep_transforming {s : State} (hsub : s.transforming) :
    engineStep s = if s.eng.idx + s.stepIn ≤ s.eng.neff then fullStep s else tailStep s := by
  rcases hsub with h | h <;> simp [engineStep, h]

theorem tailOut_step_add (s : State) (r : Nat) :
    tailOut s.eng.opl (s.stepIn + r) = s.stepOut + tailOut s.eng.opl r := tailOut_stepIn _ _ _ r

theorem tailOut_step (s : State) : tailOut s.eng.opl s.stepIn = s.stepOut := by
  have := tailOut_step_add s 0
  rwa [Nat.add_zero, tailOut_zero, Nat.add_zero] at this

theorem engineStep_full {s : State} (hsub : s.transforming) (hs : s.params.supported = true)
    (h : ChunkFits s s.stepIn) (hle : s.eng.idx + s.stepIn ≤ s.eng.neff) :
    engineStep s = .ok (afterChunk s (chunkSpec s s.stepIn) (s.eng.idx + s.stepIn)
      (s.eng.odx + s.stepOut) s.eng.sub) := by
  rw [engineStep_transforming hsub, if_pos hle, fullStep, ← tailOut_step, chunk_eq hs h le_rfl]
  cases chunkSpec s s.stepIn <;> rfl

theorem engineStep_tail {s : State} (hsub : s.transforming) (hs : s.params.supported = true)
    (h : ChunkFits s (s.eng.neff - s.eng.idx)) (hlt : s.eng.neff < s.eng.idx + s.stepIn)
    (hpos : s.eng.neff - s.eng.idx ≠ 0) :
    engineStep s = .ok (afterChunk s (chunkSpec s (s.eng.neff - s.eng.idx)) s.eng.neff
      (s.eng.odx + tailOut s.eng.opl (s.eng.neff - s.eng.idx)) .finish) := by
  rw [engineStep_transforming hsub, if_neg (by omega), tailStep]
  rw [if_neg hpos, chunk_eq hs h (by omega)]
  cases chunkSpec s (s.eng.neff - s.eng.idx) <;> rfl

theorem engineStep_tail_zero {s : State} (hsub : s.transforming)
    (hlt : s.eng.neff < s.eng.idx + s.stepIn) (hzero : s.eng.neff - s.eng.idx = 0) :
    engineStep s = .ok (s.advance s.eng.neff s.eng.odx .finish) := by
  rw [engineStep_transforming hsub, if_neg (by omega), tailStep]
  rw [if_pos hzero, hzero, tailOut_zero, Nat.add_zero]

theorem engineStep_finish {s : State} (h : s.eng.sub = .finish) : engineStep s = .ok (finishStep s) := by
  simp [engineStep, h]

/-! ### ENTRY (41_engine.md R108) -/

theorem engineStep_entry {s : State} (h : s.eng.sub = .entry) : engineStep s = entryStep s := by
  simp [engineStep, h]

theorem entryStep_fatal {s : State} (h : s.params.supported = false) :
    entryStep s = .ok (raise .fatal s) := by simp [entryStep, h]

theorem entryStep_lengthError {s : State} (h : s.params.supported = true)
    (hl : lengthBad s.eng.opl s.eng.n = true) : entryStep s = .ok (raise .lengthError s) := by
  simp [entryStep, h, hl]

/-- The Padding Count that ENTRY finds (42_base64.md R151). -/
def entryPad (s : State) : BitVec 2 :=
  if s.eng.opl = .b64dec ∧ 4 ≤ s.eng.n then paddingCount (s.ibufBytes 0 s.eng.n) else 0

theorem detectPadding_eq (s : State) : detectPadding s = .ok (entryPad s) := by
  unfold detectPadding entryPad
  split
  · next h =>
    have h1 : (s.ibufBytes 0 s.eng.n)[s.eng.n - 1]? = some (s.ibufByte (s.eng.n - 1)) := by
      rw [State.getElem?_ibufBytes, if_pos (by omega), Nat.zero_add]
    have h2 : (s.ibufBytes 0 s.eng.n)[s.eng.n - 2]? = some (s.ibufByte (s.eng.n - 2)) := by
      rw [State.getElem?_ibufBytes, if_pos (by omega), Nat.zero_add]
    have hne : s.ibufBytes 0 s.eng.n ≠ [] := by
      intro hnil
      have := congrArg List.length hnil
      simp at this
      omega
    rw [memRead_eq (by omega), memRead_eq (by omega)]
    simp only [State.ibufBytes, List.range_one, List.map_cons, List.map_nil, Nat.add_zero,
      List.cons.injEq, and_true, paddingCount]
    simp only [State.ibufBytes] at h1 h2 hne
    simp only [List.length_map, List.length_range, h1, h2, hne, Option.some.injEq, ne_eq,
      not_false_eq_true, true_and]
    split <;> rename_i hc
    · split <;> rfl
    · rfl
  · rfl

theorem entryStep_entered {s : State} (h : s.params.supported = true)
    (hl : lengthBad s.eng.opl s.eng.n = false) : entryStep s = .ok (s.entered (entryPad s)) := by
  simp [entryStep, h, hl, detectPadding_eq]

theorem entryPad_le (s : State) : (entryPad s).toNat ≤ 2 := by
  unfold entryPad
  split
  · exact paddingCount_le _
  · decide

theorem entryPad_ne_zero {s : State} (h : entryPad s ≠ 0) : s.eng.opl = .b64dec ∧ 4 ≤ s.eng.n := by
  unfold entryPad at h
  split at h
  · assumption
  · exact absurd rfl h

/-! ### The engine's turn -/

theorem engineTurn_busy {s t : State} (hb : s.status.state = .busy) (h : engineStep s = .ok t) :
    engineTurn s = .next t := by simp [engineTurn, hb, h]

theorem engineTurn_resting {s : State} (hb : s.status.state ≠ .busy) : engineTurn s = .next s := by
  simp [engineTurn, hb]

theorem step_engine {s t : State} (hscript : s.script = []) (hb : s.status.state = .busy)
    (h : engineStep s = .ok t) : step s = .next t := by
  simp [step, transition, hscript, engineTurn_busy hb h]

theorem step_engine_fault {s : State} {f : Fault} (hscript : s.script = []) (hb : s.status.state = .busy)
    (h : engineStep s = .error f) : step s = .fault f := by
  simp [step, transition, hscript, engineTurn, hb, h]

theorem step_host {s : State} {a : HostAction} {rest : List HostAction} (h : s.script = a :: rest) :
    step s = hostAct a { s with script := rest } := by
  simp [step, transition, h]

end Sys2Proof.Machine
end

