-- ==== Sys2Proof/Laws/Run.lean ====
section
/-! SUPPORT. Runs of the engine with no host action pending: a command from its first transform step to
its end (41_engine.md R117, R118). -/

namespace Sys2Proof.Machine

theorem run_zero (s : State) : Host.Core.run core 0 s = .next s := rfl

theorem run_succ {s t : State} (k : Nat) (h : step s = .next t) :
    Host.Core.run core (k + 1) s = Host.Core.run core k t := by
  have h' : core.step s = .next t := h
  simp only [Host.Core.run, h']

/-- What the transform loop needs of a state to stay in bounds. -/
structure LoopOk (s : State) : Prop where
  busy : s.status.state = .busy
  script : s.script = []
  supported : s.params.supported = true
  sub : s.transforming
  idxLe : s.eng.idx ≤ s.eng.neff
  neffLe : s.eng.neff ≤ s.eng.n
  outFits : s.eng.odx + tailOut s.eng.opl (s.eng.neff - s.eng.idx) ≤ s.eng.olen
  even : s.eng.opl = .hexdec → (s.eng.neff - s.eng.idx) % 2 = 0

/-- The input bytes the loop has not consumed yet. -/
def State.rest (s : State) : List Byte := s.ibufBytes s.eng.idx (s.eng.neff - s.eng.idx)

/-- The state after one full step over valid bytes. -/
def State.afterFull (s : State) : State :=
  { s with
    obuf := s.obuf.writeBytes s.eng.odx (xform s.eng.opl (s.ibufBytes s.eng.idx s.stepIn))
    eng := { s.eng with idx := s.eng.idx + s.stepIn, odx := s.eng.odx + s.stepOut } }

theorem LoopOk.stepIn_pos {s : State} (h : LoopOk s) : 0 < s.stepIn :=
  Sys2Proof.Machine.stepIn_pos h.supported _ _

theorem stepIn_even (L : Nat) (sub : SubPhase) : stepIn L sub .hexdec % 2 = 0 := stepIn_mod L sub .hexdec

theorem LoopOk.fits_full {s : State} (h : LoopOk s) (hle : s.eng.idx + s.stepIn ≤ s.eng.neff) :
    ChunkFits s s.stepIn where
  read := by have := h.neffLe; omega
  write := by
    have h1 := h.outFits
    have h2 : s.eng.neff - s.eng.idx = s.stepIn + (s.eng.neff - s.eng.idx - s.stepIn) := by omega
    rw [h2, tailOut_step_add] at h1
    rw [tailOut_step]
    omega
  even := by
    intro ho
    rw [State.stepIn, ho]
    exact stepIn_even _ _

theorem LoopOk.fits_tail {s : State} (h : LoopOk s) : ChunkFits s (s.eng.neff - s.eng.idx) where
  read := by have := h.neffLe; have := h.idxLe; omega
  write := h.outFits
  even := h.even

theorem LoopOk.afterFull {s : State} (h : LoopOk s) (hle : s.eng.idx + s.stepIn ≤ s.eng.neff) :
    LoopOk s.afterFull where
  busy := h.busy
  script := h.script
  supported := h.supported
  sub := h.sub
  idxLe := hle
  neffLe := h.neffLe
  outFits := by
    have h1 := h.outFits
    have h2 : s.eng.neff - s.eng.idx = s.stepIn + (s.eng.neff - (s.eng.idx + s.stepIn)) := by omega
    rw [h2, tailOut_step_add] at h1
    show s.eng.odx + s.stepOut + tailOut s.eng.opl (s.eng.neff - (s.eng.idx + s.stepIn)) ≤ s.eng.olen
    omega
  even := by
    intro ho
    have h1 := h.even ho
    have h2 : s.stepIn % 2 = 0 := by
      have ho' : s.eng.opl = .hexdec := ho
      rw [State.stepIn, ho']
      exact stepIn_even _ _
    show (s.eng.neff - (s.eng.idx + s.stepIn)) % 2 = 0
    omega

theorem rest_eq_full {s : State} (hle : s.eng.idx + s.stepIn ≤ s.eng.neff) :
    s.rest = s.ibufBytes s.eng.idx s.stepIn ++ s.afterFull.rest := by
  have h2 : s.eng.neff - s.eng.idx = s.stepIn + (s.eng.neff - (s.eng.idx + s.stepIn)) := by omega
  rw [State.rest, h2, State.ibufBytes_add]
  rfl

theorem step_full_valid {s : State} (h : LoopOk s) (hle : s.eng.idx + s.stepIn ≤ s.eng.neff)
    (hv : failPos s.eng.opl (s.ibufBytes s.eng.idx s.stepIn) = none) : step s = .next s.afterFull := by
  apply step_engine h.script h.busy
  rw [engineStep_full h.sub h.supported (h.fits_full hle) hle]
  simp only [chunkSpec, hv, afterChunk]
  rfl

/-- The state at the end of a run of the loop over valid bytes: every output byte stored, FINISH done. -/
def State.finished (s : State) : State :=
  { s with
    obuf := s.obuf.writeBytes s.eng.odx (xform s.eng.opl s.rest)
    eng := { s.eng with
      idx := s.eng.neff
      odx := s.eng.odx + tailOut s.eng.opl (s.eng.neff - s.eng.idx)
      sub := .finish }
    dstLen := BitVec.ofNat 32 (s.eng.odx + tailOut s.eng.opl (s.eng.neff - s.eng.idx))
    status := { s.status with state := .done } }

theorem afterFull_finished {s : State} (hle : s.eng.idx + s.stepIn ≤ s.eng.neff) :
    s.afterFull.finished = s.finished := by
  have h2 : s.eng.neff - s.eng.idx = s.stepIn + (s.eng.neff - (s.eng.idx + s.stepIn)) := by omega
  have hlen : (xform s.eng.opl (s.ibufBytes s.eng.idx s.stepIn)).length = s.stepOut := by
    rw [length_xform, State.length_ibufBytes, tailOut_step]
  have hx : xform s.eng.opl s.rest = xform s.eng.opl (s.ibufBytes s.eng.idx s.stepIn) ++
      xform s.eng.opl s.afterFull.rest := by
    rw [rest_eq_full hle, xform_append]
    rw [State.length_ibufBytes]
    exact stepIn_mod _ _ _
  have hout : s.eng.odx + tailOut s.eng.opl (s.eng.neff - s.eng.idx) =
      s.eng.odx + s.stepOut + tailOut s.eng.opl (s.eng.neff - (s.eng.idx + s.stepIn)) := by
    rw [Nat.add_assoc, ← tailOut_step_add, ← h2]
  simp only [State.finished, hout, hx, Memory.writeBytes_append, hlen]
  rfl

/-- The loop over valid bytes takes its full steps, the tail and FINISH, and ends in DONE. -/
theorem run_loop_valid (j : Nat) (s : State) (h : LoopOk s) (hj : (s.eng.neff - s.eng.idx) / s.stepIn = j)
    (hv : failPos s.eng.opl s.rest = none) : Host.Core.run core (j + 2) s = .next s.finished := by
  induction j generalizing s with
  | zero =>
    have hlt : s.eng.neff < s.eng.idx + s.stepIn := by
      have := (Nat.div_eq_zero_iff).1 hj
      have := h.stepIn_pos
      have := h.idxLe
      omega
    have htail : ∃ t, step s = .next t ∧ t.script = [] ∧ t.status.state = .busy ∧ t.eng.sub = .finish ∧
        finishStep t = s.finished := by
      by_cases hz : s.eng.neff - s.eng.idx = 0
      · refine ⟨_, step_engine h.script h.busy (engineStep_tail_zero h.sub hlt hz), h.script, h.busy, rfl, ?_⟩
        simp only [State.finished, State.rest, hz, tailOut_zero, Nat.add_zero]
        simp only [State.ibufBytes, List.range_zero, List.map_nil, xform_nil, Memory.writeBytes]
        rfl
      · refine ⟨_, step_engine h.script h.busy (engineStep_tail h.sub h.supported h.fits_tail hlt hz), ?_⟩
        have hv' : failPos s.eng.opl (s.ibufBytes s.eng.idx (s.eng.neff - s.eng.idx)) = none := hv
        simp only [chunkSpec, hv', afterChunk]
        exact ⟨h.script, h.busy, rfl, rfl⟩
    obtain ⟨t, ht, hs, hb, hsub, hfin⟩ := htail
    rw [run_succ 1 ht, run_succ 0 (step_engine hs hb (engineStep_finish hsub)), hfin]
    rfl
  | succ j ih =>
    have hpos := h.stepIn_pos
    have hle : s.eng.idx + s.stepIn ≤ s.eng.neff := by
      by_contra hc
      rw [Nat.div_eq_of_lt (by omega)] at hj
      omega
    obtain ⟨hv1, hv2⟩ := failPos_append_none (rest_eq_full hle ▸ hv)
    rw [run_succ (j + 2) (step_full_valid h hle hv1), ← afterFull_finished hle]
    refine ih s.afterFull (h.afterFull hle) ?_ hv2
    show (s.eng.neff - (s.eng.idx + s.stepIn)) / s.stepIn = j
    rw [show s.eng.neff - s.eng.idx = (s.eng.neff - (s.eng.idx + s.stepIn)) + s.stepIn by omega,
      Nat.add_div_right _ hpos] at hj
    omega

/-- The state in which the loop stops at an invalid byte `e` bytes ahead: everything but OBUF and the
cursors is as before the loop, and the exception is taken (60_exceptions.md R199). -/
def State.failedAt (s : State) (m : Memory) (idx odx e : Nat) (b : Byte) : State :=
  raise (.codecError (s.eng.idx + e) b) { s with obuf := m, eng := { s.eng with idx := idx, odx := odx } }

/-- The loop stops at the first invalid byte, with its absolute offset and its value. -/
theorem run_loop_invalid (j : Nat) (s : State) (h : LoopOk s) (e : Nat) (hj : e / s.stepIn = j)
    (hv : failPos s.eng.opl s.rest = some e) :
    ∃ m idx odx, Host.Core.run core (j + 1) s =
      .next (s.failedAt m idx odx e (s.ibufByte (s.eng.idx + e))) := by
  induction j generalizing s e with
  | zero =>
    have hpos := h.stepIn_pos
    have he : e < s.stepIn := by
      have := (Nat.div_eq_zero_iff).1 hj
      omega
    have hlt := failPos_lt hv
    rw [State.rest, State.length_ibufBytes] at hlt
    have hbyte : ∀ n, e < n → (s.ibufBytes s.eng.idx n).getD e 0 = s.ibufByte (s.eng.idx + e) := by
      intro n hn
      rw [List.getD_eq_getElem?_getD, State.getElem?_ibufBytes, if_pos hn]
      rfl
    refine ⟨s.obuf, s.eng.idx, s.eng.odx, ?_⟩
    by_cases hle : s.eng.idx + s.stepIn ≤ s.eng.neff
    · have hv1 : failPos s.eng.opl (s.ibufBytes s.eng.idx s.stepIn) = some e := by
        rw [rest_eq_full hle] at hv
        rcases failPos_append_some hv with ⟨-, h1⟩ | ⟨h1, -⟩
        · exact h1
        · rw [State.length_ibufBytes] at h1; omega
      have hstep := step_engine h.script h.busy (engineStep_full h.sub h.supported (h.fits_full hle) hle)
      rw [run_succ 0 hstep, run_zero]
      simp only [chunkSpec, hv1, afterChunk, hbyte _ he]
      rfl
    · have hstep := step_engine h.script h.busy
        (engineStep_tail h.sub h.supported h.fits_tail (by omega) (by omega))
      have hv1 : failPos s.eng.opl (s.ibufBytes s.eng.idx (s.eng.neff - s.eng.idx)) = some e := hv
      rw [run_succ 0 hstep, run_zero]
      simp only [chunkSpec, hv1, afterChunk, hbyte _ hlt]
      rfl
  | succ j ih =>
    have hpos := h.stepIn_pos
    have he : s.stepIn ≤ e := by
      by_contra hc
      rw [Nat.div_eq_of_lt (by omega)] at hj
      omega
    have hlt := failPos_lt hv
    rw [State.rest, State.length_ibufBytes] at hlt
    have hle : s.eng.idx + s.stepIn ≤ s.eng.neff := by omega
    rw [rest_eq_full hle] at hv
    rcases failPos_append_some hv with ⟨h1, -⟩ | ⟨-, h1, h2⟩
    · rw [State.length_ibufBytes] at h1; omega
    · rw [State.length_ibufBytes] at h2
      have hj' : (e - s.stepIn) / s.afterFull.stepIn = j := by
        show (e - s.stepIn) / s.stepIn = j
        rw [show e = (e - s.stepIn) + s.stepIn by omega, Nat.add_div_right _ hpos] at hj
        omega
      obtain ⟨m, idx, odx, hrun⟩ := ih s.afterFull (h.afterFull hle) (e - s.stepIn) hj' h2
      refine ⟨m, idx, odx, ?_⟩
      rw [run_succ (j + 1) (step_full_valid h hle h1), hrun]
      have hadd : s.afterFull.eng.idx + (e - s.stepIn) = s.eng.idx + e := by
        show s.eng.idx + s.stepIn + (e - s.stepIn) = _
        omega
      simp only [State.failedAt, hadd]
      rfl

end Sys2Proof.Machine
end

