-- ==== Sys2Proof/Laws/Command.lean ====
section
/-! SUPPORT. From an accepted START to the transform loop, and what the end of a run delivers. -/

namespace Sys2Proof.Machine

theorem lengthBad_b64dec {n : Nat} (h : lengthBad .b64dec n = false) : n % 4 = 0 := by
  simpa [lengthBad] using h

theorem lengthBad_hexdec {n : Nat} (h : lengthBad .hexdec n = false) : n % 2 = 0 := by
  simpa [lengthBad] using h

/-- The output length of the whole body is the pre-computed `OLEN` (41_engine.md R112, 42_base64.md R155). -/
theorem tailOut_eq_outLen {i : Instr} {n : Nat} {p : BitVec 2} (hl : lengthBad i n = false)
    (hp : p.toNat ≤ 2) (honly : p ≠ 0 → i = .b64dec ∧ 4 ≤ n) :
    tailOut i (n - p.toNat) = outLen i n p := by
  by_cases h0 : p = 0
  · subst h0
    cases i <;> simp [tailOut, outLen]
    have := lengthBad_b64dec hl
    omega
  · obtain ⟨rfl, h4⟩ := honly h0
    have := lengthBad_b64dec hl
    simp only [tailOut, outLen]
    omega

/-- For an input that IBUF can hold, the output is no longer than OBUF but for one byte of `B64ENC` where `NMAX` is 1. -/
theorem outLen_le_iff {i : Instr} {n : Nat} {p : Params} {padc : BitVec 2} (hn : n ≤ p.nmax) :
    outLen i n padc ≤ p.obufCap ↔ outputFits p i n := by
  cases i <;> simp only [outLen, Params.obufCap, outputFits, reduceCtorEq, false_and, true_and,
    not_false_eq_true, iff_true] <;> omega

/-- The output for an input that IBUF can hold is at most the largest output. -/
theorem outLen_le_maxOutput {i : Instr} {n : Nat} {p : Params} {padc : BitVec 2} (hn : n ≤ p.nmax) :
    outLen i n padc ≤ maxOutput p := by
  cases i <;> simp only [outLen, maxOutput, Params.obufCap] <;> omega

theorem maxOutput_lt {p : Params} (h : p.wf = true) : maxOutput p < 2 ^ 32 := by
  simp [Params.wf] at h
  simp only [maxOutput, Params.obufCap]
  omega

theorem pathOf_transforming (p : Params) (n : Nat) : pathOf p n = .scalar ∨ pathOf p n = .vector := by
  unfold pathOf
  split
  · exact .inl rfl
  · exact .inr rfl

theorem loopOk_entered {s : State} (hb : s.status.state = .busy) (hscript : s.script = [])
    (hs : s.params.supported = true) (hl : lengthBad s.eng.opl s.eng.n = false) :
    LoopOk (s.entered (entryPad s)) where
  busy := hb
  script := hscript
  supported := hs
  sub := pathOf_transforming s.params s.eng.n
  idxLe := Nat.zero_le _
  neffLe := Nat.sub_le _ _
  outFits := by
    show 0 + tailOut s.eng.opl (s.eng.n - (entryPad s).toNat - 0) ≤ outLen s.eng.opl s.eng.n (entryPad s)
    rw [Nat.zero_add, Nat.sub_zero, tailOut_eq_outLen hl (entryPad_le s) entryPad_ne_zero]
  even := by
    intro ho
    have ho' : s.eng.opl = .hexdec := ho
    have hp : entryPad s = 0 := by simp [entryPad, ho']
    show (s.eng.n - (entryPad s).toNat - 0) % 2 = 0
    rw [hp]
    exact lengthBad_hexdec (ho' ▸ hl)

theorem entered_rest (s : State) (p : BitVec 2) :
    (s.entered p).rest = (s.ibufBytes 0 s.eng.n).take (s.eng.n - p.toNat) := by
  rw [State.take_ibufBytes _ _ _ _ (Nat.sub_le _ _)]
  rfl

theorem finalPad_eq {s : State} (hl : lengthBad s.eng.opl s.eng.n = false) :
    entryPad s = finalPad s.eng.opl (s.ibufBytes 0 s.eng.n) := by
  unfold entryPad finalPad
  rw [State.length_ibufBytes]
  by_cases ho : s.eng.opl = .b64dec
  · have h4 : s.eng.n % 4 = 0 := lengthBad_b64dec (ho ▸ hl)
    by_cases hn : 4 ≤ s.eng.n
    · simp [ho, hn, h4]
    · have hz : s.eng.n = 0 := by omega
      simp [ho, hz, State.ibufBytes, paddingCount]
  · simp [ho]

/-- A command of sound length, as the body it transforms and validates (42_base64.md R156, 43_hex.md R177). -/
theorem pureResult_eq (i : Instr) (b : List Byte) (hl : lengthBad i b.length = false) :
    pureResult i b =
      match failPos i (b.take (b.length - (finalPad i b).toNat)) with
      | some p => .codecError p (b.getD p 0)
      | none => .ok (xform i (b.take (b.length - (finalPad i b).toNat))) := by
  cases i
  · simp [pureResult, b64encPure, failPos, finalPad, xform]
  · have h4 := lengthBad_b64dec hl
    simp only [pureResult, b64decPure, h4, failPos, finalPad, xform, ne_eq, not_true_eq_false, if_false,
      and_self, if_true]
    all_goals rfl
  · simp [pureResult, hexencPure, failPos, finalPad, xform]
  · have h2 := lengthBad_hexdec hl
    simp only [pureResult, hexdecPure, h2, failPos, finalPad, xform, ne_eq, not_true_eq_false, if_false,
      reduceCtorEq, false_and, BitVec.ofNat_eq_ofNat, BitVec.toNat_ofNat, Nat.zero_mod, Nat.sub_zero,
      List.take_length]
    all_goals rfl

theorem pureResult_lengthError (i : Instr) (b : List Byte) (hl : lengthBad i b.length = true) :
    pureResult i b = .lengthError := by
  cases i
  · cases hl
  · have : b.length % 4 ≠ 0 := by simpa [lengthBad] using hl
    simp [pureResult, b64decPure, this]
  · cases hl
  · have : b.length % 2 ≠ 0 := by simpa [lengthBad] using hl
    simp [pureResult, hexdecPure, this]

theorem nmax_lt {p : Params} (h : p.wf = true) : 0 < p.nmax ∧ p.nmax < 2 ^ 31 := by
  simp [Params.wf] at h
  omega

theorem exec_accepted {s : State} (i : Instr) (h : s.acceptsStart) : exec i s = .next (s.started i) := by
  obtain ⟨hstate, hlen⟩ := h
  have : start i s = .next (s.started i) := by
    unfold start
    rcases hstate with h | h | h <;> simp [h, hlen]
  cases i <;> exact this

end Sys2Proof.Machine
end

