-- ==== Sys2Proof/Laws/Invariant.lean ====
section
/-! SUPPORT. The invariant of Safety.lean, one lemma per kind of transition. -/

namespace Sys2Proof.Machine

/-! ### Transitions that leave the block's registers and engine alone -/

/-- The invariant does not look at the model's own fields. -/
theorem Inv.congr {s t : State} (h : Inv s) (hp : t.params = s.params) (hst : t.status = s.status)
    (hd : t.dstLen = s.dstLen) (heo : t.errOffset = s.errOffset) (heb : t.errByte = s.errByte)
    (he : t.eng = s.eng) (hi : t.ibuf = s.ibuf) (ho : t.obuf = s.obuf) : Inv t := by
  obtain ⟨params, srcLen, status, dstLen, errOffset, errByte, eng, ibuf, obuf, epoch, draws, script, reads⟩ := t
  dsimp only at hp hst hd heo heb he hi ho
  subst hp hst hd heo heb he hi ho
  obtain ⟨h1, h2, h3, h4, h5⟩ := h
  refine ⟨h1, ⟨h2.1, h2.2, h2.3, h2.4, h2.5, h2.6⟩, ⟨h3.1, h3.2, h3.3, h3.4, h3.5, h3.6⟩,
    ⟨h4.1, h4.2, h4.3, h4.4⟩, fun hb => ?_⟩
  obtain ⟨g1, g2, g3, g4, g5⟩ := h5 hb
  refine ⟨g1, g2, g3, fun hs => ?_, fun hs => ?_⟩
  · obtain ⟨a, b⟩ := g4 hs
    exact ⟨⟨a.1, a.2, a.3, a.4, a.5, a.6, a.7, a.8, a.9⟩, ⟨b.1, b.2, b.3, b.4⟩⟩
  · obtain ⟨a, b⟩ := g5 hs
    exact ⟨⟨a.1, a.2, a.3, a.4, a.5, a.6, a.7, a.8, a.9⟩, b⟩

theorem Inv.withScript {s : State} (h : Inv s) (l : List HostAction) : Inv { s with script := l } :=
  h.congr rfl rfl rfl rfl rfl rfl rfl rfl

theorem Inv.withReads {s : State} (h : Inv s) (r : ReadBack) : Inv (s.returned r) :=
  h.congr rfl rfl rfl rfl rfl rfl rfl rfl

theorem Inv.withSrcLen {s : State} (h : Inv s) (v : Word) : Inv { s with srcLen := v } :=
  h.congr rfl rfl rfl rfl rfl rfl rfl rfl

theorem Inv.withDraws {s : State} (h : Inv s) (k : Nat) : Inv { s with draws := k } :=
  h.congr rfl rfl rfl rfl rfl rfl rfl rfl

theorem Inv.writeIbuf {s : State} (h : Inv s) {o : Nat} (b : Byte) (ho : o < s.params.nmax)
    (hb : s.status.state ≠ .busy) : Inv { s with ibuf := s.ibuf.write o b } where
  paramsWf := h.paramsWf
  status := ⟨h.status.1, h.status.2, h.status.3, h.status.4, h.status.5, h.status.6⟩
  results := ⟨h.results.1, h.results.2, h.results.3, h.results.4, h.results.5, h.results.6⟩
  buffers := by
    refine ⟨Memory.wf_write o b h.buffers.ibufWf, h.buffers.obufWf, fun c hc => ?_, h.buffers.obufInside⟩
    rcases Memory.mem_write hc with hc | hc
    · rw [hc]; exact ho
    · exact h.buffers.ibufInside c hc
  engine := fun hb' => absurd hb' hb

/-! ### Reset -/

theorem inv_resetOf {p : Params} (h : p.wf = true) : Inv (State.resetOf p) where
  paramsWf := h
  status := ⟨by simp [State.resetOf, Status.reset], by show (0 : BitVec 2).toNat ≤ 2; decide, fun h => absurd rfl h, fun _ => rfl,
    (fun h => by cases h), (fun h => by rcases h with h | h <;> cases h)⟩
  results := ⟨fun _ => rfl, Nat.zero_le _, fun _ => ⟨rfl, rfl⟩, by show (0 : Word).toNat < 256; decide, (fun h => by cases h), (fun h => by cases h)⟩
  buffers := ⟨List.Pairwise.nil, List.Pairwise.nil, (fun c h => by cases h), (fun c h => by cases h)⟩
  engine := (fun h => by cases h)

theorem Inv.reset {s : State} (h : Inv s) : Inv (resetEvent s) :=
  (inv_resetOf h.paramsWf).congr rfl rfl rfl rfl rfl rfl rfl rfl

/-! ### START -/

theorem Inv.started {s : State} (h : Inv s) (i : Instr) (hn : s.srcLen.toNat ≤ s.params.nmax) :
    Inv (s.started i) where
  paramsWf := h.paramsWf
  status := ⟨by simp [State.started, Status.started], by show (0 : BitVec 2).toNat ≤ 2; decide,
    fun h => absurd rfl h, (fun h => by cases h), (fun h => by cases h), (fun h => by rcases h with h | h <;> cases h)⟩
  results := ⟨fun _ => rfl, Nat.zero_le _, fun _ => ⟨rfl, rfl⟩, by show (0 : Word).toNat < 256; decide,
    (fun h => by cases h), (fun h => by cases h)⟩
  buffers := ⟨h.buffers.1, h.buffers.2, h.buffers.3, h.buffers.4⟩
  engine := fun _ => ⟨rfl, hn, fun _ => rfl, (fun h => by rcases h with h | h <;> cases h), (fun h => by cases h)⟩

/-! ### Exceptions -/

/-- Taking an exception keeps the invariant, when its cause is as the rules say (60_exceptions.md R198 to R200). -/
theorem Inv.raise {s : State} (h : Inv s) (hb : s.status.state = .busy) (e : Exception)
    (hfatal : e = .fatal → s.params.supported = false)
    (hother : e ≠ .fatal → s.params.supported = true)
    (hoff : ∀ o b, e = .codecError o b → o < s.params.nmax) : Inv (raise e s) := by
  have hd : s.dstLen = 0 := h.results.dstLenZero (by rw [hb]; decide)
  have hnone : s.status.errKind = .none := by
    by_contra hc
    have := h.status.errKindIff.1 hc
    rw [hb] at this
    cases this
  have hmax := nmax_lt h.paramsWf
  obtain ⟨h0, h0'⟩ := h.results.errZero (by rw [hnone]; decide)
  have hbuf : BuffersOk (Machine.raise e s) := by
    cases e <;> exact ⟨h.buffers.1, h.buffers.2, h.buffers.3, h.buffers.4⟩
  refine ⟨by rw [raise_params]; exact h.paramsWf, ?_, ?_, hbuf, ?_⟩
  · cases e with
    | lengthError =>
      exact ⟨by simp, h.status.padLe, h.status.padOnlyB64dec, (fun h => by cases h), (fun h => by cases h),
        fun _ => hother (by simp)⟩
    | codecError o b =>
      exact ⟨by simp, h.status.padLe, h.status.padOnlyB64dec, (fun h => by cases h), (fun h => by cases h),
        fun _ => hother (by simp)⟩
    | fatal =>
      exact ⟨by simp [hnone], h.status.padLe, h.status.padOnlyB64dec, (fun h => by cases h),
        fun _ => hfatal rfl, (fun h => by rcases h with h | h <;> cases h)⟩
  · have hfit : (Machine.raise e s).dstLen.toNat ≤ maxOutput (Machine.raise e s).params := by
      rw [raise_dstLen, hd]; exact Nat.zero_le _
    cases e with
    | lengthError =>
      exact ⟨fun _ => hd, hfit, fun _ => ⟨h0, h0'⟩, h.results.errByteIsByte, (fun h => by cases h), (fun h => by cases h)⟩
    | codecError o b =>
      have ho := hoff o b rfl
      refine ⟨fun _ => hd, hfit, fun h => absurd rfl h, ?_, fun _ => ?_, (fun h => by cases h)⟩
      · show (b.setWidth 32).toNat < 256
        simp only [BitVec.toNat_setWidth]
        have := b.isLt
        omega
      · show (BitVec.ofNat 32 o).toNat < s.params.nmax
        rw [BitVec.toNat_ofNat, Nat.mod_eq_of_lt (by omega)]
        exact ho
    | fatal =>
      refine ⟨fun _ => hd, hfit, fun _ => ⟨h0, h0'⟩, h.results.errByteIsByte, ?_, (fun h => by cases h)⟩
      intro hc
      have hc' : s.status.errKind = .codec := hc
      rw [hnone] at hc'
      cases hc'
  · intro hc
    cases e <;> cases hc

/-! ### ENTRY -/

theorem Inv.entered {s : State} (h : Inv s) (hb : s.status.state = .busy)
    (hs : s.params.supported = true) (hl : lengthBad s.eng.opl s.eng.n = false) :
    Inv (s.entered (entryPad s)) := by
  have he := h.engine hb
  have hd : s.dstLen = 0 := h.results.dstLenZero (by rw [hb]; decide)
  have hnone : s.status.errKind = .none := by
    by_contra hc
    have := h.status.errKindIff.1 hc
    rw [hb] at this
    cases this
  have hpath : (s.entered (entryPad s)).eng.sub = pathOf s.params s.eng.n := rfl
  refine ⟨h.paramsWf, ?_, ⟨fun _ => hd, h.results.2, h.results.3, h.results.4, h.results.5, h.results.6⟩,
    ⟨h.buffers.1, h.buffers.2, h.buffers.3, h.buffers.4⟩, fun _ => ?_⟩
  · refine ⟨h.status.errKindIff, entryPad_le s, fun hp => ?_, fun hc => ?_, fun hc => ?_, fun hc => ?_⟩
    · show s.status.op = _
      rw [he.oplEq]
      exact (entryPad_ne_zero hp).1
    · have hc' : s.status.state = .idle := hc
      rw [hb] at hc'
      cases hc'
    · have hc' : s.status.state = .fatal := hc
      rw [hb] at hc'
      cases hc'
    · exact hs
  · refine ⟨he.oplEq, he.nLe, fun hc => ?_, fun _ => ⟨?_, ?_⟩, fun hc => ?_⟩
    · rcases pathOf_transforming s.params s.eng.n with hp | hp <;> rw [hpath, hp] at hc <;> cases hc
    · exact ⟨hs, hl, rfl, entryPad_le s, entryPad_ne_zero, rfl, rfl, fun o ho => absurd ho (Nat.not_lt_zero o),
        (outLen_le_iff he.nLe).2⟩
    · exact ⟨hpath, Nat.zero_le _, Nat.zero_mod _, by show 0 = 0 / _ * _; simp⟩
    · rcases pathOf_transforming s.params s.eng.n with hp | hp <;> rw [hpath, hp] at hc <;> cases hc

/-! ### The transform steps -/

/-- What the invariant says of a transforming state. -/
theorem Inv.transforming {s : State} (h : Inv s) (hb : s.status.state = .busy) (hsub : s.transforming) :
    Sized s ∧ CursorsOk s := (h.engine hb).transform hsub

/-- The bytes already written and those still to come fill the output exactly (10_state.md R30). -/
theorem cursors_fill {s : State} (hz : Sized s) (hc : CursorsOk s) :
    s.eng.odx + tailOut s.eng.opl (s.eng.neff - s.eng.idx) = s.eng.olen := by
  have h1 : s.eng.idx = gIn s.eng.opl * (s.eng.idx / gIn s.eng.opl) := by
    have := Nat.div_add_mod s.eng.idx (gIn s.eng.opl)
    rw [hc.idxGroup] at this
    omega
  have h2 := tailOut_add s.eng.opl (s.eng.idx / gIn s.eng.opl) (s.eng.neff - s.eng.idx)
  rw [← h1, Nat.add_sub_cancel' hc.idxLe, hz.neffEq] at h2
  rw [tailOut_eq_outLen hz.lengthOk hz.padcLe hz.padcOnly] at h2
  rw [hz.olenEq, h2, hc.odxEq, hz.neffEq, Nat.mul_comm (gOut s.eng.opl)]

theorem rest_even {s : State} (hz : Sized s) (hc : CursorsOk s) (ho : s.eng.opl = .hexdec) :
    (s.eng.neff - s.eng.idx) % 2 = 0 := by
  have h1 := lengthBad_hexdec (ho ▸ hz.lengthOk)
  have h2 : s.eng.padc = 0 := by
    by_contra hp
    have := (hz.padcOnly hp).1
    rw [ho] at this
    cases this
  have h3 := hz.neffEq
  rw [h2] at h3
  have h4 := hc.idxGroup
  rw [ho] at h4
  simp only [gIn] at h4
  have h5 : (0 : BitVec 2).toNat = 0 := rfl
  omega

theorem fits_full {s : State} (hz : Sized s) (hc : CursorsOk s)
    (hle : s.eng.idx + s.stepIn ≤ s.eng.neff) : ChunkFits s s.stepIn where
  read := by have := hz.neffEq; omega
  write := by
    have h1 := cursors_fill hz hc
    have h2 : s.eng.neff - s.eng.idx = s.stepIn + (s.eng.neff - s.eng.idx - s.stepIn) := by omega
    rw [h2, tailOut_step_add] at h1
    rw [tailOut_step]
    omega
  even := by
    intro ho
    rw [State.stepIn, ho]
    exact stepIn_even _ _

theorem fits_tail {s : State} (hz : Sized s) (hc : CursorsOk s) :
    ChunkFits s (s.eng.neff - s.eng.idx) where
  read := by have := hz.neffEq; have := hc.idxLe; omega
  write := (cursors_fill hz hc).le
  even := rest_even hz hc

/-- Storing `v` at the output cursor keeps the buffers sound, and lists every byte below the new cursor. -/
theorem listed_store {s : State} {v : List Byte} (hz : Sized s) (o : Nat) (ho : o < s.eng.odx + v.length) :
    ((s.obuf.writeBytes s.eng.odx v).read? o).isSome := by
  rw [Memory.read?_writeBytes]
  split
  · next h =>
    have : o - s.eng.odx < v.length := by omega
    simp [this]
  · exact hz.odxListed o (by omega)

/-- A stored chunk: the new cursors are sound and the sub-phase is the same or FINISH. -/
theorem Inv.storedChunk {s : State} (h : Inv s) (hb : s.status.state = .busy) (hsub : s.transforming)
    {n idx' : Nat} {sub' : SubPhase} (hfit : ChunkFits s n)
    (hnext : (sub' = s.eng.sub ∧ idx' ≤ s.eng.neff ∧ idx' % gIn s.eng.opl = 0 ∧
        s.eng.odx + tailOut s.eng.opl n = idx' / gIn s.eng.opl * gOut s.eng.opl) ∨
      (sub' = .finish ∧ idx' = s.eng.neff ∧ s.eng.odx + tailOut s.eng.opl n = s.eng.olen)) :
    Inv (State.advance { s with obuf := s.obuf.writeBytes s.eng.odx (xform s.eng.opl (s.ibufBytes s.eng.idx n)) }
      idx' (s.eng.odx + tailOut s.eng.opl n) sub') := by
  obtain ⟨hz, hc⟩ := h.transforming hb hsub
  have he := h.engine hb
  have hlen : (xform s.eng.opl (s.ibufBytes s.eng.idx n)).length = tailOut s.eng.opl n := by simp
  have hcap : s.eng.olen ≤ maxOutput s.params := by rw [hz.olenEq]; exact outLen_le_maxOutput he.nLe
  have hw := hfit.write
  have hlisted : ∀ o < s.eng.odx + tailOut s.eng.opl n,
      ((s.obuf.writeBytes s.eng.odx (xform s.eng.opl (s.ibufBytes s.eng.idx n))).read? o).isSome :=
    fun o ho => listed_store hz o (by rw [hlen]; exact ho)
  have hsized : Sized (State.advance { s with obuf := s.obuf.writeBytes s.eng.odx (xform s.eng.opl (s.ibufBytes s.eng.idx n)) }
      idx' (s.eng.odx + tailOut s.eng.opl n) sub') :=
    ⟨hz.supported, hz.lengthOk, hz.padVisible, hz.padcLe, hz.padcOnly, hz.neffEq, hz.olenEq, hlisted, hz.olenFits⟩
  refine ⟨h.paramsWf, ⟨h.status.1, h.status.2, h.status.3, h.status.4, h.status.5, h.status.6⟩,
    ⟨h.results.1, h.results.2, h.results.3, h.results.4, h.results.5, fun hd => ?_⟩,
    ⟨h.buffers.1, Memory.wf_writeBytes _ _ h.buffers.2, h.buffers.3, fun c hmem => ?_⟩, fun _ => ?_⟩
  · have hd' : s.status.state = .done := hd
    rw [hb] at hd'
    cases hd'
  · rcases Memory.mem_writeBytes hmem with ⟨-, hlt⟩ | hmem
    · rw [hlen] at hlt
      show c.1 < maxOutput s.params
      omega
    · exact h.buffers.4 c hmem
  · rcases hnext with ⟨rfl, h1, h2, h3⟩ | ⟨rfl, h1, h2⟩
    · refine ⟨he.oplEq, he.nLe, fun hent => ?_, fun _ => ⟨hsized, hc.pathEq, h1, h2, h3⟩, fun hfin => ?_⟩
      · have hent' : s.eng.sub = .entry := hent
        rcases hsub with hs | hs <;> rw [hs] at hent' <;> cases hent'
      · have hfin' : s.eng.sub = .finish := hfin
        rcases hsub with hs | hs <;> rw [hs] at hfin' <;> cases hfin'
    · exact ⟨he.oplEq, he.nLe, (fun hent => by cases hent), (fun hs => by rcases hs with hs | hs <;> cases hs),
        fun _ => ⟨hsized, h1, h2⟩⟩

/-- A whole chunk, in either path: what the step leaves keeps the invariant. -/
theorem Inv.afterChunk {s : State} (h : Inv s) (hb : s.status.state = .busy) (hsub : s.transforming)
    {n idx' : Nat} {sub' : SubPhase} (hfit : ChunkFits s n)
    (hnext : (sub' = s.eng.sub ∧ idx' ≤ s.eng.neff ∧ idx' % gIn s.eng.opl = 0 ∧
        s.eng.odx + tailOut s.eng.opl n = idx' / gIn s.eng.opl * gOut s.eng.opl) ∨
      (sub' = .finish ∧ idx' = s.eng.neff ∧ s.eng.odx + tailOut s.eng.opl n = s.eng.olen)) :
    Inv (afterChunk s (chunkSpec s n) idx' (s.eng.odx + tailOut s.eng.opl n) sub') := by
  obtain ⟨hz, hc⟩ := h.transforming hb hsub
  have he := h.engine hb
  cases hf : failPos s.eng.opl (s.ibufBytes s.eng.idx n) with
  | none =>
    simp only [chunkSpec, hf, Machine.afterChunk]
    exact h.storedChunk hb hsub hfit hnext
  | some p =>
    simp only [chunkSpec, hf, Machine.afterChunk]
    refine h.raise hb _ (by simp) (fun _ => hz.supported) ?_
    rintro o b hob
    simp only [Exception.codecError.injEq] at hob
    have hp := failPos_lt hf
    rw [State.length_ibufBytes] at hp
    have := hfit.read
    have := he.nLe
    omega

theorem Inv.finishStep {s : State} (h : Inv s) (hb : s.status.state = .busy) (hsub : s.eng.sub = .finish) :
    Inv (finishStep s) := by
  have he := h.engine hb
  obtain ⟨hz, hidx, hodx⟩ := he.finish hsub
  have hnone : s.status.errKind = .none := by
    by_contra hc
    have := h.status.errKindIff.1 hc
    rw [hb] at this
    cases this
  have hcap : s.eng.odx ≤ maxOutput s.params := by rw [hodx, hz.olenEq]; exact outLen_le_maxOutput he.nLe
  have hlt := maxOutput_lt h.paramsWf
  have hdst : (Machine.finishStep s).dstLen.toNat = s.eng.odx := by
    show (BitVec.ofNat 32 s.eng.odx).toNat = _
    rw [BitVec.toNat_ofNat, Nat.mod_eq_of_lt (by omega)]
  refine ⟨h.paramsWf, ⟨?_, h.status.2, h.status.3, (fun hc => by cases hc), (fun hc => by cases hc), fun _ => hz.supported⟩,
    ⟨fun hc => absurd rfl hc, by rw [hdst]; exact hcap, h.results.3, h.results.4, h.results.5, fun _ o ho => ?_⟩,
    ⟨h.buffers.1, h.buffers.2, h.buffers.3, h.buffers.4⟩, (fun hc => by cases hc)⟩
  · simp [hnone]
  · rw [hdst] at ho
    exact hz.odxListed o ho

end Sys2Proof.Machine
end

