-- ==== Sys2Proof/Laws/PerInstr.lean ====
section
/-! SUPPORT. The per-instruction family of the encoding: the fields of each command's word. -/

namespace Sys2Proof.Laws.Encoding

/-- The fields of the encoded word (30_encoding.md R70, R72): `START` set, `OP` the command's, the
reserved bits zero; and the `OP` field names the command. -/
def Statement (i : Instr) : Prop :=
  (encode i).getLsbD 0 = true ∧ (encode i).extractLsb' 1 2 = i.op ∧ (encode i).extractLsb' 3 29 = 0 ∧
    opCommand i.op = i

theorem b64enc : Statement .b64enc := by unfold Statement; decide

theorem b64dec : Statement .b64dec := by unfold Statement; decide

theorem hexenc : Statement .hexenc := by unfold Statement; decide

theorem hexdec : Statement .hexdec := by unfold Statement; decide

end Sys2Proof.Laws.Encoding
end

