-- ==== Sys2Proof/Tests/Slice0.lean ====
section
/-! SUPPORT. The model's own tests. Expected values are those of spec/95_test_vectors.md (named S, E, C,
P as there) or are worked out by hand from the rule that the comment names. The theorems `witness_…` show a
concrete state and operands that meet the hypotheses of the obligation they name. -/

namespace Sys2Proof.Tests

open Sys2Proof Sys2Proof.Machine

/-! ### Helpers -/

/-- The next state of an outcome, if it is one. -/
def after : Host.Outcome State Fault Refusal → Option State
  | .next s => some s
  | .fault _ => none
  | .refused _ => none

/-- The refusal of an outcome, if it is one. -/
def refusal : Host.Outcome State Fault Refusal → Option Refusal
  | .next _ => none
  | .fault _ => none
  | .refused r => some r

/-- The fault of an outcome, if it is one. -/
def faultOf : Host.Outcome State Fault Refusal → Option Fault
  | .next _ => none
  | .fault f => some f
  | .refused _ => none

/-- The state after one engine step. -/
def engined (s : State) : Option State :=
  match engineStep s with
  | .ok t => some t
  | .error _ => none

/-- A block in IDLE whose host has written the input `b` and its length. -/
def ready (p : Params) (b : List Byte) : State :=
  { State.resetOf p with srcLen := BitVec.ofNat 32 b.length, ibuf := Memory.writeBytes [] 0 b }

/-- The same block, BUSY with command `i`, its ENTRY step pending. -/
def busy (p : Params) (i : Instr) (b : List Byte) : State := (ready p b).started i

/-- The same block with ENTRY taken. -/
def sized (p : Params) (i : Instr) (b : List Byte) : State := (busy p i b).entered (entryPad (busy p i b))

/-- The parameters of P4 and P5 of section 3, and one that takes the vector path on short inputs. -/
def p16 : Params := Params.default
def p8 : Params := { L := 8, tSmall := 16, nmax := 64 }
def pv : Params := { L := 16, tSmall := 0, nmax := 64 }

/-- The smallest block. -/
def p1 : Params := { L := 16, tSmall := 16, nmax := 1 }

/-! ### Well-formedness -/

theorem test_wf_params : Params.wf p16 = true ∧ Params.wf { p16 with nmax := 2 ^ 31 - 1 } = true ∧
    Params.wf { p16 with nmax := 0 } = false ∧ Params.wf { p16 with nmax := 2 ^ 31 } = false := by decide

theorem test_wf_actions :
    HostAction.wf p16 (.write 7 0) = true ∧ HostAction.wf p16 (.write 8 0) = false ∧
    HostAction.wf p16 (.read 8) = false ∧ HostAction.wf p16 (.writeIbuf 4095 0) = true ∧
    HostAction.wf p16 (.writeIbuf 4096 0) = false ∧ HostAction.wf p16 (.readIbuf 4096) = false ∧
    HostAction.wf p16 (.readObuf 8191) = true ∧ HostAction.wf p16 (.readObuf 8192) = false := by decide

theorem test_wf_memory : Memory.wf [(0, 1), (1, 2)] ∧ ¬ Memory.wf [(1, 2), (0, 1)] ∧
    ¬ Memory.wf [(0, 1), (0, 2)] := by decide

theorem test_wf_memory_write : Memory.write [(0, 1), (2, 3)] 1 2 = [(0, 1), (1, 2), (2, 3)] ∧
    Memory.write [(0, 1), (2, 3)] 2 5 = [(0, 1), (2, 5)] := by decide

/-! ### Decoding: the words written out bit by bit from 30_encoding.md R70, R72 -/

theorem test_decode_b64enc : decode 0b00000000000000000000000000000001 = .ok .b64enc := by rfl
theorem test_decode_b64dec : decode 0b00000000000000000000000000000011 = .ok .b64dec := by rfl
theorem test_decode_hexenc : decode 0b00000000000000000000000000000101 = .ok .hexenc := by rfl
theorem test_decode_hexdec : decode 0b00000000000000000000000000000111 = .ok .hexdec := by rfl

/-- C4, C5 of section 2.7. -/
theorem test_decode_start_clear : decode 0x00000000 = .error .startClear ∧ decode 0x00000006 = .error .startClear :=
  ⟨rfl, rfl⟩

/-- C11 of section 2.7, and the highest reserved bit. -/
theorem test_decode_reserved : decode 0x00000009 = .error .reservedBits ∧
    decode 0x80000001 = .error .reservedBits := ⟨rfl, rfl⟩

theorem test_decodeTableWord : decodeTableWord 32 5 = some .hexenc ∧ decodeTableWord 32 4 = none ∧
    decodeTableWord 8 7 = some .hexdec := by decide

/-! ### The CTRL write (section 2.7) -/

/-- The first step after reset runs the word that is placed for it. -/
theorem test_step_withFetchWord :
    (after (step (State.reset.withFetchWord 32 3))).map (fun s => s.status.word) = some 0x00001001 := by decide

/-- C6. -/
theorem test_start_hexenc : (after (hostAct (.write 0 0x00000005) (ready p16 [0x61, 0x62, 0x63]))).map
    (fun s => (s.status.word, s.dstLen)) = some (0x00002001, 0) := by decide

/-- C7. -/
theorem test_start_b64enc_from_done : (after (hostAct (.write 0 0x00000001)
    { ready p16 [] with
      dstLen := 6
      status := { state := .done, errKind := .none, pad := 0, op := .hexenc } })).map
    (fun s => (s.status.word, s.dstLen)) = some (0x00000001, 0) := by decide

/-- C8. -/
theorem test_start_hexdec_from_error : (after (hostAct (.write 0 0x00000007)
    { ready p16 [] with
      errOffset := 4
      errByte := 0x20
      status := { state := .error, errKind := .codec, pad := 0, op := .hexdec } })).map
    (fun s => (s.status.word, s.errOffset, s.errByte)) = some (0x00003001, 0, 0) := by decide

/-- C9: no change. -/
theorem test_start_b64dec_in_fatal : (after (hostAct (.write 0 0x00000003)
    { ready p8 [] with status := { state := .fatal, errKind := .none, pad := 0, op := .b64enc } })).map
    (fun s => s.status.word) = some 0x00000004 := by decide

/-- C11, C12, C13. -/
theorem test_refusals :
    refusal (hostAct (.write 0 0x00000009) (ready p16 [])) = some .reservedCommand ∧
    refusal (hostAct (.write 0 0x00000001) (busy p16 .b64enc [])) = some .startWhileBusy ∧
    refusal (hostAct (.write 0 0x00000001) { ready p16 [] with srcLen := 4097 }) = some .sourceTooLong ∧
    refusal (hostAct (.write 8 0) (ready p16 [])) = some .noSuchRegister := by decide

/-- C1, C2, C3. -/
theorem test_reads_after_reset : State.reset.readReg .status = 0x00000000 ∧ State.reset.readReg .laneW = 16 ∧
    State.reset.readReg .cap = 4096 ∧ State.reset.readReg .ctrl = 0 := by decide

/-- C10. -/
theorem test_readonly_writes : (after (hostAct (.write 2 0xFFFFFFFF) (ready p16 []))).map
    (fun s => (s.status.word, s.dstLen)) = some (0, 0) ∧
    (after (hostAct (.write 6 64) (ready p16 []))).map (fun s => s.readReg .laneW) = some 16 := by decide

/-- 10_state.md R34, R35: the offsets just beyond the two buffers do not exist. -/
theorem test_no_such_offset :
    faultOf (hostAct (.writeIbuf 64 0) (ready pv [])) = some .noSuchIbufOffset ∧
    faultOf (hostAct (.readObuf 128) (ready pv [])) = some .noSuchObufOffset ∧
    (after (hostAct (.writeIbuf 63 7) (ready pv []))).map (fun s => s.ibuf) = some [(63, 7)] := by decide

/-- S5: the STATUS word of a decoded "Zg==". -/
theorem test_status_word :
    Status.word { state := .done, errKind := .none, pad := 2, op := .b64dec } = 0x00001202 ∧
    Status.word { state := .error, errKind := .codec, pad := 1, op := .b64dec } = 0x00001123 := by decide

/-! ### The pure functions (sections 1, 2.2 to 2.5) -/

/-- S1 to S4, and "+/+/". -/
theorem test_b64enc_pure : b64encPure [] = .ok [] ∧ b64encPure [0x66] = .ok [0x5A, 0x67, 0x3D, 0x3D] ∧
    b64encPure [0x66, 0x6F] = .ok [0x5A, 0x6D, 0x38, 0x3D] ∧
    b64encPure [0x66, 0x6F, 0x6F] = .ok [0x5A, 0x6D, 0x39, 0x76] ∧
    b64encPure [0xFB, 0xFF, 0xBF] = .ok [0x2B, 0x2F, 0x2B, 0x2F] := by decide

/-- S5, S6; "Zh==", "Zg", "A===", "AA=A", and "Zg=" with a line feed of section 2.3. -/
theorem test_b64dec_pure : b64decPure [0x5A, 0x67, 0x3D, 0x3D] = .ok [0x66] ∧
    b64decPure [0x5A, 0x20, 0x67, 0x3D] = .codecError 1 0x20 ∧
    b64decPure [0x5A, 0x68, 0x3D, 0x3D] = .ok [0x66] ∧ b64decPure [0x5A, 0x67] = .lengthError ∧
    b64decPure [0x41, 0x3D, 0x3D, 0x3D] = .codecError 1 0x3D ∧
    b64decPure [0x41, 0x41, 0x3D, 0x41] = .codecError 2 0x3D ∧
    b64decPure [0x5A, 0x67, 0x3D, 0x0A] = .codecError 2 0x3D := by decide

/-- S7, and "0ff0". -/
theorem test_hexenc_pure : hexencPure [0x61, 0x62, 0x63] = .ok [0x36, 0x31, 0x36, 0x32, 0x36, 0x33] ∧
    hexencPure [0x0F, 0xF0] = .ok [0x30, 0x66, 0x66, 0x30] := by decide

/-- S8, S9, S10; "aB" and "6z" of section 2.5. -/
theorem test_hexdec_pure : hexdecPure [0x36, 0x31, 0x36, 0x32, 0x36, 0x33] = .ok [0x61, 0x62, 0x63] ∧
    hexdecPure [0x61, 0x62, 0x63, 0x64, 0x65] = .lengthError ∧ hexdecPure [0x7A, 0x7A] = .codecError 0 0x7A ∧
    hexdecPure [0x61, 0x42] = .ok [0xAB] ∧ hexdecPure [0x36, 0x7A] = .codecError 1 0x7A := by decide

/-! ### Engine steps (section 2.6) -/

/-- E12: ENTRY of `B64DEC` on "Zg==". -/
theorem test_entry_b64dec : (engined (busy p16 .b64dec [0x5A, 0x67, 0x3D, 0x3D])).map
    (fun s => (s.eng.padc, s.eng.neff, s.eng.olen, s.eng.sub, s.status.pad)) = some (2, 2, 1, .scalar, 2) := by decide

/-- E25, E27. -/
theorem test_entry_raises :
    (engined (busy p16 .hexdec [0x61, 0x62, 0x63, 0x64, 0x65])).map (fun s => s.status.word) = some 0x00003013 ∧
    (engined (busy p8 .hexenc [0x61, 0x62, 0x63])).map (fun s => s.status.word) = some 0x00002004 := by decide

/-- E3: the full scalar step of `B64ENC` on "foo". -/
theorem test_full_scalar : (engined (sized p16 .b64enc [0x66, 0x6F, 0x6F])).map
    (fun s => (s.obuf, s.eng.idx, s.eng.odx, s.eng.sub)) =
    some ([(0, 0x5A), (1, 0x6D), (2, 0x39), (3, 0x76)], 3, 4, .scalar) := by decide

/-- E7: the full vector step of `B64ENC` on the bytes 00 to 10. -/
theorem test_full_vector : (engined (sized p16 .b64enc
    [0, 1, 2, 3, 4, 5, 6, 7, 8, 9, 10, 11, 12, 13, 14, 15, 16])).map
    (fun s => (s.obuf.map (fun e => e.2), s.eng.idx, s.eng.odx, s.eng.sub)) =
    some ([0x41, 0x41, 0x45, 0x43, 0x41, 0x77, 0x51, 0x46, 0x42, 0x67, 0x63, 0x49, 0x43, 0x51, 0x6F, 0x4C],
      12, 16, .vector) := by decide

/-- E12 in the vector path: the tail of "Zg==". -/
theorem test_tail_b64dec : (engined (sized pv .b64dec [0x5A, 0x67, 0x3D, 0x3D])).map
    (fun s => (s.obuf, s.eng.idx, s.eng.odx, s.eng.sub)) = some ([(0, 0x66)], 2, 1, .finish) := by decide

/-- E13 in the vector path: the tail of "Z g=" fails at offset 1 and stores nothing. -/
theorem test_tail_b64dec_fails : (engined (sized pv .b64dec [0x5A, 0x20, 0x67, 0x3D])).map
    (fun s => (s.status.word, s.errOffset, s.errByte, s.obuf)) = some (0x00001123, 1, 0x20, []) := by decide

/-- S7 and S10 in the vector path. -/
theorem test_tail_hex_vector :
    (engined (sized pv .hexenc [0x61, 0x62, 0x63])).map (fun s => s.obuf.map (fun e => e.2)) =
      some [0x36, 0x31, 0x36, 0x32, 0x36, 0x33] ∧
    (engined (sized pv .hexdec [0x36, 0x7A])).map (fun s => (s.errOffset, s.errByte)) = some (1, 0x7A) := by decide

/-- The example of 41_engine.md R112. -/
theorem test_finish : (engined { sized p16 .b64enc [] with
    eng := { (sized p16 .b64enc []).eng with sub := .finish, odx := 28 } }).map
    (fun s => (s.status.word, s.dstLen)) = some (0x00000002, 28) := by decide

/-- A chunk beyond the latched length would fault (41_engine.md R115). -/
theorem test_bounds_checked : engineStep { sized p16 .b64enc [] with
    eng := { (sized p16 .b64enc []).eng with neff := 3, olen := 4 } } = .error .readOutOfBounds := by rfl

/-! ### Lane primitives (section 2.8) -/

theorem test_lane_elementwise :
    valid 16 3 = [true, true, true] ++ List.replicate 13 false ∧
    cmpLtu [25, 26, 0, 255] (broadcast 4 26) = [true, false, true, false] ∧
    shr [0x61] 4 = some [0x06] ∧ shl [0x61] 4 = some [0x10] ∧ shr [0x61] 8 = none ∧
    addLane [52] [0xFC] = [48] ∧ subLane [0] [1] = [255] ∧
    subsLane [0, 51, 52, 63] (broadcast 4 51) = [0, 0, 1, 12] ∧
    andLane [0x61] [0x0F] = [0x01] ∧ andnLane [0x61] [0xFF] = [0x9E] := by decide

theorem test_lane_movement :
    (lookup16 hexTable16 ([0x0A, 0x00, 0x0F] ++ List.replicate 13 0)).map (fun v => v.take 3) =
      some [0x61, 0x30, 0x66] ∧
    lookup16 hexTable16 (0x80 :: List.replicate 15 0) = none ∧
    slideDown [1, 2, 3, 4, 5] 3 = some [4, 5, 0, 0, 0] ∧ slideUp [1, 2, 3, 4, 5] 2 = some [0, 0, 1, 2, 3] ∧
    slideUp [1, 2] 3 = none ∧ extract [0x5A, 0x20, 0x67, 0x3D] 1 = some 0x20 ∧
    interleave [0x36, 0x36] [0x31, 0x32] = ([0x36, 0x31], [0x36, 0x32]) ∧
    firstFail [false, true, false, true] 4 = some 1 ∧ firstFail [false, true, false, true] 1 = none ∧
    firstFail2 [true] [true] 2 = some 0 ∧ firstFail2 [false, true] [true, false] 4 = some 1 := by decide

/-- `LOAD_MASK(0, 2)` and `STORE_MASK(0, v, 1)`. -/
theorem test_lane_memory :
    (loadMask (busy p16 .b64dec [0x5A, 0x67]) 0 2).toOption = some ([0x5A, 0x67] ++ List.replicate 14 0) ∧
    ((storeMask (sized p16 .b64dec [0x5A, 0x67, 0x3D, 0x3D]) 0 (0x66 :: List.replicate 15 1) 1).toOption.map
      (fun s => s.obuf)) = some [(0, 0x66)] := by decide

/-- `NMAX` = 1 (10_state.md R35, 42_base64.md R147, log 21): OBUF has offsets 0 and 1, and "f" still has 4
output bytes. -/
theorem test_smallest_block :
    faultOf (hostAct (.readObuf 2) (ready p1 [])) = some .noSuchObufOffset ∧
    faultOf (hostAct (.readObuf 1) (ready p1 [])) = none ∧
    (after (step (busy p1 .b64enc [0x66]))).map (fun s => s.eng.olen) = some 4 ∧
    (after (step (busy p1 .hexenc [0x66]))).map (fun s => s.eng.olen) = some 2 := by decide

/-! ### States of the invariant, for the witnesses -/

theorem inv_ready {p : Params} {b : List Byte} (h : p.wf = true) (hb : b.length ≤ p.nmax) : Inv (ready p b) where
  paramsWf := h
  status := ⟨(inv_resetOf h).status.1, (inv_resetOf h).status.2, (inv_resetOf h).status.3,
    (inv_resetOf h).status.4, (inv_resetOf h).status.5, (inv_resetOf h).status.6⟩
  results := ⟨(inv_resetOf h).results.1, (inv_resetOf h).results.2, (inv_resetOf h).results.3,
    (inv_resetOf h).results.4, (inv_resetOf h).results.5, (inv_resetOf h).results.6⟩
  buffers := by
    refine ⟨Memory.wf_writeBytes _ _ List.Pairwise.nil, List.Pairwise.nil, fun e he => ?_, fun e he => by cases he⟩
    rcases Memory.mem_writeBytes he with ⟨-, h1⟩ | h1
    · show e.1 < p.nmax
      omega
    · cases h1
  engine := fun hc => by cases hc

theorem inv_busy {p : Params} {b : List Byte} (h : p.wf = true) (hb : b.length ≤ p.nmax) (i : Instr)
    (hn : (ready p b).srcLen.toNat ≤ p.nmax) : Inv (busy p i b) := (inv_ready h hb).started i hn

theorem inv_sized {p : Params} {b : List Byte} (h : p.wf = true) (hb : b.length ≤ p.nmax) (i : Instr)
    (hn : (ready p b).srcLen.toNat ≤ p.nmax) (hs : p.supported = true)
    (hl : lengthBad i (busy p i b).eng.n = false) : Inv (sized p i b) :=
  (inv_busy h hb i hn).entered rfl hs hl

/-- "f" being encoded, before its tail step, before FINISH, and done. -/
def beforeTail : State := sized p16 .b64enc [0x66]
def beforeFinish : State :=
  State.advance { beforeTail with obuf := beforeTail.obuf.writeBytes 0 [0x5A, 0x67, 0x3D, 0x3D] } 1 4 .finish
def finished : State := finishStep beforeFinish

theorem inv_beforeTail : Inv beforeTail := inv_sized (by decide) (by decide) .b64enc (by decide) (by decide) rfl

theorem inv_beforeFinish : Inv beforeFinish := by
  have h := inv_beforeTail.storedChunk (n := 1) (idx' := 1) (sub' := .finish) rfl (.inl rfl)
    ⟨by decide, by decide, fun hc => by cases hc⟩ (.inr ⟨rfl, rfl, rfl⟩)
  exact h.congr rfl rfl rfl rfl rfl rfl rfl rfl

theorem inv_finished : Inv finished := inv_beforeFinish.finishStep rfl rfl

/-! ### Witnesses: concrete states and operands that meet the hypotheses of the obligations -/

theorem witness_OtherCtrlWordsDoNothingOrAreRefused :
    (0x00000007 : Word).extractLsb' 3 29 = 0 ∧ (0x00000007 : Word).getLsbD 0 = true ∧
    (0x00000008 : Word).extractLsb' 3 29 ≠ 0 ∧ (0x80000000 : Word).extractLsb' 3 29 ≠ 0 := by decide

theorem witness_DecodeInvertsEncode : Instr.wf .hexdec = true := by decide

theorem witness_StepRunsTheDecodedCommand :
    (State.reset.withFetchWord 32 7).script = [.write 0 0x00000007] ∧ decode 0x00000007 = .ok .hexdec := ⟨rfl, rfl⟩

theorem witness_EngineStepsOnlyWhileBusy :
    ((ready p16 []).script = [] ∧ (ready p16 []).status.state ≠ .busy) ∧
    (beforeTail.script = [] ∧ beforeTail.status.state = .busy ∧ ∃ t, engineStep beforeTail = .ok t) ∧
    (∃ f, engineStep { beforeTail with eng := { beforeTail.eng with neff := 3, olen := 4 } } = .error f) ∧
    ({ beforeTail with script := [.yieldEngine, .poll] } : State).script = .yieldEngine :: [.poll] :=
  ⟨⟨rfl, by decide⟩, ⟨rfl, rfl, _, rfl⟩, ⟨_, rfl⟩, rfl⟩

theorem witness_RegisterReadsReturnTheRegisterMap : (8 : Nat) ≤ 8 ∧ p16.L < 2 ^ 32 ∧ 2 ^ 32 - 1 < 2 ^ 32 := by decide

theorem witness_RegisterWritesStoreOnlySrcLen : (ready p16 []).status.state ≠ .busy ∧
    (busy p16 .b64enc []).status.state = .busy ∧ (2 : Nat) ≤ 2 ∧ (7 : Nat) ≤ 7 := by decide

theorem witness_StatusRegisterLayout : Inv finished ∧ finished.status.op ≠ .b64dec := ⟨inv_finished, by decide⟩

theorem witness_StartLatchesAndClears :
    ((ready p16 []).status.state = .idle ∧ ({ ready p16 [] with srcLen := 4096 } : State).srcLen.toNat ≤ p16.nmax) ∧
    (finished.status.state = .done ∧ p16.nmax < ({ finished with srcLen := 4097 } : State).srcLen.toNat) ∧
    (raise .fatal (busy p8 .b64enc [])).status.state = .fatal ∧ (busy p16 .b64enc []).status.state = .busy ∧
    ((0x00000005 : Word).getLsbD 0 = true ∧ (0x00000005 : Word).extractLsb' 3 29 = 0 ∧
      (0x00000005 : Word).extractLsb' 1 2 = Instr.hexenc.op) := by decide

theorem witness_StartFrame : ∃ t, exec .hexenc (ready p16 [1, 2]) = .next t := ⟨_, rfl⟩

theorem witness_StepSizesOfEachCommand :
    16 % 4 = 0 ∧ Inv (sized p16 .b64dec [0x5A, 0x67, 0x3D, 0x3D]) ∧ Inv (sized p16 .hexdec [0x36, 0x31]) ∧
    (sized p16 .b64dec [0x5A, 0x67, 0x3D, 0x3D]).eng.sub = .scalar :=
  ⟨rfl, inv_sized (by decide) (by decide) _ (by decide) (by decide) rfl,
    inv_sized (by decide) (by decide) _ (by decide) (by decide) rfl, rfl⟩

theorem witness_EntryChecksSizesAndSelects :
    ((busy p8 .b64dec [1]).eng.sub = .entry ∧ ¬ (p8.L = 16 ∨ p8.L = 32 ∨ p8.L = 64)) ∧
    ((busy p16 .hexdec [1]).eng.sub = .entry ∧ (busy p16 .hexdec [1]).eng.n % 2 ≠ 0) ∧
    ((busy p16 .b64dec [1, 2, 3]).eng.sub = .entry ∧ (busy p16 .b64dec [1, 2, 3]).eng.n % 4 ≠ 0) ∧
    ((busy p16 .b64dec []).eng.n % 4 = 0 ∧ (busy p16 .b64dec [1, 2, 3, 4]).eng.n % 4 = 0) ∧
    (busy p1 .b64enc [1]).eng.sub = .entry := by decide

/-- A full step over valid bytes, and one over an invalid byte, in the scalar path (E14, and "A!AAAAAA"). -/
theorem witness_FullStepTransformsOneChunk :
    ((sized p16 .b64dec [0x5A, 0x6D, 0x39, 0x76]).params.supported = true ∧
      (sized p16 .b64dec [0x5A, 0x6D, 0x39, 0x76]).eng.sub = .scalar ∧
      0 + (sized p16 .b64dec [0x5A, 0x6D, 0x39, 0x76]).stepIn ≤ (sized p16 .b64dec [0x5A, 0x6D, 0x39, 0x76]).eng.neff ∧
      0 + (sized p16 .b64dec [0x5A, 0x6D, 0x39, 0x76]).stepOut ≤ (sized p16 .b64dec [0x5A, 0x6D, 0x39, 0x76]).eng.olen ∧
      failPos .b64dec ((sized p16 .b64dec [0x5A, 0x6D, 0x39, 0x76]).ibufBytes 0 4) = none) ∧
    failPos .b64dec ((sized p16 .b64dec [0x41, 0x21, 0x41, 0x41]).ibufBytes 0 4) = some 1 := by decide

/-- A tail of one byte, an empty tail, and a failing one. -/
theorem witness_TailStepTransformsTheRemainder :
    (beforeTail.params.supported = true ∧ beforeTail.eng.sub = .scalar ∧
      beforeTail.eng.neff < beforeTail.eng.idx + beforeTail.stepIn ∧ beforeTail.eng.neff = beforeTail.eng.idx + 1 ∧
      beforeTail.eng.odx + tailOut .b64enc 1 ≤ beforeTail.eng.olen) ∧
    (sized p16 .hexenc []).eng.neff < (sized p16 .hexenc []).eng.idx + (sized p16 .hexenc []).stepIn ∧
    failPos .b64dec ((sized pv .b64dec [0x5A, 0x20, 0x67, 0x3D]).ibufBytes 0 3) = some 1 := by decide

theorem witness_FinishPublishesTheLength :
    Inv beforeFinish ∧ beforeFinish.status.state = .busy ∧ beforeFinish.eng.sub = .finish :=
  ⟨inv_beforeFinish, rfl, rfl⟩

theorem witness_RaiseWritesOnlyTheErrorRegisters :
    Inv (busy p16 .hexdec [0x36]) ∧ (busy p16 .hexdec [0x36]).status.state = .busy ∧
      (busy p16 .hexdec [0x36]).eng.sub = .entry :=
  ⟨inv_busy (by decide) (by decide) _ (by decide), rfl, rfl⟩

theorem witness_EngineStepFrame :
    (Inv beforeTail ∧ beforeTail.status.state = .busy ∧ beforeTail.eng.sub = .scalar ∧
      ∃ t, engineStep beforeTail = .ok t) ∧
    (Inv beforeFinish ∧ ∃ t, engineStep beforeFinish = .ok t) ∧
    (Inv (busy p16 .hexdec [0x36]) ∧ ∃ t, engineStep (busy p16 .hexdec [0x36]) = .ok t) :=
  ⟨⟨inv_beforeTail, rfl, rfl, _, rfl⟩, ⟨inv_beforeFinish, _, rfl⟩,
    ⟨inv_busy (by decide) (by decide) _ (by decide), _, rfl⟩⟩

theorem witness_ResetSatisfiesTheInvariant : p8.wf = true := by decide

theorem witness_StepKeepsTheInvariant : Inv beforeFinish ∧ step beforeFinish = .next finished :=
  ⟨inv_beforeFinish, rfl⟩

theorem witness_EngineStaysInsideItsBuffers : Inv beforeTail ∧ beforeTail.status.state = .busy ∧
    beforeTail.eng.sub = .scalar ∧ beforeTail.params.nmax ≠ 1 := ⟨inv_beforeTail, rfl, rfl, by decide⟩

theorem witness_RestingStatesPersist :
    ((raise .fatal (busy p8 .b64enc [])).status.state = .fatal ∧
      ∃ t, step { raise .fatal (busy p8 .b64enc []) with script := [.write 0 3] } = .next t) ∧
    (finished.status.state = .done ∧ ∃ t, step { finished with script := [.readObuf 0] } = .next t) :=
  ⟨⟨rfl, _, rfl⟩, rfl, _, rfl⟩

theorem witness_StatusLifeCycle :
    (after (step { ready p16 [] with script := [.write 0 1] })).map (fun t => t.status.state) = some .busy ∧
    (after (step beforeFinish)).map (fun t => t.status.state) = some .done ∧
    (after (step { beforeTail with script := [.reset] })).map (fun t => t.status.state) = some .idle := by decide

/-- The hypotheses of RunDeliversThePureFunction, B64encDeliversTheEncoding, B64decDeliversTheDecoding,
HexencDeliversTheEncoding, HexdecDeliversTheDecoding and RetryGivesTheSameResult: an empty input from
IDLE, a short one, and one of full capacity from DONE. -/
theorem witness_whole_commands :
    ((ready p16 []).params.wf = true ∧ (ready p16 []).params.supported = true ∧ (ready p16 []).script = [] ∧
      (ready p16 []).acceptsStart) ∧ (ready p16 [0x5A, 0x67, 0x3D, 0x3D]).acceptsStart ∧
    ({ finished with srcLen := 4096 } : State).acceptsStart ∧ (ready p1 [0x66]).acceptsStart :=
  ⟨⟨by decide, by decide, rfl, .inl rfl, by decide⟩, ⟨.inl rfl, by decide⟩, ⟨.inr (.inl rfl), by decide⟩,
    .inl rfl, by decide⟩

/-- `B64DEC`: a bad length, a failing body, a sound body. -/
theorem witness_B64decDeliversTheDecoding :
    (ready p16 [1]).srcLen.toNat % 4 ≠ 0 ∧
    b64Fail ((ready p16 [0x5A, 0x20, 0x67, 0x3D]).input.take (4 - 1)) = some 1 ∧
    b64Fail ((ready p16 [0x5A, 0x67, 0x3D, 0x3D]).input.take (4 - 2)) = none := by decide

theorem witness_HexdecDeliversTheDecoding :
    (ready p16 [1]).srcLen.toNat % 2 ≠ 0 ∧ hexFail (ready p16 [0x36, 0x7A]).input = some 1 ∧
    hexFail (ready p16 [0x36, 0x31]).input = none := by decide

theorem witness_UnsupportedWidthEndsInFatal :
    (ready p8 [0x61]).params.supported = false ∧ (ready p8 [0x61]).script = [] ∧ (ready p8 [0x61]).acceptsStart ∧
    Inv (ready p8 [0x61]) ∧ (Inv (busy p8 .hexdec [0x61]) ∧ (busy p8 .hexdec [0x61]).status.state = .busy) ∧
    Inv beforeTail ∧ beforeTail.params.supported = true :=
  ⟨by decide, rfl, ⟨.inl rfl, by decide⟩, inv_ready (by decide) (by decide),
    ⟨inv_busy (by decide) (by decide) _ (by decide), rfl⟩, inv_beforeTail, by decide⟩

/-- Two blocks of different width, threshold, capacity and history that hold the same input. -/
theorem witness_ResultDependsOnlyOnTheInput :
    (ready pv [0x66]).srcLen = finished.srcLen ∧ finished.acceptsStart ∧ (ready pv [0x66]).acceptsStart ∧
    (∀ o < 1, (ready pv [0x66]).ibufByte o = finished.ibufByte o) ∧ finished.params ≠ pv :=
  ⟨by decide, ⟨.inr (.inl rfl), by decide⟩, ⟨.inl rfl, by decide⟩, by
    intro o ho
    obtain rfl : o = 0 := by omega
    rfl, by decide⟩

theorem witness_CallDeliversThePureFunction :
    p16.wf = true ∧ p16.supported = true ∧ ([0x5A, 0x67, 0x3D, 0x3D] : List Byte).length ≤ p16.nmax ∧
    ({ State.reset with script := callProgram .b64dec [0x5A, 0x67, 0x3D, 0x3D] } : State).status.state = .idle := by
  decide

theorem witness_SymIsTheStandardAlphabet : (25 : Sextet).toNat ≤ 25 ∧ 26 ≤ (26 : Sextet).toNat ∧
    (51 : Sextet).toNat ≤ 51 ∧ 52 ≤ (52 : Sextet).toNat ∧ (61 : Sextet).toNat ≤ 61 := by decide

theorem witness_Val64InvertsSym : val64 0x7A = some 51 ∧ val64 0x3D = none := by decide

theorem witness_Base64ChunkTransforms :
    (([0x66, 0x6F, 0x6F, 0x62] : List Byte)[3 * 0 + 2]? = some 0x6F ∧
      ([0x66, 0x6F, 0x6F, 0x62] : List Byte).length = 3 * 1 + 1) ∧
    ([0x66, 0x6F] : List Byte).length = 3 * 0 + 2 ∧
    (([0x5A, 0x6D, 0x39, 0x76, 0x5A, 0x67] : List Byte)[4 * 0 + 3]?.map val64 = some (some 47) ∧
      ([0x5A, 0x6D, 0x39, 0x76, 0x5A, 0x67] : List Byte).length = 4 * 1 + 2) ∧
    ([0x5A, 0x6D, 0x38] : List Byte).length = 4 * 0 + 3 := by decide

/-- A canonical text and one that is not ("Zg==", "Zh=="). -/
theorem witness_Base64RoundTrip :
    (b64decPure [0x5A, 0x67, 0x3D, 0x3D] = .ok [0x66] ∧ b64encX [0x66] = [0x5A, 0x67, 0x3D, 0x3D]) ∧
    (b64decPure [0x5A, 0x68, 0x3D, 0x3D] = .ok [0x66] ∧ b64encX [0x66] ≠ [0x5A, 0x68, 0x3D, 0x3D]) := by decide

theorem witness_ThirdEqualsSignIsNotPadding : ([0x41] ++ [0x3D, 0x3D, 0x3D] : List Byte).length % 4 = 0 ∧
    b64Fail [0x41] = none ∧ b64Fail [0x41, 0x20, 0x41, 0x41, 0x41] = some 1 := by decide

theorem witness_SymLaneComputesSym : ∀ x ∈ ([0, 25, 26, 51, 52, 61, 62, 63, 0, 0, 0, 0, 0, 0, 0, 0] : Lane),
    x.toNat < 64 := by decide

theorem witness_HexChunkTransforms : ([0x61] : List Byte)[0]? = some 0x61 ∧
    ([0x36, 0x46] : List Byte)[2 * 0]?.map valHex = some (some 6) ∧
    ([0x36, 0x46] : List Byte)[2 * 0 + 1]?.map valHex = some (some 15) := by decide

theorem witness_HexRoundTrip : hexdecPure [0x61, 0x42] = .ok [0xAB] ∧ hexencX [0xAB] = [0x61, 0x62] := by decide

theorem witness_OutputLengths : b64decPure [] = .ok [] ∧ hexdecPure [0x66, 0x46] = .ok [0xFF] := by decide

theorem witness_HexLanesComputeTheByteFormulas : (List.replicate 16 (0x5A : Byte)).length % 16 = 0 ∧
    ([0x36] : Lane).length = ([0x31] : Lane).length := by decide

theorem witness_LaneLoadsAndStores :
    (0 + p16.L ≤ (busy p16 .hexenc (List.replicate 16 0)).eng.n) ∧ 16 ≤ p16.L ∧
    (List.replicate 16 (0x5A : Byte)).length = p16.L ∧ 0 + p16.L ≤ (sized p16 .hexenc (List.replicate 16 0)).eng.olen ∧
    15 < p16.L := by decide

theorem witness_ElementwisePrimitives : ([0x61] : Lane)[0]? = some 0x61 ∧ ([true] : Mask)[0]? = some true ∧
    (7 : Nat) ≤ 7 ∧ (8 : Nat) ≤ 8 := by decide

theorem witness_Lookup16ReadsItsOwnGroup : (List.replicate 16 (0x7F : Byte)).length = hexTable16.length ∧
    hexTable16.length % 16 = 0 ∧ (∀ x ∈ List.replicate 16 (0x7F : Byte), x.toNat < 128) ∧
    ∃ x ∈ List.replicate 16 (0x80 : Byte), 128 ≤ x.toNat := by decide

theorem witness_SlidesMoveAndZeroFill : 2 ≤ ([1, 2] : Lane).length ∧ ([1, 2] : Lane).length < 3 := by decide

theorem witness_InterleaveAndDeinterleave : ([1, 2] : Lane).length = ([3, 4] : Lane).length := by decide

theorem witness_WindowLoadPassesOnTheNominalChunk : 0 + 2 ≤ (busy p16 .b64enc [1, 2]).eng.n ∧
    (busy p16 .b64enc [1, 2]).eng.n < 0 + 3 := by decide

theorem witness_MemoryReadAfterWrite : Memory.wf [(0, 1), (4, 2)] := by decide

theorem witness_HostAccessesOfIbuf : 4095 < (ready p16 []).params.nmax ∧ (ready p16 []).status.state ≠ .busy ∧
    (busy p16 .b64enc []).status.state = .busy := by decide

theorem witness_HostReadsOfObuf : Inv finished ∧ 3 < finished.params.obufCap ∧ finished.status.state = .done ∧
    3 < finished.dstLen.toNat ∧ finished.dstLen.toNat ≤ 4 ∧ (Inv beforeTail ∧ beforeTail.status.state ≠ .done) :=
  ⟨inv_finished, by decide, rfl, by decide, by decide, inv_beforeTail, by decide⟩

theorem witness_SmallestBlockDeliversB64enc : 2 * p1.nmax ≤ 2 ∧ (1 : Nat) ≤ p1.nmax ∧ p1.nmax = 1 ∧ p1.supported = true ∧
    (ready p1 [0x66]).script = [] ∧ (ready p1 [0x66]).acceptsStart ∧ (ready p1 [0x66]).srcLen = 1 :=
  ⟨by decide, by decide, rfl, by decide, rfl, ⟨.inl rfl, by decide⟩, by decide⟩

end Sys2Proof.Tests
end

section
/-! PROOFS. The layout of `STATUS` (10_state.md R23): obligation O8. -/

namespace Sys2Proof.Machine

/-- A slice of the `STATUS` word is a slice of its eight fields, with the width still written as their
sum, so that the library's rules for slices of an append apply. -/
theorem Status.extractLsb'_word (t : Status) (start len : Nat) :
    t.word.extractLsb' start len =
      ((0 : BitVec 18) ++ t.op.op ++ (0 : BitVec 2) ++ t.pad ++ (0 : BitVec 2) ++ t.errKind.code
        ++ (0 : BitVec 1) ++ t.state.code).extractLsb' start len := rfl

/-- Each slice at a field's bits skips the fields below it and is then that field (10_state.md R23). -/
theorem Status.word_fields (t : Status) :
    t.word.extractLsb' 0 3 = t.state.code ∧
    t.word.extractLsb' 3 1 = 0 ∧
    t.word.extractLsb' 4 2 = t.errKind.code ∧
    t.word.extractLsb' 6 2 = 0 ∧
    t.word.extractLsb' 8 2 = t.pad ∧
    t.word.extractLsb' 10 2 = 0 ∧
    t.word.extractLsb' 12 2 = t.op.op ∧
    t.word.extractLsb' 14 18 = 0 := by
  simp (disch := decide) only [Status.extractLsb'_word, BitVec.extractLsb'_append_eq_of_le,
    BitVec.extractLsb'_append_eq_right, BitVec.extractLsb'_eq_self, Nat.reduceSub, and_self]

theorem StatusOk.pad_eq_zero {s : State} (h : StatusOk s) (hop : s.status.op ≠ .b64dec) :
    s.status.pad = 0 := by
  by_contra hpad
  exact hop (h.padOnlyB64dec hpad)

/-- Settles O8: the fields are those of `Status.word_fields`, whose codes are the tables of the
statement; the facts about reachable values are the `STATUS` part of the invariant. -/
theorem statusRegisterLayout : Obligations.StatusRegisterLayout :=
  ⟨fun t => t.word_fields, fun _ hinv =>
    ⟨hinv.status.errKindIff, hinv.status.padLe, hinv.status.pad_eq_zero⟩⟩

end Sys2Proof.Machine
end

section
/-! PROOFS. The engine stays inside its buffers (20_memory.md R58, 41_engine.md R115): obligation O20. -/

namespace Sys2Proof.Machine

/-- ENTRY has a step in every state: its only loads are those of padding detection, which lie below `N`. -/
theorem entryStep_succeeds (s : State) : ∃ t, entryStep s = .ok t := by
  cases hs : s.params.supported with
  | false => exact ⟨_, entryStep_fatal hs⟩
  | true =>
    cases hl : lengthBad s.eng.opl s.eng.n with
    | true => exact ⟨_, entryStep_lengthError hs hl⟩
    | false => exact ⟨_, entryStep_entered hs hl⟩

/-- The chunk of a transform step fits the bounds of `MemRead` and `MemWrite`, so the step exists. -/
theorem transformStep_succeeds {s : State} (hsub : s.transforming) (hz : Sized s) (hc : CursorsOk s) :
    ∃ t, engineStep s = .ok t := by
  by_cases hle : s.eng.idx + s.stepIn ≤ s.eng.neff
  · exact ⟨_, engineStep_full hsub hz.supported (fits_full hz hc hle) hle⟩
  · have hlt : s.eng.neff < s.eng.idx + s.stepIn := Nat.lt_of_not_le hle
    by_cases hzero : s.eng.neff - s.eng.idx = 0
    · exact ⟨_, engineStep_tail_zero hsub hlt hzero⟩
    · exact ⟨_, engineStep_tail hsub hz.supported (fits_tail hz hc) hlt hzero⟩

theorem Inv.engineStep_succeeds {s : State} (h : Inv s) (hb : s.status.state = .busy) :
    ∃ t, engineStep s = .ok t := by
  have transform (hsub : s.transforming) : ∃ t, engineStep s = .ok t :=
    have ⟨hz, hc⟩ := h.transforming hb hsub
    transformStep_succeeds hsub hz hc
  cases hsub : s.eng.sub with
  | entry => exact engineStep_entry hsub ▸ entryStep_succeeds s
  | scalar => exact transform (.inl hsub)
  | vector => exact transform (.inr hsub)
  | finish => exact ⟨_, engineStep_finish hsub⟩

/-- After ENTRY the sizes stay as ENTRY computed them, up to FINISH (41_engine.md R108). -/
theorem EngineOk.sized {s : State} (h : EngineOk s) (hsub : s.eng.sub ≠ .entry) : Sized s := by
  cases hs : s.eng.sub with
  | entry => exact absurd hs hsub
  | scalar => exact (h.transform (.inl hs)).1
  | vector => exact (h.transform (.inr hs)).1
  | finish => exact (h.finish hs).1

/-- Settles O20: the step exists by `Inv.engineStep_succeeds`; its chunk lies in bounds by `fits_full` and
`fits_tail`, which rest on the exact filling of the output (`cursors_fill`); `OLEN` fits by `Sized.olenFits`. -/
theorem engineStaysInsideItsBuffers : Obligations.EngineStaysInsideItsBuffers := by
  intro s h hb
  have he := h.engine hb
  refine ⟨h.engineStep_succeeds hb, fun hsub => ?_, he.nLe, fun hsub => (he.sized hsub).olenFits⟩
  obtain ⟨hz, hc⟩ := h.transforming hb hsub
  refine ⟨fun hle => ?_, fun _ => ?_⟩
  · have hfit := fits_full hz hc hle
    exact ⟨hfit.read, tailOut_step s ▸ hfit.write⟩
  · have hfit := fits_tail hz hc
    exact ⟨hfit.read, hfit.write⟩

end Sys2Proof.Machine
end

section
/-! PROOFS. The CTRL word (30_encoding.md R70 to R75): obligations O1 and O2. -/

namespace Sys2Proof

/-! ### The fields of a word (30_encoding.md R70) -/

/-- A CTRL word is its reserved bits, its `OP` and its `START` side by side. -/
theorem ctrlWord_eq_fields (w : Word) :
    w.extractLsb' 3 29 ++ w.extractLsb' 1 2 ++ w.extractLsb' 0 1 = w :=
  calc w.extractLsb' 3 29 ++ w.extractLsb' 1 2 ++ w.extractLsb' 0 1
    _ = w.extractLsb' 1 31 ++ w.extractLsb' 0 1 :=
      congrArg (· ++ w.extractLsb' 0 1) (BitVec.extractLsb'_append_extractLsb'_eq_extractLsb' rfl)
    _ = w.extractLsb' 0 32 := BitVec.extractLsb'_append_extractLsb'_eq_extractLsb' rfl
    _ = w := BitVec.extractLsb'_eq_self

theorem startField_eq_one {w : Word} (h : w.getLsbD 0 = true) : w.extractLsb' 0 1 = 1 := by
  rwa [BitVec.getLsbD_eq_extractLsb', beq_iff_eq] at h

@[simp] theorem op_opCommand : ∀ op : BitVec 2, (opCommand op).op = op := by decide

theorem encode_fields (i : Instr) : Laws.Encoding.Statement i := by
  cases i with
  | b64enc => exact Laws.Encoding.b64enc
  | b64dec => exact Laws.Encoding.b64dec
  | hexenc => exact Laws.Encoding.hexenc
  | hexdec => exact Laws.Encoding.hexdec

/-! ### The three answers of the decoder (30_encoding.md R72 to R74) -/

theorem decode_reserved {w : Word} (hres : w.extractLsb' 3 29 ≠ 0) :
    decode w = .error .reservedBits :=
  if_pos hres

theorem decode_startClear {w : Word} (hres : w.extractLsb' 3 29 = 0) (hstart : w.getLsbD 0 = false) :
    decode w = .error .startClear := by
  simp only [decode, hres, hstart, ne_eq, not_true_eq_false, Bool.false_eq_true, if_false]

theorem decode_command {w : Word} (hres : w.extractLsb' 3 29 = 0) (hstart : w.getLsbD 0 = true) :
    decode w = .ok (opCommand (w.extractLsb' 1 2)) := by
  simp only [decode, hres, hstart, ne_eq, not_true_eq_false, if_true, if_false]

theorem decode_encode (i : Instr) : decode (encode i) = .ok i := by
  obtain ⟨hstart, hop, hres, hname⟩ := encode_fields i
  rw [decode_command hres hstart, hop, hname]

/-- A word decodes to no other command than the one whose encoding it is: the mask of every row of
the table is all ones (30_encoding.md R72). -/
theorem encode_of_decode {w : Word} {i : Instr} (h : decode w = .ok i) : encode i = w := by
  by_cases hres : w.extractLsb' 3 29 = 0
  · cases hstart : w.getLsbD 0 with
    | false => cases (decode_startClear hres hstart).symm.trans h
    | true =>
      cases (decode_command hres hstart).symm.trans h
      rw [encode, op_opCommand, ← hres, ← startField_eq_one hstart]
      exact ctrlWord_eq_fields w
  · cases (decode_reserved hres).symm.trans h

theorem decode_eq_ok_iff {w : Word} {i : Instr} : decode w = .ok i ↔ w = encode i :=
  ⟨fun h => (encode_of_decode h).symm, fun h => h ▸ decode_encode i⟩

/-- Settles O1: a word decodes to a command exactly when it is that command's encoding
(`decode_eq_ok_iff`), and the four encodings are the words of the table; the columns are closed facts. -/
theorem commandWordsAreExactlyTheTable : Obligations.CommandWordsAreExactlyTheTable :=
  ⟨fun _ => decode_eq_ok_iff, fun _ => decode_eq_ok_iff, fun _ => decode_eq_ok_iff,
    fun _ => decode_eq_ok_iff, by decide, by decide, by decide⟩

namespace Machine

/-! ### What a CTRL write that is no command does (30_encoding.md R73, R74) -/

theorem hostAct_writeCtrl_startClear {w : Word} (s : State) (hres : w.extractLsb' 3 29 = 0)
    (hstart : w.getLsbD 0 = false) : hostAct (.write 0 w) s = .next s := by
  simp only [hostAct, regOfNumber, writeReg, writeCtrl, decode_startClear hres hstart]

theorem hostAct_writeCtrl_reserved {w : Word} (s : State) (hres : w.extractLsb' 3 29 ≠ 0) :
    hostAct (.write 0 w) s = .refused .reservedCommand := by
  simp only [hostAct, regOfNumber, writeReg, writeCtrl, decode_reserved hres]

/-- Settles O2: the three clauses are the three answers of the decoder; `opCommand` keeps the `OP`
field, and the four words of R73 have the reserved bits and `START` clear. -/
theorem otherCtrlWordsDoNothingOrAreRefused : Obligations.OtherCtrlWordsDoNothingOrAreRefused := by
  refine ⟨fun w hres hstart => ⟨_, decode_command hres hstart, op_opCommand _⟩, fun s w hw => ?_,
    fun s _ => hostAct_writeCtrl_reserved s⟩
  obtain ⟨hres, hstart⟩ : w.extractLsb' 3 29 = 0 ∧ w.getLsbD 0 = false := by
    rcases hw with rfl | rfl | rfl | rfl <;> decide
  exact hostAct_writeCtrl_startClear s hres hstart

end Machine

end Sys2Proof
end

section
/-! PROOFS. The loads, the stores and the valid mask (40_lane_vector.md R86 to R90): obligation O48. -/

namespace Sys2Proof.Machine

theorem loadMask_eq {s : State} {o n : Nat} (hn : n ≤ s.params.L) (ho : o + n ≤ s.eng.n) :
    loadMask s o n = .ok (s.ibufBytes o n ++ List.replicate (s.params.L - n) 0) := by
  simp only [loadMask, if_pos hn, memRead_eq ho]

theorem storeFull_eq {s : State} {o : Nat} {v : Lane} (hv : v.length = s.params.L) :
    storeFull s o v = memWrite s o v :=
  if_pos hv

theorem storeMask_eq {s : State} {o n : Nat} {v : Lane} (hv : v.length = s.params.L)
    (hn : n ≤ s.params.L) : storeMask s o v n = memWrite s o (v.take n) :=
  if_pos ⟨hv, hn⟩

/-- Zero fill of the inactive positions (40_lane_vector.md R87). -/
theorem State.getElem?_ibufBytes_zeroFill (s : State) (o n : Nat) {L i : Nat} (hi : i < L) :
    (s.ibufBytes o n ++ List.replicate (L - n) 0)[i]? =
      some (if i < n then s.ibufByte (o + i) else 0) := by
  by_cases hin : i < n
  · rw [List.getElem?_append_left (by simpa using hin), State.getElem?_ibufBytes, if_pos hin, if_pos hin]
  · rw [List.getElem?_append_right (by simpa using hin), State.length_ibufBytes,
      List.getElem?_replicate_of_lt (by omega), if_neg hin]

/-- What OBUF holds after a store of the first `n` bytes of `v`: those bytes, and every other byte as it was. -/
theorem memWrite_take_read? {s : State} {o n : Nat} {v : List Byte} (hn : n ≤ v.length)
    (ho : o + n ≤ s.eng.olen) : ∃ t, memWrite s o (v.take n) = .ok t ∧
      ∀ a, t.obuf.read? a = if o ≤ a ∧ a < o + n then v[a - o]? else s.obuf.read? a := by
  have hlen : (v.take n).length = n := List.length_take_of_le hn
  refine ⟨_, memWrite_eq (by rwa [hlen]), fun a => ?_⟩
  rw [Memory.read?_writeBytes, hlen]
  by_cases ha : o ≤ a ∧ a < o + n
  · rw [if_pos ha, if_pos ha, List.getElem?_take_of_lt (by omega)]
  · rw [if_neg ha, if_neg ha]

theorem getElem?_valid {L i : Nat} (n : Nat) (hi : i < L) : (valid L n)[i]? = some (decide (i < n)) := by
  rw [valid, List.getElem?_map, List.getElem?_range hi, Option.map_some]

/-- Settles O48: a load is the bytes of `MemRead` with zero fill; a full store is the store of all `L`
bytes of the lane, so both stores are `memWrite_take_read?`. -/
theorem laneLoadsAndStores : Obligations.LaneLoadsAndStores := by
  intro s o n
  refine ⟨fun ho => memRead_eq ho, fun hn ho => ⟨_, loadMask_eq hn ho, ?_, fun i hi => ?_⟩,
    fun v hv => ⟨fun ho => ?_, fun hn ho => ?_⟩, fun i hi => getElem?_valid n hi⟩
  · simp [hn]
  · exact s.getElem?_ibufBytes_zeroFill o n hi
  · simpa only [storeFull_eq hv, List.take_of_length_le hv.le] using memWrite_take_read? hv.ge ho
  · rw [storeMask_eq hv hn]
    exact memWrite_take_read? (hv.symm ▸ hn) ho

end Sys2Proof.Machine
end

section
/-! PROOFS. The elementwise primitives and the table lookup (40_lane_vector.md R91 to R95): obligations
O49 and O50. -/

namespace Sys2Proof.Machine

/-! ### One position of an elementwise operation (40_lane_vector.md R102) -/

theorem getElem?_zipWith_of_some {α β γ : Type} {a : List α} {b : List β} {i : Nat} {x : α} {y : β}
    (hx : a[i]? = some x) (hy : b[i]? = some y) (f : α → β → γ) :
    (List.zipWith f a b)[i]? = some (f x y) :=
  List.getElem?_zipWith_eq_some.2 ⟨x, y, hx, hy, rfl⟩

theorem getElem?_map_of_some {α β : Type} {a : List α} {i : Nat} {x : α} (hx : a[i]? = some x)
    (f : α → β) : (a.map f)[i]? = some (f x) := by
  rw [List.getElem?_map, hx, Option.map_some]

/-! ### Bytes as numbers (40_lane_vector.md R92, R93) -/

theorem toNat_byte_sub (x y : Byte) : (x - y).toNat = (256 + x.toNat - y.toNat) % 256 := by
  rw [BitVec.toNat_sub]
  omega

theorem toNat_byte_saturatingSub (x y : Byte) :
    (if y.toNat ≤ x.toNat then x - y else 0).toNat = x.toNat - y.toNat := by
  by_cases h : y.toNat ≤ x.toNat
  · rw [if_pos h, BitVec.toNat_sub_of_le h]
  · rw [if_neg h, Nat.sub_eq_zero_of_le (by omega)]
    rfl

theorem toNat_byte_shiftLeft (x : Byte) (k : Nat) : (x <<< k).toNat = x.toNat * 2 ^ k % 256 := by
  rw [BitVec.toNat_shiftLeft, Nat.shiftLeft_eq]

theorem toNat_byte_shiftRight (x : Byte) (k : Nat) : (x >>> k).toNat = x.toNat / 2 ^ k := by
  rw [BitVec.toNat_ushiftRight, Nat.shiftRight_eq_div_pow]

theorem toNat_byte_and_0x0F (x : Byte) : (x &&& 0x0F).toNat = x.toNat % 16 := by
  rw [BitVec.toNat_and]
  exact Nat.and_two_pow_sub_one_eq_mod x.toNat 4

theorem byte_bit7_eq_decide (x : Byte) : x.getLsbD 7 = decide (128 ≤ x.toNat) :=
  x.msb_eq_getLsbD_last.symm.trans x.msb_eq_decide

/-! ### The shifts (40_lane_vector.md R92) -/

theorem shl_eq {k : Nat} (a : Lane) (hk : k ≤ 7) : shl a k = some (a.map (fun x : Byte => x <<< k)) :=
  if_pos hk

theorem shr_eq {k : Nat} (a : Lane) (hk : k ≤ 7) : shr a k = some (a.map (fun x : Byte => x >>> k)) :=
  if_pos hk

theorem shl_eq_none {k : Nat} (a : Lane) (hk : 8 ≤ k) : shl a k = none := if_neg (by omega)

theorem shr_eq_none {k : Nat} (a : Lane) (hk : 8 ≤ k) : shr a k = none := if_neg (by omega)

theorem shifts_at {a : Lane} {i k : Nat} {x : Byte} (hx : a[i]? = some x) (hk : k ≤ 7) :
    ∃ l r, shl a k = some l ∧ shr a k = some r ∧
      (l[i]?.map BitVec.toNat) = some (x.toNat * 2 ^ k % 256) ∧
      (r[i]?.map BitVec.toNat) = some (x.toNat / 2 ^ k) := by
  refine ⟨_, _, shl_eq a hk, shr_eq a hk, ?_, ?_⟩
  · rw [getElem?_map_of_some hx, Option.map_some, toNat_byte_shiftLeft]
  · rw [getElem?_map_of_some hx, Option.map_some, toNat_byte_shiftRight]

/-- Settles O49: every elementwise primitive is a `map` or a `zipWith`, so its position `i` is its byte
function at position `i`; the arithmetic ones are then read as natural numbers. -/
theorem elementwisePrimitives : Obligations.ElementwisePrimitives := by
  refine ⟨fun m n i p q hp hq => ?_, fun a b i x y hx hy => ?_⟩
  · have two (f : Bool → Bool → Bool) := getElem?_zipWith_of_some hp hq f
    exact ⟨getElem?_map_of_some hp _, two _, two _, two _, two _, getElem?_map_of_some hp _⟩
  · have two {β : Type} (f : Byte → Byte → β) := getElem?_zipWith_of_some hx hy f
    have number {f : Byte → Byte → Byte} {k : Nat} (hf : (f x y).toNat = k) :
        (List.zipWith f a b)[i]?.map BitVec.toNat = some k := by
      rw [two, Option.map_some, hf]
    exact ⟨two _, two _, two _, number (BitVec.toNat_add x y), number (toNat_byte_sub x y),
      number (toNat_byte_saturatingSub x y), two _, two _, two _, two _, getElem?_map_of_some hx _,
      fun k hk => shifts_at hx hk, fun k hk => ⟨shl_eq_none a hk, shr_eq_none a hk⟩⟩

/-! ### Table lookup (40_lane_vector.md R95) -/

/-- The check `LOOKUP16` makes of its indices, bit 7 clear, as a bound (93_implementation_defined.md U11). -/
theorem lookup16_indices_all (idx : Lane) :
    idx.all (fun x => !x.getLsbD 7) = true ↔ ∀ x ∈ idx, x.toNat < 128 := by
  simp only [List.all_eq_true, byte_bit7_eq_decide, Bool.not_eq_true', decide_eq_false_iff_not, Nat.not_le]

theorem lookup16_eq {t idx : Lane} (hlen : t.length = idx.length) (h16 : t.length % 16 = 0)
    (hidx : ∀ x ∈ idx, x.toNat < 128) :
    lookup16 t idx =
      some (idx.mapIdx (fun i x => t.getD (16 * (i / 16) + (x &&& 0x0F).toNat) 0)) :=
  if_pos ⟨hlen, h16, (lookup16_indices_all idx).2 hidx⟩

theorem lookup16_eq_none {t idx : Lane} (hidx : ∃ x ∈ idx, 128 ≤ x.toNat) : lookup16 t idx = none := by
  obtain ⟨x, hx, hbit⟩ := hidx
  exact if_neg fun ⟨_, _, hall⟩ => absurd ((lookup16_indices_all idx).1 hall x hx) (Nat.not_lt.2 hbit)

/-- Settles O50: in whole groups of 16, the entry looked up lies in the table, so the default of `getD`
is never used. -/
theorem lookup16ReadsItsOwnGroup : Obligations.Lookup16ReadsItsOwnGroup := by
  intro t idx hlen h16
  refine ⟨fun hidx => ⟨_, lookup16_eq hlen h16 hidx, List.length_mapIdx, fun i x hx => ?_⟩, lookup16_eq_none⟩
  have hi : i < idx.length := (List.getElem?_eq_some_iff.1 hx).1
  have hentry : 16 * (i / 16) + x.toNat % 16 < t.length := by omega
  rw [List.getElem?_mapIdx, hx, Option.map_some, toNat_byte_and_0x0F, List.getD_eq_getElem _ _ hentry,
    List.getElem?_eq_getElem hentry]

end Sys2Proof.Machine
end

section
/-! PROOFS. The operations that move bytes between positions, and the first failing position
(40_lane_vector.md R96, R98, R99): obligations O51, O52 and O53. -/

namespace Sys2Proof.Machine

/-! ### The slides (40_lane_vector.md R96) -/

theorem slideUp_eq {a : Lane} {k : Nat} (hk : k ≤ a.length) :
    slideUp a k = some (List.replicate k 0 ++ a.take (a.length - k)) :=
  if_pos hk

theorem slideDown_eq {a : Lane} {k : Nat} (hk : k ≤ a.length) :
    slideDown a k = some (a.drop k ++ List.replicate k 0) :=
  if_pos hk

theorem getElem?_slidUp (a : Lane) (k : Nat) {i : Nat} (hi : i < a.length) :
    (List.replicate k 0 ++ a.take (a.length - k))[i]? = if k ≤ i then a[i - k]? else some 0 := by
  by_cases h : k ≤ i
  · rw [if_pos h, List.getElem?_append_right (by simpa using h), List.length_replicate,
      List.getElem?_take_of_lt (by omega)]
  · rw [if_neg h, List.getElem?_append_left (by simpa using h), List.getElem?_replicate_of_lt (by omega)]

theorem getElem?_slidDown (a : Lane) (k : Nat) {i : Nat} (hi : i < a.length) :
    (a.drop k ++ List.replicate k 0)[i]? = if i + k < a.length then a[i + k]? else some 0 := by
  by_cases h : i + k < a.length
  · rw [if_pos h, List.getElem?_append_left (by rw [List.length_drop]; omega), List.getElem?_drop, Nat.add_comm]
  · rw [if_neg h, List.getElem?_append_right (by rw [List.length_drop]; omega),
      List.getElem?_replicate_of_lt (by rw [List.length_drop]; omega)]

/-- Settles O51: each slide is an append of the moved bytes and the zeros, so a position lies either in
the one part or in the other. -/
theorem slidesMoveAndZeroFill : Obligations.SlidesMoveAndZeroFill := by
  intro a k
  refine ⟨fun hk => ⟨_, _, slideUp_eq hk, slideDown_eq hk, ?_, ?_, fun i => getElem?_slidUp a k,
    fun i => getElem?_slidDown a k⟩, fun hk => ⟨if_neg (Nat.not_le.2 hk), if_neg (Nat.not_le.2 hk)⟩⟩
  · simp [hk]
  · simp [hk]

/-! ### Interleave and deinterleave (40_lane_vector.md R98) -/

/-- The even and the odd positions of a riffle are the two lanes it was made of. -/
theorem riffle_halves {h l : Lane} (hlen : h.length = l.length) :
    evens (riffle h l) = h ∧ odds (riffle h l) = l ∧ (riffle h l).length = 2 * h.length := by
  induction h generalizing l with
  | nil =>
    obtain rfl := List.eq_nil_of_length_eq_zero hlen.symm
    exact ⟨rfl, rfl, rfl⟩
  | cons a h ih =>
    obtain ⟨b, l, rfl⟩ := List.exists_cons_of_length_eq_add_one hlen.symm
    obtain ⟨heven, hodd, hsize⟩ := ih (Nat.succ.inj hlen)
    simp only [riffle, evens, odds, heven, hodd, List.length_cons, hsize, true_and]
    omega

theorem riffle_evens_odds (s : List Byte) (h2 : s.length % 2 = 0) : riffle (evens s) (odds s) = s := by
  induction s using evens.induct with
  | case1 a b s ih =>
    rw [evens, odds, riffle, ih (by simpa [Nat.add_assoc] using h2)]
  | case2 a => cases h2
  | case3 => rfl

theorem length_evens (s : List Byte) : (evens s).length = (s.length + 1) / 2 := by
  induction s using evens.induct with
  | case1 a b s ih =>
    rw [evens, List.length_cons, ih, List.length_cons, List.length_cons]
    omega
  | case2 a => simp [evens]
  | case3 => rfl

/-- The two lanes of `INTERLEAVE`, side by side, are the whole interleaved sequence. -/
theorem interleave_append (h l : Lane) : (interleave h l).1 ++ (interleave h l).2 = riffle h l :=
  List.take_append_drop h.length (riffle h l)

theorem length_interleave {h l : Lane} (hlen : h.length = l.length) :
    (interleave h l).1.length = h.length ∧ (interleave h l).2.length = h.length := by
  obtain ⟨-, -, hsize⟩ := riffle_halves hlen
  simp only [interleave, List.length_take, List.length_drop, hsize]
  omega

theorem interleave_deinterleave {s0 s1 : Lane} (hlen : s0.length = s1.length) :
    interleave (deinterleave s0 s1).1 (deinterleave s0 s1).2 = (s0, s1) := by
  have hboth : (s0 ++ s1).length = 2 * s0.length := by rw [List.length_append]; omega
  have hhalf : (evens (s0 ++ s1)).length = s0.length := by rw [length_evens]; omega
  rw [interleave, deinterleave, riffle_evens_odds _ (by omega), hhalf, List.take_left, List.drop_left]

/-- Settles O52: the interleaved sequence has the two lanes at its even and odd positions
(`riffle_halves`), and a sequence of even length is the riffle of its halves (`riffle_evens_odds`). -/
theorem interleaveAndDeinterleave : Obligations.InterleaveAndDeinterleave := by
  refine ⟨fun h l hlen => ?_, fun s0 s1 => interleave_deinterleave⟩
  obtain ⟨heven, hodd, -⟩ := riffle_halves hlen
  obtain ⟨hfst, hsnd⟩ := length_interleave hlen
  refine ⟨fun i _ => ⟨?_, ?_⟩, hfst, hsnd, ?_⟩
  · rw [interleave_append, ← getElem?_evens, heven]
  · rw [interleave_append, ← getElem?_odds, hodd]
  · rw [deinterleave, interleave_append, heven, hodd]

/-! ### The first failing position (40_lane_vector.md R99) -/

theorem find?_range_eq_some_iff {fails : Nat → Bool} {n p : Nat} :
    (List.range n).find? fails = some p ↔ p < n ∧ fails p = true ∧ ∀ q < p, fails q = false := by
  simp only [List.find?_range_eq_some, List.mem_range, Bool.not_eq_true', and_left_comm]

/-- On the low side, position `q` is odd, so `q / 2` is the `(q - 1) / 2` of the rule. -/
theorem firstFail2_eq (mh ml : Mask) (n : Nat) : firstFail2 mh ml n = (List.range n).find?
    (fun q => if q % 2 = 0 then mh.getD (q / 2) false else ml.getD ((q - 1) / 2) false) := by
  refine congrArg (List.find? · (List.range n)) (funext fun q => ?_)
  by_cases hq : q % 2 = 0
  · rw [if_pos hq, if_pos hq]
  · rw [if_neg hq, if_neg hq, show q / 2 = (q - 1) / 2 by omega]

/-- Settles O53: both are the first hit of a search through the positions below `n`. -/
theorem firstFailIsTheLeast : Obligations.FirstFailIsTheLeast :=
  ⟨fun _ _ _ => find?_range_eq_some_iff,
    fun mh ml n _ => firstFail2_eq mh ml n ▸ find?_range_eq_some_iff⟩

end Sys2Proof.Machine
end

section
/-! PROOFS. The full and the tail transform step, by outcome of the validation (41_engine.md R110, R111):
obligations O13 and O14. -/

namespace Sys2Proof.Machine

/-! ### The two ends of a chunk -/

theorem State.getD_ibufBytes (s : State) (o : Nat) {n p : Nat} (hp : p < n) :
    (s.ibufBytes o n).getD p 0 = s.ibufByte (o + p) := by
  rw [List.getD_eq_getElem?_getD, State.getElem?_ibufBytes, if_pos hp, Option.getD_some]

theorem lt_of_failPos_ibufBytes {i : Instr} {s : State} {o n p : Nat}
    (hf : failPos i (s.ibufBytes o n) = some p) : p < n :=
  State.length_ibufBytes s o n ▸ failPos_lt hf

theorem chunkSpec_invalid {s : State} {n p : Nat}
    (hf : failPos s.eng.opl (s.ibufBytes s.eng.idx n) = some p) :
    chunkSpec s n = .invalid p (s.ibufByte (s.eng.idx + p)) := by
  rw [← s.getD_ibufBytes s.eng.idx (lt_of_failPos_ibufBytes hf)]
  simp only [chunkSpec, hf]

theorem chunkSpec_valid {s : State} {n : Nat}
    (hf : failPos s.eng.opl (s.ibufBytes s.eng.idx n) = none) :
    chunkSpec s n =
      .stored { s with obuf := s.obuf.writeBytes s.eng.odx (xform s.eng.opl (s.ibufBytes s.eng.idx n)) } := by
  simp only [chunkSpec, hf]

/-! ### The full step (41_engine.md R110) -/

theorem engineStep_full_invalid {s : State} {p : Nat} (hsub : s.transforming)
    (hs : s.params.supported = true) (hfit : ChunkFits s s.stepIn)
    (hle : s.eng.idx + s.stepIn ≤ s.eng.neff)
    (hf : failPos s.eng.opl (s.ibufBytes s.eng.idx s.stepIn) = some p) :
    engineStep s = .ok (raise (.codecError (s.eng.idx + p) (s.ibufByte (s.eng.idx + p))) s) := by
  rw [engineStep_full hsub hs hfit hle, chunkSpec_invalid hf, afterChunk]

theorem engineStep_full_valid {s : State} (hsub : s.transforming) (hs : s.params.supported = true)
    (hfit : ChunkFits s s.stepIn) (hle : s.eng.idx + s.stepIn ≤ s.eng.neff)
    (hf : failPos s.eng.opl (s.ibufBytes s.eng.idx s.stepIn) = none) :
    engineStep s = .ok s.afterFull := by
  rw [engineStep_full hsub hs hfit hle, chunkSpec_valid hf]
  rfl

theorem even_stepIn {s : State} (ho : s.eng.opl = .hexdec) : s.stepIn % 2 = 0 := by
  rw [State.stepIn, ho]
  exact stepIn_even _ _

/-- Settles O13: the bounds of the statement are those of `ChunkFits`, so the chunk is carried out in
either path (`engineStep_full`); its end is `invalid` or `stored` as `failPos` says. -/
theorem fullStepTransformsOneChunk : Obligations.FullStepTransformsOneChunk := by
  intro s hs hsub hle hneff hout
  have hfit : ChunkFits s s.stepIn :=
    { read := by omega, write := by rwa [tailOut_step], even := even_stepIn }
  exact ⟨fun _ => engineStep_full_invalid hsub hs hfit hle, engineStep_full_valid hsub hs hfit hle⟩

/-! ### The tail step (41_engine.md R111) -/

/-- The state after the tail step over valid bytes, the empty tail included. -/
def State.afterTail (s : State) : State :=
  { s with
    obuf := s.obuf.writeBytes s.eng.odx (xform s.eng.opl s.rest)
    eng := { s.eng with
      idx := s.eng.neff
      odx := s.eng.odx + tailOut s.eng.opl (s.eng.neff - s.eng.idx)
      sub := .finish } }

theorem engineStep_tail_invalid {s : State} {p : Nat} (hsub : s.transforming)
    (hs : s.params.supported = true) (hfit : ChunkFits s (s.eng.neff - s.eng.idx))
    (hlt : s.eng.neff < s.eng.idx + s.stepIn) (hf : failPos s.eng.opl s.rest = some p) :
    engineStep s = .ok (raise (.codecError (s.eng.idx + p) (s.ibufByte (s.eng.idx + p))) s) := by
  have hpos : s.eng.neff - s.eng.idx ≠ 0 := Nat.ne_zero_of_lt (lt_of_failPos_ibufBytes hf)
  rw [engineStep_tail hsub hs hfit hlt hpos, chunkSpec_invalid hf, afterChunk]

theorem State.rest_eq_nil {s : State} (hzero : s.eng.neff - s.eng.idx = 0) : s.rest = [] := by
  rw [State.rest, hzero, State.ibufBytes, List.range_zero, List.map_nil]

/-- An empty tail stores no byte, so the step that touches no memory has the same end. -/
theorem State.afterTail_empty {s : State} (hzero : s.eng.neff - s.eng.idx = 0) :
    s.afterTail = s.advance s.eng.neff s.eng.odx .finish := by
  rw [State.afterTail, State.rest_eq_nil hzero, hzero, xform_nil, tailOut_zero]
  rfl

theorem engineStep_tail_valid {s : State} (hsub : s.transforming) (hs : s.params.supported = true)
    (hfit : ChunkFits s (s.eng.neff - s.eng.idx)) (hlt : s.eng.neff < s.eng.idx + s.stepIn)
    (hf : failPos s.eng.opl s.rest = none) : engineStep s = .ok s.afterTail := by
  by_cases hzero : s.eng.neff - s.eng.idx = 0
  · rw [engineStep_tail_zero hsub hlt hzero, State.afterTail_empty hzero]
  · rw [engineStep_tail hsub hs hfit hlt hzero, chunkSpec_valid hf]
    rfl

/-- Settles O14: the remainder is `NEFF - IDX`, its bounds are those of `ChunkFits`, and the two ends are
`engineStep_tail_invalid` and `engineStep_tail_valid`. -/
theorem tailStepTransformsTheRemainder : Obligations.TailStepTransformsTheRemainder := by
  intro s r hs hsub hlt hr hneff hout heven
  obtain rfl : s.eng.neff - s.eng.idx = r := by omega
  have hfit : ChunkFits s (s.eng.neff - s.eng.idx) :=
    { read := by omega, write := hout, even := heven }
  exact ⟨fun _ => engineStep_tail_invalid hsub hs hfit hlt, engineStep_tail_valid hsub hs hfit hlt⟩

end Sys2Proof.Machine
end

section
/-! PROOFS. START (41_engine.md R107): obligation O9. -/

namespace Sys2Proof.Machine

/-- The effect of every command is its START (log 4). -/
theorem exec_eq_start (i : Instr) (s : State) : exec i s = start i s := by
  cases i with
  | b64enc => rfl
  | b64dec => rfl
  | hexenc => rfl
  | hexdec => rfl

theorem exec_sourceTooLong {s : State} (i : Instr)
    (hstate : s.status.state = .idle ∨ s.status.state = .done ∨ s.status.state = .error)
    (hlen : s.params.nmax < s.srcLen.toNat) : exec i s = .refused .sourceTooLong := by
  have hlong : ¬ s.srcLen.toNat ≤ s.params.nmax := Nat.not_le_of_lt hlen
  rw [exec_eq_start, start]
  rcases hstate with h | h | h <;> simp only [h, hlong, if_false]

theorem exec_fatal {s : State} (i : Instr) (hstate : s.status.state = .fatal) : exec i s = .next s := by
  simp only [exec_eq_start, start, hstate]

theorem exec_busy {s : State} (i : Instr) (hstate : s.status.state = .busy) :
    exec i s = .refused .startWhileBusy := by
  simp only [exec_eq_start, start, hstate]

theorem hostAct_writeCtrl_command {w : Word} {i : Instr} (s : State) (hdecode : decode w = .ok i) :
    hostAct (.write 0 w) s = exec i s := by
  simp only [hostAct, regOfNumber, writeReg, writeCtrl, hdecode]

/-- Settles O9: `exec_accepted` is the latch-and-clear, the other states are the other branches of
`start`, and a word with these fields decodes to the command (`opCommand` inverts `Instr.op`). -/
theorem startLatchesAndClears : Obligations.StartLatchesAndClears := by
  intro i s
  refine ⟨fun hstate hlen => exec_accepted i ⟨hstate, hlen⟩, exec_sourceTooLong i, exec_fatal i,
    exec_busy i, fun w hstart hres hop => ?_⟩
  obtain ⟨-, -, -, hname⟩ := encode_fields i
  have hdecode := decode_command hres hstart
  rw [hop, hname] at hdecode
  exact hostAct_writeCtrl_command s hdecode

end Sys2Proof.Machine
end

section
/-! PROOFS. The step sizes (41_engine.md R106, R109) and the ENTRY step (R108): obligations O11 and O12. -/

namespace Sys2Proof.Machine

/-! ### Step sizes and remainders (41_engine.md R106, R109) -/

theorem vector_step_sizes {L : Nat} (hL : L % 4 = 0) :
    (stepIn L .vector .b64enc = 3 * L / 4 ∧ stepOut L .vector .b64enc = L) ∧
    (stepIn L .vector .b64dec = L ∧ stepOut L .vector .b64dec = 3 * L / 4) ∧
    (stepIn L .vector .hexenc = L ∧ stepOut L .vector .hexenc = 2 * L) ∧
    (stepIn L .vector .hexdec = 2 * L ∧ stepOut L .vector .hexdec = L) := by
  simp only [stepIn, stepOut, groups, vectorGroups, gIn, gOut, if_true, Nat.one_mul, and_true]
  omega

theorem stepIn_scalar (L : Nat) (i : Instr) : stepIn L .scalar i = gIn i := by
  simp [stepIn, groups]

theorem stepOut_scalar (L : Nat) (i : Instr) : stepOut L .scalar i = gOut i := by
  simp [stepOut, groups]

/-- The total length and the cursor are multiples of 4, and at most 2 padding characters are taken off,
so the remainder modulo 4 is 0, 3 or 2. -/
theorem rest_mod_four_ne_one {s : State} (hz : Sized s) (hc : CursorsOk s) (ho : s.eng.opl = .b64dec) :
    (s.eng.neff - s.eng.idx) % 4 ≠ 1 := by
  have hn : s.eng.n % 4 = 0 := lengthBad_b64dec (ho ▸ hz.lengthOk)
  have hidx : s.eng.idx % 4 = 0 := by simpa [ho, gIn] using hc.idxGroup
  have hpad := hz.padcLe
  have hneff := hz.neffEq
  have hle := hc.idxLe
  omega

/-- Settles O11: the table is `vector_step_sizes` and the scalar sizes; the remainders follow from what
the invariant says of a transforming state (`Sized`, `CursorsOk`). -/
theorem stepSizesOfEachCommand : Obligations.StepSizesOfEachCommand := by
  refine ⟨fun _ => vector_step_sizes, fun L i => ⟨stepIn_scalar L i, stepOut_scalar L i⟩,
    fun _ => ⟨rfl, rfl, rfl, rfl⟩, length_xform, fun s hinv hb hsub => ?_⟩
  obtain ⟨hz, hc⟩ := hinv.transforming hb hsub
  exact ⟨rest_mod_four_ne_one hz hc, rest_even hz hc⟩

/-! ### ENTRY (41_engine.md R108) -/

/-- The Padding Count of a long enough input, by its last two bytes (42_base64.md R151). -/
theorem paddingCount_ibufBytes (s : State) {n : Nat} (hn : 2 ≤ n) :
    paddingCount (s.ibufBytes 0 n) =
      if s.ibufByte (n - 1) = padChar then (if s.ibufByte (n - 2) = padChar then 2 else 1) else 0 := by
  have hne : s.ibufBytes 0 n ≠ [] := List.ne_nil_of_length_pos (by rw [State.length_ibufBytes]; omega)
  have hlast : n - 1 < n := by omega
  have hbefore : n - 2 < n := by omega
  simp only [paddingCount, hne, State.length_ibufBytes, State.getElem?_ibufBytes, hlast, hbefore,
    Nat.zero_add, Option.some.injEq, ne_eq, not_false_eq_true, true_and, if_true]

theorem entryPad_eq (s : State) :
    entryPad s = if s.eng.opl = .b64dec ∧ 4 ≤ s.eng.n ∧ s.ibufByte (s.eng.n - 1) = padChar
      then (if s.ibufByte (s.eng.n - 2) = padChar then 2 else 1) else 0 := by
  unfold entryPad
  by_cases h : s.eng.opl = .b64dec ∧ 4 ≤ s.eng.n
  · rw [if_pos h, paddingCount_ibufBytes s (by omega)]
    simp only [h, true_and]
  · rw [if_neg h, if_neg (fun hc => h ⟨hc.1, hc.2.1⟩)]

theorem lengthBad_eq_false {i : Instr} {n : Nat} (hhex : i = .hexdec → n % 2 = 0)
    (h64 : i = .b64dec → n % 4 = 0) : lengthBad i n = false := by
  cases i with
  | b64enc => rfl
  | b64dec => simp [lengthBad, h64 rfl]
  | hexenc => rfl
  | hexdec => simp [lengthBad, hhex rfl]

/-- Settles O12: the three ends of ENTRY are `entryStep_fatal`, `entryStep_lengthError` and
`entryStep_entered`; the Padding Count of the last is read off the last two bytes (`entryPad_eq`). -/
theorem entryChecksSizesAndSelects : Obligations.EntryChecksSizesAndSelects := by
  intro s hentry
  rw [engineStep_entry hentry, ← supported_iff]
  refine ⟨fun hs => entryStep_fatal (Bool.eq_false_iff.2 hs), fun hs => ⟨fun ho hn => ?_,
    fun ho hn => ?_, fun hhex h64 => ?_⟩⟩
  · exact entryStep_lengthError hs (by rw [ho]; exact bne_iff_ne.2 hn)
  · exact entryStep_lengthError hs (by rw [ho]; exact bne_iff_ne.2 hn)
  · exact ⟨entryPad s, outLen s.eng.opl s.eng.n (entryPad s), entryPad_eq s, rfl,
      entryStep_entered hs (lengthBad_eq_false hhex h64)⟩

end Sys2Proof.Machine
end

section
/-! PROOFS. A command from START to its end (41_engine.md R117, R118): obligation O23. -/

namespace Sys2Proof.Machine

/-! ### Runs of a BUSY engine -/

/-- `k` engine steps lead from `s` to `t`, and every state before `t` is BUSY. -/
structure BusyRun (k : Nat) (s t : State) : Prop where
  run : Host.Core.run core k s = .next t
  busy : ∀ j < k, ∃ v : State, Host.Core.run core j s = .next v ∧ v.status.state = .busy

theorem BusyRun.zero (s : State) : BusyRun 0 s s where
  run := run_zero s
  busy j hj := absurd hj (Nat.not_lt_zero j)

theorem BusyRun.cons {k : Nat} {s t u : State} (hb : s.status.state = .busy) (hstep : step s = .next t)
    (h : BusyRun k t u) : BusyRun (k + 1) s u where
  run := (run_succ k hstep).trans h.run
  busy j hj := by
    cases j with
    | zero => exact ⟨s, run_zero s, hb⟩
    | succ j => exact (run_succ j hstep).symm ▸ h.busy j (Nat.lt_of_succ_lt_succ hj)

/-! ### The loop stays BUSY up to its last step -/

theorem step_tail_valid {s : State} (h : LoopOk s) (hlt : s.eng.neff < s.eng.idx + s.stepIn)
    (hv : failPos s.eng.opl s.rest = none) : step s = .next s.afterTail :=
  step_engine h.script h.busy (engineStep_tail_valid h.sub h.supported h.fits_tail hlt hv)

theorem failPos_rest_of_chunk {s : State} {p : Nat} (hle : s.eng.idx + s.stepIn ≤ s.eng.neff)
    (hf : failPos s.eng.opl (s.ibufBytes s.eng.idx s.stepIn) = some p) :
    failPos s.eng.opl s.rest = some p := by
  rw [rest_eq_full hle, failPos_append, hf, Option.some_or]

/-- A full step over a valid chunk brings the first invalid byte nearer by `S_i`. -/
theorem failPos_rest_of_afterFull {s : State} {e : Nat} (hle : s.eng.idx + s.stepIn ≤ s.eng.neff)
    (hv : failPos s.eng.opl (s.ibufBytes s.eng.idx s.stepIn) = none)
    (hf : failPos s.eng.opl s.afterFull.rest = some e) :
    failPos s.eng.opl s.rest = some (e + s.stepIn) := by
  rw [rest_eq_full hle, failPos_append, hv, hf, State.length_ibufBytes]
  rfl

/-- Before the first invalid byte, the full steps and the tail step leave the engine BUSY. -/
theorem run_loop_busy (k : Nat) {s : State} (h : LoopOk s)
    (hk : k ≤ (s.eng.neff - s.eng.idx) / s.stepIn + 1)
    (hv : ∀ e, failPos s.eng.opl s.rest = some e → k * s.stepIn ≤ e) :
    ∃ v : State, Host.Core.run core k s = .next v ∧ v.status.state = .busy := by
  induction k generalizing s with
  | zero => exact ⟨s, run_zero s, h.busy⟩
  | succ k ih =>
    have hpos := h.stepIn_pos
    have hnear (e : Nat) (hf : failPos s.eng.opl s.rest = some e) : k * s.stepIn + s.stepIn ≤ e :=
      Nat.succ_mul k _ ▸ hv e hf
    by_cases hle : s.eng.idx + s.stepIn ≤ s.eng.neff
    · have hvalid : failPos s.eng.opl (s.ibufBytes s.eng.idx s.stepIn) = none := by
        refine Option.eq_none_iff_forall_ne_some.2 fun p hf => ?_
        have hfar := hnear p (failPos_rest_of_chunk hle hf)
        have hin := lt_of_failPos_ibufBytes hf
        omega
      rw [run_succ k (step_full_valid h hle hvalid)]
      have hquot : (s.eng.neff - s.eng.idx) / s.stepIn =
          (s.eng.neff - (s.eng.idx + s.stepIn)) / s.stepIn + 1 := by
        rw [← Nat.add_div_right _ hpos, Nat.sub_add_eq, Nat.sub_add_cancel (by omega)]
      refine ih (h.afterFull hle) (Nat.le_of_succ_le_succ (hquot ▸ hk)) fun e hf => ?_
      exact Nat.le_of_add_le_add_right (hnear _ (failPos_rest_of_afterFull hle hvalid hf))
    · have hshort : s.eng.neff - s.eng.idx < s.stepIn := by have := h.idxLe; omega
      have hvalid : failPos s.eng.opl s.rest = none := by
        refine Option.eq_none_iff_forall_ne_some.2 fun e hf => ?_
        have hfar := hnear e hf
        have hin := lt_of_failPos_ibufBytes hf
        omega
      obtain rfl : k = 0 := by rw [Nat.div_eq_of_lt hshort] at hk; omega
      rw [run_succ 0 (step_tail_valid h (Nat.lt_of_not_le hle) hvalid)]
      exact ⟨s.afterTail, run_zero _, h.busy⟩

theorem busyRun_loop_valid {s : State} (h : LoopOk s) (hv : failPos s.eng.opl s.rest = none) :
    BusyRun ((s.eng.neff - s.eng.idx) / s.stepIn + 2) s s.finished where
  run := run_loop_valid _ s h rfl hv
  busy k hk := run_loop_busy k h (Nat.le_of_lt_succ hk) fun e hf => by cases hv.symm.trans hf

theorem busyRun_loop_invalid {s : State} {e : Nat} (h : LoopOk s) (hv : failPos s.eng.opl s.rest = some e) :
    ∃ m idx odx, BusyRun (e / s.stepIn + 1) s (s.failedAt m idx odx e (s.ibufByte (s.eng.idx + e))) := by
  obtain ⟨m, idx, odx, hrun⟩ := run_loop_invalid _ s h e rfl hv
  refine ⟨m, idx, odx, hrun, fun k hk => run_loop_busy k h ?_ fun e' hf => ?_⟩
  · have hin : e / s.stepIn ≤ (s.eng.neff - s.eng.idx) / s.stepIn :=
      Nat.div_le_div_right (lt_of_failPos_ibufBytes hv).le
    omega
  · obtain rfl : e = e' := Option.some.inj (hv.symm.trans hf)
    exact (Nat.mul_le_mul_right _ (Nat.le_of_lt_succ hk)).trans (Nat.div_mul_le_self _ _)

/-! ### What the end of a run delivers (30_encoding.md R79) -/

theorem toNat_word_ofNat {n : Nat} (hn : n < 2 ^ 32) : (BitVec.ofNat 32 n).toNat = n := by
  rw [BitVec.toNat_ofNat, Nat.mod_eq_of_lt hn]

theorem raise_lengthError_delivers {s : State} (hdst : s.dstLen = 0) (hoff : s.errOffset = 0)
    (hbyte : s.errByte = 0) : (raise .lengthError s).delivers .lengthError :=
  ⟨rfl, rfl, hdst, hoff, hbyte⟩

theorem State.failedAt_delivers {s : State} {e : Nat} (m : Memory) (idx odx : Nat) (b : Byte)
    (hdst : s.dstLen = 0) (he : s.eng.idx + e < 2 ^ 32) :
    (s.failedAt m idx odx e b).delivers (.codecError (s.eng.idx + e) b) :=
  ⟨rfl, rfl, hdst, toNat_word_ofNat he, rfl⟩

theorem State.finished_delivers {s : State} (hkind : s.status.errKind = .none) (hoff : s.errOffset = 0)
    (hbyte : s.errByte = 0) (hodx : s.eng.odx = 0)
    (hsize : tailOut s.eng.opl (s.eng.neff - s.eng.idx) < 2 ^ 32) :
    s.finished.delivers (.ok (xform s.eng.opl s.rest)) := by
  have hlen : (xform s.eng.opl s.rest).length = tailOut s.eng.opl (s.eng.neff - s.eng.idx) := by
    rw [length_xform, State.rest, State.length_ibufBytes]
  have hdst : s.finished.dstLen.toNat = (xform s.eng.opl s.rest).length := by
    rw [hlen, State.finished, hodx, Nat.zero_add, toNat_word_ofNat hsize]
  refine ⟨rfl, hkind, hdst, hoff, hbyte, fun o => ?_⟩
  have hobuf : s.finished.obuf = s.obuf.writeBytes 0 (xform s.eng.opl s.rest) := by
    rw [State.finished, hodx]
  rw [State.obufDefined?, hdst, hobuf]
  by_cases ho : o < (xform s.eng.opl s.rest).length
  · rw [if_pos ⟨rfl, ho⟩, Memory.read?_writeBytes_inside _ _ _ _ (by omega), Nat.sub_zero]
  · rw [if_neg (fun h => ho h.2), List.getElem?_eq_none (Nat.le_of_not_lt ho)]

/-! ### The result and the number of steps, by the outcome of the checks (41_engine.md R118) -/

theorem commandSteps_of_ok {p : Params} {i : Instr} {b out : List Byte} (h : pureResult i b = .ok out) :
    commandSteps p i b =
      (b.length - (finalPad i b).toNat) / stepIn p.L (pathOf p b.length) i + 2 + 1 := by
  simp only [commandSteps, h]
  omega

theorem commandSteps_of_lengthError {p : Params} {i : Instr} {b : List Byte}
    (h : pureResult i b = .lengthError) : commandSteps p i b = 1 := by
  simp only [commandSteps, h]

theorem commandSteps_of_codecError {p : Params} {i : Instr} {b : List Byte} {e : Nat} {x : Byte}
    (h : pureResult i b = .codecError e x) :
    commandSteps p i b = e / stepIn p.L (pathOf p b.length) i + 1 + 1 := by
  simp only [commandSteps, h]
  omega

/-- The bytes that a command of sound length transforms: the input without its padding (R108). -/
def commandBody (i : Instr) (b : List Byte) : List Byte := b.take (b.length - (finalPad i b).toNat)

section
variable {i : Instr} {b : List Byte} (hl : lengthBad i b.length = false)
include hl

theorem pureResult_valid (hf : failPos i (commandBody i b) = none) :
    pureResult i b = .ok (xform i (commandBody i b)) := by
  rw [commandBody] at hf ⊢
  rw [pureResult_eq i b hl, hf]

theorem pureResult_invalid {e : Nat} (hf : failPos i (commandBody i b) = some e) :
    pureResult i b = .codecError e (b.getD e 0) := by
  rw [commandBody] at hf
  rw [pureResult_eq i b hl, hf]

end

/-! ### From START to the first transform step -/

theorem State.length_input (s : State) : s.input.length = s.srcLen.toNat := State.length_ibufBytes _ _ _

theorem State.getD_input {s : State} {e : Nat} (he : e < s.srcLen.toNat) :
    s.input.getD e 0 = s.ibufByte e := by
  rw [State.input, State.getD_ibufBytes s 0 he, Nat.zero_add]

/-- The state after START and ENTRY of a command of sound length: the sizes of R108 are in place. -/
def State.presized (s : State) (i : Instr) : State := (s.started i).entered (finalPad i s.input)

theorem State.presized_rest (s : State) (i : Instr) : (s.presized i).rest = commandBody i s.input := by
  rw [commandBody, State.length_input]
  exact entered_rest (s.started i) (finalPad i s.input)

section
variable {s : State} {i : Instr} (hs : s.params.supported = true) (hscript : s.script = [])
include hs hscript

theorem busyRun_lengthError (hl : lengthBad i s.srcLen.toNat = true) :
    BusyRun 1 (s.started i) (raise .lengthError (s.started i)) :=
  .cons rfl (step_engine hscript rfl ((engineStep_entry rfl).trans (entryStep_lengthError hs hl))) (.zero _)

theorem step_started (hl : lengthBad i s.srcLen.toNat = false) :
    step (s.started i) = .next (s.presized i) := by
  have hpad : entryPad (s.started i) = finalPad i s.input := finalPad_eq (s := s.started i) hl
  rw [State.presized, ← hpad]
  exact step_engine hscript rfl ((engineStep_entry rfl).trans (entryStep_entered hs hl))

theorem loopOk_presized (hl : lengthBad i s.srcLen.toNat = false) : LoopOk (s.presized i) := by
  have hpad : entryPad (s.started i) = finalPad i s.input := finalPad_eq (s := s.started i) hl
  rw [State.presized, ← hpad]
  exact loopOk_entered rfl hscript hs hl

end

/-! ### The three ends of a command -/

/-- How a command ends: after its steps, BUSY before, with its result delivered. -/
structure CommandEnds (s : State) (i : Instr) (u : State) : Prop where
  steps : BusyRun (commandSteps s.params i s.input) (s.started i) u
  result : u.delivers (pureResult i s.input)
  op : u.status.op = i
  pad : u.status.pad = finalPad i s.input

section
variable {s : State} {i : Instr} (hs : s.params.supported = true) (hscript : s.script = [])
include hs hscript

theorem commandEnds_lengthError (hl : lengthBad i s.srcLen.toNat = true) :
    CommandEnds s i (raise .lengthError (s.started i)) := by
  have hresult := pureResult_lengthError i s.input (s.length_input.symm ▸ hl)
  refine ⟨?_, ?_, rfl, ?_⟩
  · rw [commandSteps_of_lengthError hresult]
    exact busyRun_lengthError hs hscript hl
  · exact hresult ▸ raise_lengthError_delivers rfl rfl rfl
  · refine (if_neg ?_).symm
    rintro ⟨rfl, h4⟩
    rw [State.length_input] at h4
    exact bne_iff_ne.1 hl h4

theorem commandEnds_valid (hsize : outLen i s.srcLen.toNat (finalPad i s.input) < 2 ^ 32)
    (hl : lengthBad i s.srcLen.toNat = false) (hf : failPos i (commandBody i s.input) = none) :
    CommandEnds s i (s.presized i).finished := by
  have hrest := s.presized_rest i
  have hloop := loopOk_presized hs hscript hl
  have hresult := pureResult_valid (s.length_input.symm ▸ hl) hf
  refine ⟨?_, ?_, rfl, rfl⟩
  · rw [commandSteps_of_ok hresult, State.length_input]
    exact .cons rfl (step_started hs hscript hl) (busyRun_loop_valid hloop (hrest.symm ▸ hf))
  · rw [hresult, ← hrest]
    exact State.finished_delivers rfl rfl rfl rfl ((Nat.zero_add _ ▸ hloop.outFits).trans_lt hsize)

theorem commandEnds_invalid {e : Nat} (hl : lengthBad i s.srcLen.toNat = false)
    (hf : failPos i (commandBody i s.input) = some e) :
    ∃ m idx odx, CommandEnds s i ((s.presized i).failedAt m idx odx e (s.ibufByte e)) := by
  have hrest := s.presized_rest i
  obtain ⟨m, idx, odx, hrun⟩ := busyRun_loop_invalid (loopOk_presized hs hscript hl) (hrest.symm ▸ hf)
  have hbase : (s.presized i).eng.idx + e = e := Nat.zero_add e
  rw [hbase] at hrun
  have he : e < s.srcLen.toNat := by
    have hlt := failPos_lt hf
    rw [commandBody, List.length_take, State.length_input] at hlt
    omega
  have hresult := pureResult_invalid (s.length_input.symm ▸ hl) hf
  refine ⟨m, idx, odx, ?_, ?_, rfl, rfl⟩
  · rw [commandSteps_of_codecError hresult, State.length_input]
    exact .cons rfl (step_started hs hscript hl) hrun
  · rw [hresult, State.getD_input he]
    have hdel := State.failedAt_delivers (s := s.presized i) m idx odx (s.ibufByte e) rfl
      (hbase.symm ▸ he.trans s.srcLen.isLt)
    rwa [hbase] at hdel

theorem exists_commandEnds (hwf : s.params.wf = true) (hlen : s.srcLen.toNat ≤ s.params.nmax) :
    ∃ u, CommandEnds s i u := by
  cases hl : lengthBad i s.srcLen.toNat with
  | true => exact ⟨_, commandEnds_lengthError hs hscript hl⟩
  | false =>
    cases hf : failPos i (commandBody i s.input) with
    | none =>
      have hsize : outLen i s.srcLen.toNat (finalPad i s.input) < 2 ^ 32 :=
        (outLen_le_maxOutput hlen).trans_lt (maxOutput_lt hwf)
      exact ⟨_, commandEnds_valid hs hscript hsize hl hf⟩
    | some e =>
      obtain ⟨m, idx, odx, hend⟩ := commandEnds_invalid hs hscript hl hf
      exact ⟨_, hend⟩

end

/-- Settles O23: an accepted START begins the run (`exec_accepted`), and the run ends in one of three ways:
a length error at ENTRY, an invalid byte at some chunk of the loop, or FINISH (`exists_commandEnds`). -/
theorem runDeliversThePureFunction : Obligations.RunDeliversThePureFunction := by
  intro i s hwf hs hscript haccepts
  obtain ⟨u, hend⟩ := exists_commandEnds (i := i) hs hscript hwf haccepts.2
  exact ⟨s.started i, u, exec_accepted i haccepts, hend.steps.run, hend.result, hend.op, hend.pad,
    hend.steps.busy⟩

end Sys2Proof.Machine
end

section
/-! PROOFS. The alphabet and the bit order of the groups (42_base64.md R140 to R144, R149, R150): obligations
O32 to O35. -/

namespace Sys2Proof.Machine

/-! ### The alphabet (42_base64.md R140, R141) -/

theorem toNat_byte_ofNat {n : Nat} (hn : n < 256) : (BitVec.ofNat 8 n).toNat = n := by
  rw [BitVec.toNat_ofNat, Nat.mod_eq_of_lt hn]

theorem sym_upper {n : Sextet} (h : n.toNat < 26) : sym n = BitVec.ofNat 8 (0x41 + n.toNat) := if_pos h

theorem sym_lower {n : Sextet} (hlo : 26 ≤ n.toNat) (hhi : n.toNat < 52) :
    sym n = BitVec.ofNat 8 (0x61 + (n.toNat - 26)) := by
  rw [sym, if_neg (Nat.not_lt.2 hlo), if_pos hhi]

theorem sym_digit {n : Sextet} (hlo : 52 ≤ n.toNat) (hhi : n.toNat < 62) :
    sym n = BitVec.ofNat 8 (0x30 + (n.toNat - 52)) := by
  rw [sym, if_neg (by omega), if_neg (Nat.not_lt.2 hlo), if_pos hhi]

theorem sym_injective : Function.Injective sym := fun m n h =>
  Option.some.inj (by rw [← val64_sym m, h, val64_sym n])

/-- Settles O32: the first three buckets are the branches of `sym`, and `val64` is a left inverse of it. -/
theorem symIsTheStandardAlphabet : Obligations.SymIsTheStandardAlphabet := by
  intro n
  refine ⟨fun h => ?_, fun hlo hhi => ?_, fun hlo hhi => ?_, ?_, ?_, sym_ne_padChar n, fun m h => sym_injective h⟩
  · rw [sym_upper (Nat.lt_succ_of_le h), toNat_byte_ofNat (by omega)]
  · rw [sym_lower hlo (Nat.lt_succ_of_le hhi), toNat_byte_ofNat (by omega)]
  · rw [sym_digit hlo (Nat.lt_succ_of_le hhi), toNat_byte_ofNat (by omega)]
  · rintro rfl; rfl
  · rintro rfl; rfl

theorem isSome_val64_iff (c : Byte) : (val64 c).isSome = true ↔
    (0x41 ≤ c.toNat ∧ c.toNat ≤ 0x5A) ∨ (0x61 ≤ c.toNat ∧ c.toNat ≤ 0x7A) ∨
    (0x30 ≤ c.toNat ∧ c.toNat ≤ 0x39) ∨ c = 0x2B ∨ c = 0x2F := by
  simp only [val64]
  split_ifs with hupper hlower hdigit hplus hslash
  · exact iff_of_true rfl (.inl hupper)
  · exact iff_of_true rfl (.inr (.inl hlower))
  · exact iff_of_true rfl (.inr (.inr (.inl hdigit)))
  · exact iff_of_true rfl (.inr (.inr (.inr (.inl hplus))))
  · exact iff_of_true rfl (.inr (.inr (.inr (.inr hslash))))
  · refine iff_of_false Bool.false_ne_true ?_
    simp only [hupper, hlower, hdigit, hplus, hslash, or_false, not_false_eq_true]

/-- Settles O33: the two inverse laws of the alphabet, and the ranges of `val64`. -/
theorem val64InvertsSym : Obligations.Val64InvertsSym :=
  ⟨val64_sym, fun _ _ => sym_of_val64, isSome_val64_iff⟩

/-! ### Bit strings side by side -/

theorem bitVec_append_inj {m n : Nat} {a b : BitVec m} {c d : BitVec n} :
    a ++ c = b ++ d ↔ a = b ∧ c = d := by
  refine ⟨fun h => ⟨?_, ?_⟩, fun ⟨hab, hcd⟩ => hab ▸ hcd ▸ rfl⟩
  · rw [← BitVec.extractLsb'_append_eq_left (a := a) (b := c), h, BitVec.extractLsb'_append_eq_left]
  · rw [← BitVec.extractLsb'_append_eq_right (a := a) (b := c), h, BitVec.extractLsb'_append_eq_right]

/-! ### What a decoder's group holds (42_base64.md R149, R150) -/

theorem dec4_bits (v0 v1 v2 v3 : Sextet) : ∃ b0 b1 b2 : Byte,
    dec4 v0 v1 v2 v3 = [b0, b1, b2] ∧ b0 ++ b1 ++ b2 = v0 ++ v1 ++ v2 ++ v3 := by
  refine ⟨_, _, _, rfl, BitVec.eq_of_getLsbD_eq fun i hi => ?_⟩
  interval_cases i <;> simp only [BitVec.getLsbD_append] <;> simp

theorem dec3_bits (v0 v1 v2 : Sextet) : ∃ b0 b1 : Byte,
    dec3 v0 v1 v2 = [b0, b1] ∧ b0 ++ b1 ++ v2.setWidth 2 = v0 ++ v1 ++ v2 := by
  refine ⟨_, _, rfl, BitVec.eq_of_getLsbD_eq fun i hi => ?_⟩
  interval_cases i <;> simp only [BitVec.getLsbD_append] <;> simp

theorem dec2_bits (v0 v1 : Sextet) : ∃ b0 : Byte,
    dec2 v0 v1 = [b0] ∧ b0 ++ v1.setWidth 4 = v0 ++ v1 := by
  refine ⟨_, rfl, BitVec.eq_of_getLsbD_eq fun i hi => ?_⟩
  interval_cases i <;> simp only [BitVec.getLsbD_append] <;> simp

/-! ### What an encoder's group holds (42_base64.md R142 to R144) -/

/-- The fields of a group hold its bits: decoding them gives the bytes back (`dec4_sextets3`), and a decoded
group holds the bits of its values. -/
theorem sextets3_bits (b0 b1 b2 : Byte) : ∃ q0 q1 q2 q3 : Sextet,
    sextets3 b0 b1 b2 = (q0, q1, q2, q3) ∧ dec4 q0 q1 q2 q3 = [b0, b1, b2] ∧
      q0 ++ q1 ++ q2 ++ q3 = b0 ++ b1 ++ b2 := by
  refine ⟨_, _, _, _, rfl, dec4_sextets3 b0 b1 b2, ?_⟩
  obtain ⟨c0, c1, c2, hdec, hbits⟩ := dec4_bits _ _ _ _
  cases hdec.symm.trans (dec4_sextets3 b0 b1 b2)
  exact hbits.symm

theorem enc3_bits (b0 b1 b2 : Byte) : ∃ q0 q1 q2 q3 : Sextet,
    q0 ++ q1 ++ q2 ++ q3 = b0 ++ b1 ++ b2 ∧
      enc3 b0 b1 b2 = [sym q0, sym q1, sym q2, sym q3] ∧ dec4 q0 q1 q2 q3 = [b0, b1, b2] := by
  obtain ⟨q0, q1, q2, q3, hq, hdec, hbits⟩ := sextets3_bits b0 b1 b2
  exact ⟨q0, q1, q2, q3, hbits, by rw [enc3, hq], hdec⟩

/-- The missing low bits of the last field of a partial group are 0 (42_base64.md R144; R143 below). -/
theorem enc2_fill (b1 : Byte) : (((b1 &&& 0x0F) <<< 2).setWidth 6 : Sextet).setWidth 2 = 0#2 := by
  refine BitVec.eq_of_getLsbD_eq fun i hi => ?_
  interval_cases i <;> simp

theorem enc1_fill (b0 : Byte) : (((b0 &&& 0x03) <<< 4).setWidth 6 : Sextet).setWidth 4 = 0#4 := by
  refine BitVec.eq_of_getLsbD_eq fun i hi => ?_
  interval_cases i <;> simp

theorem sextetsOf_two_bits (b0 b1 : Byte) : ∃ q0 q1 q2 : Sextet,
    sextetsOf [b0, b1] = [q0, q1, q2] ∧ q0 ++ q1 ++ q2 = b0 ++ b1 ++ (0 : BitVec 2) := by
  refine ⟨_, _, _, rfl, ?_⟩
  obtain ⟨c0, c1, hdec, hbits⟩ := dec3_bits _ _ _
  cases hdec.symm.trans (dec3_enc2 b0 b1)
  rw [enc2_fill] at hbits
  exact hbits.symm

theorem sextetsOf_one_bits (b0 : Byte) : ∃ q0 q1 : Sextet,
    sextetsOf [b0] = [q0, q1] ∧ q0 ++ q1 = b0 ++ (0 : BitVec 4) := by
  refine ⟨_, _, rfl, ?_⟩
  obtain ⟨c0, hdec, hbits⟩ := dec2_bits _ _
  cases hdec.symm.trans (dec2_enc1 b0)
  rw [enc1_fill] at hbits
  exact hbits.symm

/-- Settles O34: a decoded group holds the bits of its values (`dec4_bits`), and so does an encoded one,
whose decoding gives the bytes back (`enc3_bits`). -/
theorem groupBitOrder : Obligations.GroupBitOrder := ⟨enc3_bits, dec4_bits⟩

/-- Settles O35: the fields of a partial group are `sextetsOf`, and a decoder's discarded bits are the low
bits of its last value. -/
theorem partialGroupBitOrder : Obligations.PartialGroupBitOrder := by
  refine ⟨fun b0 => ?_, fun b0 b1 => ?_, fun v0 v1 => ?_, fun v0 v1 v2 => ?_⟩
  · obtain ⟨q0, q1, hq, hbits⟩ := sextetsOf_one_bits b0
    exact ⟨q0, q1, hbits, (b64encX_eq_sextets [b0]).trans (by rw [hq]; rfl)⟩
  · obtain ⟨q0, q1, q2, hq, hbits⟩ := sextetsOf_two_bits b0 b1
    exact ⟨q0, q1, q2, hbits, (b64encX_eq_sextets [b0, b1]).trans (by rw [hq]; rfl)⟩
  · obtain ⟨b0, hdec, hbits⟩ := dec2_bits v0 v1
    exact ⟨b0, _, hbits, hdec⟩
  · obtain ⟨b0, b1, hdec, hbits⟩ := dec3_bits v0 v1 v2
    exact ⟨b0, b1, _, hbits, hdec⟩

end Sys2Proof.Machine
end

section
/-! PROOFS. `B64ENC` and `B64DEC` from START to their end (42_base64.md R147, R156): obligations O24 and O25. -/

namespace Sys2Proof.Machine

/-! ### What a command leaves as the host had it (10_state.md R25, R34) -/

/-- The host's side of the block reads the same in `u` as in `s`. -/
structure HostSideKept (s u : State) : Prop where
  params : u.params = s.params
  srcLen : u.srcLen = s.srcLen
  script : u.script = s.script
  reads : u.reads = s.reads
  draws : u.draws = s.draws
  ibufByte : ∀ o, u.ibufByte o = s.ibufByte o

theorem hostSideKept_lengthError (s : State) (i : Instr) :
    HostSideKept s (raise .lengthError (s.started i)) :=
  ⟨rfl, rfl, rfl, rfl, rfl, fun _ => rfl⟩

theorem hostSideKept_finished (s : State) (i : Instr) : HostSideKept s (s.presized i).finished :=
  ⟨rfl, rfl, rfl, rfl, rfl, fun _ => rfl⟩

theorem hostSideKept_failedAt (s : State) (i : Instr) (m : Memory) (idx odx e : Nat) (b : Byte) :
    HostSideKept s ((s.presized i).failedAt m idx odx e b) :=
  ⟨rfl, rfl, rfl, rfl, rfl, fun _ => rfl⟩

/-- A command on a supported lane width ends, in one of its three ends, and keeps the host's side. -/
theorem exists_commandEnds_kept {s : State} (i : Instr) (hwf : s.params.wf = true)
    (hs : s.params.supported = true) (hscript : s.script = []) (hlen : s.srcLen.toNat ≤ s.params.nmax) :
    ∃ u, CommandEnds s i u ∧ HostSideKept s u := by
  cases hl : lengthBad i s.srcLen.toNat with
  | true => exact ⟨_, commandEnds_lengthError hs hscript hl, hostSideKept_lengthError s i⟩
  | false =>
    cases hf : failPos i (commandBody i s.input) with
    | none =>
      have hsize : outLen i s.srcLen.toNat (finalPad i s.input) < 2 ^ 32 :=
        (outLen_le_maxOutput hlen).trans_lt (maxOutput_lt hwf)
      exact ⟨_, commandEnds_valid hs hscript hsize hl hf, hostSideKept_finished s i⟩
    | some e =>
      obtain ⟨m, idx, odx, hend⟩ := commandEnds_invalid hs hscript hl hf
      exact ⟨_, hend, hostSideKept_failedAt s i m idx odx e _⟩

/-! ### `B64ENC` -/

theorem finalPad_of_ne {i : Instr} (hi : i ≠ .b64dec) (b : List Byte) : finalPad i b = 0#2 :=
  if_neg fun h => hi h.1

theorem commandSteps_b64enc (p : Params) (b : List Byte) :
    commandSteps p .b64enc b = 1 + b.length / stepIn p.L (pathOf p b.length) .b64enc + 1 + 1 := by
  have hresult : pureResult .b64enc b = .ok (b64encX b) := rfl
  simp only [commandSteps, hresult, finalPad_of_ne (i := .b64enc) nofun, BitVec.toNat_zero, Nat.sub_zero]

/-- Settles O24: the run ends with the pure function's result (`exists_commandEnds_kept`), which is never an
error and has the length of `length_b64encX`. -/
theorem b64encDeliversTheEncoding : Obligations.B64encDeliversTheEncoding := by
  intro s hwf hs hscript haccepts
  obtain ⟨u, hend, hkept⟩ := exists_commandEnds_kept .b64enc hwf hs hscript haccepts.2
  obtain ⟨hstate, hkind, hdst, hoff, hbyte, hout⟩ : u.delivers (.ok (b64encX s.input)) := hend.result
  have hrun := hend.steps.run
  rw [commandSteps_b64enc, s.length_input] at hrun
  have hstatus : u.status = { state := .done, errKind := .none, pad := 0, op := .b64enc } := by
    have hpad : u.status.pad = 0 := hend.pad.trans (finalPad_of_ne (i := .b64enc) nofun _)
    rw [← hstate, ← hkind, ← hpad, ← hend.op]
  rw [length_b64encX, s.length_input] at hdst
  exact ⟨s.started .b64enc, u, hostAct_writeCtrl_command s rfl, exec_accepted _ haccepts, hrun, hstatus, hdst,
    hoff, hbyte, hout, hkept.params, hkept.srcLen, hkept.script.trans hscript, hkept.reads, hkept.draws,
    hkept.ibufByte⟩

/-! ### The result of `B64DEC`, by the outcome of its checks -/

theorem finalPad_b64dec {b : List Byte} (h4 : b.length % 4 = 0) : finalPad .b64dec b = paddingCount b :=
  if_pos ⟨rfl, h4⟩

/-- The body that `B64DEC` decodes: the input without the padding of R151. -/
def body64 (s : List Byte) : List Byte := s.take (s.length - (paddingCount s).toNat)

theorem commandBody_b64dec {s : List Byte} (h4 : s.length % 4 = 0) : commandBody .b64dec s = body64 s := by
  rw [commandBody, finalPad_b64dec h4, body64]

theorem b64decPure_lengthError {s : List Byte} (h4 : s.length % 4 ≠ 0) : b64decPure s = .lengthError :=
  if_pos h4

theorem b64decPure_invalid {s : List Byte} {p : Nat} (h4 : s.length % 4 = 0)
    (hf : b64Fail (body64 s) = some p) : b64decPure s = .codecError p (s.getD p 0) :=
  pureResult_invalid (i := .b64dec) (bne_eq_false_iff_eq.2 h4) ((commandBody_b64dec h4).symm ▸ hf)

theorem b64decPure_valid {s : List Byte} (h4 : s.length % 4 = 0) (hf : b64Fail (body64 s) = none) :
    b64decPure s = .ok (b64decX (body64 s)) := by
  rw [← commandBody_b64dec h4] at hf ⊢
  exact pureResult_valid (i := .b64dec) (bne_eq_false_iff_eq.2 h4) hf

theorem length_body64 (s : List Byte) : (body64 s).length = s.length - (paddingCount s).toNat := by
  rw [body64, List.length_take, Nat.min_eq_left (Nat.sub_le _ _)]

/-- The length of a decoding (42_base64.md R155, R159). -/
theorem length_b64decX_body64 {s : List Byte} (h4 : s.length % 4 = 0) :
    (b64decX (body64 s)).length = 3 * (s.length / 4) - (paddingCount s).toNat := by
  have hpad := paddingCount_le s
  rw [length_b64decX, length_body64]
  omega

/-- Settles O25: the run ends with the result of `b64decPure` (`exists_commandEnds_kept`), which is one of
`b64decPure_lengthError`, `b64decPure_invalid` and `b64decPure_valid`. -/
theorem b64decDeliversTheDecoding : Obligations.B64decDeliversTheDecoding := by
  intro s hwf hs hscript haccepts
  obtain ⟨u, hend, hkept⟩ := exists_commandEnds_kept .b64dec hwf hs hscript haccepts.2
  have hresult : u.delivers (b64decPure s.input) := hend.result
  have hpad := hend.pad
  refine ⟨s.started .b64dec, u, hostAct_writeCtrl_command s rfl, exec_accepted _ haccepts, hend.steps.run, hend.op,
    ?_, ?_, hkept.params, hkept.srcLen, hkept.script.trans hscript, hkept.reads, hkept.draws, hkept.ibufByte⟩ <;>
    rw [← s.length_input] <;> intro h4
  · rw [b64decPure_lengthError h4] at hresult
    obtain ⟨hstate, hkind, hdst, hoff, hbyte⟩ := hresult
    exact ⟨hstate, hkind, hpad.trans (if_neg fun h => h4 h.2), hdst, hoff, hbyte⟩
  · refine ⟨hpad.trans (finalPad_b64dec h4), fun p hf => ?_, fun hf => ?_⟩
    · rw [b64decPure_invalid h4 hf] at hresult
      obtain ⟨hstate, hkind, hdst, hoff, hbyte⟩ := hresult
      have hp : p < s.srcLen.toNat := by
        have hlt : p < (body64 s.input).length := failPos_lt (i := .b64dec) hf
        rw [length_body64, s.length_input] at hlt
        omega
      exact ⟨hstate, hkind, hdst, hoff, s.getD_input hp ▸ hbyte⟩
    · rw [b64decPure_valid h4 hf] at hresult
      obtain ⟨hstate, hkind, hdst, hoff, hbyte, hout⟩ := hresult
      exact ⟨hstate, hkind, hoff, hbyte, hdst.trans (length_b64decX_body64 h4), hout⟩

end Sys2Proof.Machine
end

section
/-! PROOFS. The base64 chunk transforms, group by group (42_base64.md R145, R154): obligation O36. -/

namespace Sys2Proof.Machine

/-! ### Skipping whole groups -/

theorem drop_eq_cons_of_getElem? {α : Type} {l : List α} {i : Nat} {x : α} (h : l[i]? = some x) :
    l.drop i = x :: l.drop (i + 1) := by
  rw [List.drop_eq_getElem?_toList_append, h]
  rfl

theorem drop_b64encX {s : List Byte} {g : Nat} (hg : 3 * g ≤ s.length) :
    (b64encX s).drop (4 * g) = b64encX (s.drop (3 * g)) := by
  have hhead : (s.take (3 * g)).length = 3 * g := List.length_take_of_le hg
  have henc : (b64encX (s.take (3 * g))).length = 4 * g := by rw [length_b64encX, hhead]; omega
  conv_lhs => rw [← List.take_append_drop (3 * g) s, b64encX_append _ _ (by omega), ← henc]
  exact List.drop_left

theorem drop_repack64 {v : List Sextet} {g : Nat} (hg : 4 * g ≤ v.length) :
    (repack64 v).drop (3 * g) = repack64 (v.drop (4 * g)) := by
  have hhead : (v.take (4 * g)).length = 4 * g := List.length_take_of_le hg
  have hdec : (repack64 (v.take (4 * g))).length = 3 * g := by rw [length_repack64, hhead]; omega
  conv_lhs => rw [← List.take_append_drop (4 * g) v, repack64_append _ _ (by omega), ← hdec]
  exact List.drop_left

/-! ### One group -/

section
variable {s : List Byte} {g : Nat} {b0 b1 b2 : Byte} (h0 : s[3 * g]? = some b0)
include h0

theorem b64encX_group (h1 : s[3 * g + 1]? = some b1) (h2 : s[3 * g + 2]? = some b2) :
    ((b64encX s).drop (4 * g)).take 4 = enc3 b0 b1 b2 := by
  have hlt := (List.getElem?_eq_some_iff.1 h0).1
  rw [drop_b64encX hlt.le, drop_eq_cons_of_getElem? h0, drop_eq_cons_of_getElem? h1,
    drop_eq_cons_of_getElem? h2, b64encX]
  rfl

theorem b64encX_lastOne (hlen : s.length = 3 * g + 1) : (b64encX s).drop (4 * g) = enc1 b0 := by
  rw [drop_b64encX (by omega), drop_eq_cons_of_getElem? h0, List.drop_eq_nil_of_le hlen.le, b64encX]

theorem b64encX_lastTwo (hlen : s.length = 3 * g + 2) (h1 : s[3 * g + 1]? = some b1) :
    (b64encX s).drop (4 * g) = enc2 b0 b1 := by
  rw [drop_b64encX (by omega), drop_eq_cons_of_getElem? h0, drop_eq_cons_of_getElem? h1,
    List.drop_eq_nil_of_le hlen.le, b64encX]

end

/-- The values of the characters that `b64decX` repacks. -/
def values64 (s : List Byte) : List Sextet := s.map fun x => (val64 x).getD 0

theorem getElem?_values64 {s : List Byte} {i : Nat} {v : Sextet} (h : s[i]?.map val64 = some (some v)) :
    (values64 s)[i]? = some v := by
  obtain ⟨c, hc, hv⟩ := Option.map_eq_some_iff.1 h
  rw [values64, List.getElem?_map, hc, Option.map_some, hv, Option.getD_some]

section
variable {v : List Sextet} {g : Nat} {v0 v1 v2 v3 : Sextet} (h0 : v[4 * g]? = some v0)
  (h1 : v[4 * g + 1]? = some v1)
include h0 h1

theorem repack64_group (h2 : v[4 * g + 2]? = some v2) (h3 : v[4 * g + 3]? = some v3) :
    ((repack64 v).drop (3 * g)).take 3 = dec4 v0 v1 v2 v3 := by
  have hlt := (List.getElem?_eq_some_iff.1 h0).1
  rw [drop_repack64 hlt.le, drop_eq_cons_of_getElem? h0, drop_eq_cons_of_getElem? h1,
    drop_eq_cons_of_getElem? h2, drop_eq_cons_of_getElem? h3, repack64]
  rfl

theorem repack64_lastTwo (hlen : v.length = 4 * g + 2) : (repack64 v).drop (3 * g) = dec2 v0 v1 := by
  rw [drop_repack64 (by omega), drop_eq_cons_of_getElem? h0, drop_eq_cons_of_getElem? h1,
    List.drop_eq_nil_of_le hlen.le, repack64]

theorem repack64_lastThree (hlen : v.length = 4 * g + 3) (h2 : v[4 * g + 2]? = some v2) :
    (repack64 v).drop (3 * g) = dec3 v0 v1 v2 := by
  rw [drop_repack64 (by omega), drop_eq_cons_of_getElem? h0, drop_eq_cons_of_getElem? h1,
    drop_eq_cons_of_getElem? h2, List.drop_eq_nil_of_le hlen.le, repack64]

end

/-- Settles O36: a transform of whole groups and a rest is the transform of each (`drop_b64encX`,
`drop_repack64`), so group `g` is the first group of what follows the `g` groups before it. -/
theorem base64ChunkTransforms : Obligations.Base64ChunkTransforms := by
  refine ⟨fun s g b0 b1 b2 => ⟨length_b64encX s, b64encX_group, fun hlen h0 => b64encX_lastOne h0 hlen,
    fun hlen h0 => b64encX_lastTwo h0 hlen⟩, fun s g v0 v1 v2 v3 => ⟨length_b64decX s, fun h0 h1 => ?_⟩⟩
  have hlen : (values64 s).length = s.length := List.length_map ..
  replace h0 := getElem?_values64 h0
  replace h1 := getElem?_values64 h1
  exact ⟨fun h2 h3 => repack64_group h0 h1 (getElem?_values64 h2) (getElem?_values64 h3),
    fun h => repack64_lastTwo h0 h1 (hlen.trans h),
    fun h h2 => repack64_lastThree h0 h1 (hlen.trans h) (getElem?_values64 h2)⟩

end Sys2Proof.Machine
end

section
/-! PROOFS. Padding, output lengths and the round trip (42_base64.md R151, R158, R159): obligations O40, O46
and O38. -/

namespace Sys2Proof.Machine

/-! ### The Padding Count (42_base64.md R151) -/

theorem paddingCount_eq (s : List Byte) : paddingCount s =
    if s = [] ∨ s[s.length - 1]? ≠ some padChar then 0
    else if s[s.length - 2]? ≠ some padChar then 1 else 2 := by
  by_cases hlast : s = [] ∨ s[s.length - 1]? ≠ some padChar
  · rw [if_pos hlast, paddingCount, if_neg (by tauto)]
  · rw [if_neg hlast, paddingCount, if_pos (by tauto), ite_not]

theorem paddingCount_append_three (s : List Byte) :
    paddingCount (s ++ [padChar, padChar, padChar]) = 2 := by
  simp [paddingCount]

theorem body64_append_three (s : List Byte) :
    body64 (s ++ [padChar, padChar, padChar]) = s ++ [padChar] := by
  rw [body64, paddingCount_append_three, List.length_append]
  exact List.take_length_add_append 1

/-- The third `'='` belongs to the body, so it is invalid at its own offset if no byte before it is. -/
theorem b64Fail_append_padChar (s : List Byte) :
    b64Fail (s ++ [padChar]) = some ((b64Fail s).getD s.length) := by
  have hpad : b64Fail [padChar] = some 0 := rfl
  rw [b64Fail_append, hpad]
  cases b64Fail s with
  | none => simp
  | some p => rfl

/-- Settles O40: the count is `paddingCount_eq`; with three `'='` it takes two off, and the body that is left
ends in the third (`body64_append_three`, `b64Fail_append_padChar`). -/
theorem thirdEqualsSignIsNotPadding : Obligations.ThirdEqualsSignIsNotPadding := by
  refine ⟨paddingCount_eq, fun s h4 => ⟨paddingCount_append_three s, ?_⟩⟩
  have hfail := (congrArg b64Fail (body64_append_three s)).trans (b64Fail_append_padChar s)
  refine (b64decPure_invalid h4 hfail).trans ?_
  cases hf : b64Fail s with
  | none => simp
  | some p =>
    have hp : p < s.length := failPos_lt (i := .b64dec) hf
    simp [List.getElem?_append_left hp]

/-! ### Output lengths (42_base64.md R159) -/

/-- Which texts decode, and to what (42_base64.md R156). -/
theorem b64decPure_eq_ok_iff {s b : List Byte} : b64decPure s = .ok b ↔
    s.length % 4 = 0 ∧ b64Fail (body64 s) = none ∧ b64decX (body64 s) = b := by
  by_cases h4 : s.length % 4 = 0
  · cases hf : b64Fail (body64 s) with
    | none => simp [b64decPure_valid h4 hf, h4]
    | some p => simp [b64decPure_invalid h4 hf]
  · simp [b64decPure_lengthError h4, h4]

theorem hexdecPure_ok {s b : List Byte} (h : hexdecPure s = .ok b) : s.length % 2 = 0 ∧ hexdecX s = b := by
  unfold hexdecPure at h
  split at h
  · cases h
  · next h2 =>
    split at h
    · cases h
    · exact ⟨not_not.1 h2, CodecResult.ok.inj h⟩

/-- Settles O46: the lengths of the transforms; a decoding is the transform of the body (`b64decPure_eq_ok_iff`). -/
theorem outputLengths : Obligations.OutputLengths := by
  refine ⟨length_b64encX, fun s b h => ⟨?_, paddingCount_le s⟩, length_hexencX, fun s b h => ?_⟩
  · obtain ⟨h4, -, rfl⟩ := b64decPure_eq_ok_iff.1 h
    exact length_b64decX_body64 h4
  · obtain ⟨h2, rfl⟩ := hexdecPure_ok h
    rw [length_hexdecX]
    omega

/-! ### A decodable text as symbols and padding -/

theorem map_sym_values64 {c : List Byte} (h : b64Fail c = none) : (values64 c).map sym = c := by
  rw [values64, List.map_map]
  refine (List.map_congr_left fun x hx => ?_).trans (List.map_id c)
  obtain ⟨n, hn⟩ : ∃ n, val64 x = some n := by
    simpa [bad64, Option.isSome_iff_exists] using b64Fail_eq_none.1 h x hx
  simp [hn, sym_of_val64 hn]

/-- A text whose length is a multiple of 4 is its body and the padding counted. -/
theorem body64_append_padding {s : List Byte} (h4 : s.length % 4 = 0) :
    body64 s ++ List.replicate (paddingCount s).toNat padChar = s := by
  have hdrop : s.drop (s.length - (paddingCount s).toNat) = List.replicate (paddingCount s).toNat padChar := by
    rw [paddingCount_eq]
    split_ifs with hlast hbefore
    · exact List.drop_length
    all_goals
      obtain ⟨hne, hlast⟩ := not_or.1 hlast
      have hlen : 0 < s.length := List.length_pos_iff.2 hne
      have hone : s.drop (s.length - 1) = [padChar] := by
        rw [drop_eq_cons_of_getElem? (not_not.1 hlast), List.drop_eq_nil_of_le (by omega)]
    · exact hone
    · refine (drop_eq_cons_of_getElem? (not_not.1 hbefore)).trans (congrArg _ ?_)
      rw [show s.length - 2 + 1 = s.length - 1 by omega, hone]
      rfl
  rw [body64, ← hdrop, List.take_append_drop]

theorem exists_values_of_ok {s b : List Byte} (h : b64decPure s = .ok b) : ∃ (v : List Sextet) (p : Nat),
    s = v.map sym ++ List.replicate p padChar ∧ (paddingCount s).toNat = p ∧ (v.length + p) % 4 = 0 ∧
      b = repack64 v := by
  obtain ⟨h4, hf, rfl⟩ := b64decPure_eq_ok_iff.1 h
  have hs : (values64 (body64 s)).map sym ++ List.replicate (paddingCount s).toNat padChar = s := by
    rw [map_sym_values64 hf, body64_append_padding h4]
  refine ⟨_, _, hs.symm, rfl, ?_, rfl⟩
  rw [← hs] at h4
  simpa using h4

/-! ### Decoding an encoding -/

theorem body64_b64encX (b : List Byte) : body64 (b64encX b) = (sextetsOf b).map sym := by
  have hpad : paddingCount (b64encX b) = BitVec.ofNat 2 ((3 - b.length % 3) % 3) := by
    have hlen := length_sextetsOf b
    rw [b64encX_eq_sextets]
    exact paddingCount_sym_append _ _ (by omega) (by omega)
  have hk : (BitVec.ofNat 2 ((3 - b.length % 3) % 3)).toNat = (3 - b.length % 3) % 3 := by
    rw [BitVec.toNat_ofNat]
    omega
  rw [body64, hpad, hk, b64encX_eq_sextets, List.length_append, List.length_replicate, Nat.add_sub_cancel]
  exact List.take_left

theorem b64decPure_b64encX (b : List Byte) : b64decPure (b64encX b) = .ok b := by
  refine b64decPure_eq_ok_iff.2 ⟨by rw [length_b64encX, Nat.mul_mod_right], ?_, ?_⟩
  · rw [body64_b64encX, b64Fail_map_sym]
  · rw [body64_b64encX, b64decX_map_sym, repack64_sextetsOf]

/-! ### Encoding a decoding (42_base64.md R157) -/

/-- The bits of the last value that no byte receives are 0. -/
def discardedClear (v : List Sextet) : Prop :=
  ∀ x, v[v.length - 1]? = some x →
    (v.length % 4 = 2 → x &&& 0x0F = 0) ∧ (v.length % 4 = 3 → x &&& 0x03 = 0)

theorem discardedClear_group (v0 v1 v2 v3 : Sextet) (v : List Sextet) :
    discardedClear (v0 :: v1 :: v2 :: v3 :: v) ↔ discardedClear v := by
  cases v with
  | nil => simp [discardedClear]
  | cons v4 v =>
    have hmod : (v0 :: v1 :: v2 :: v3 :: v4 :: v).length % 4 = (v4 :: v).length % 4 :=
      Nat.add_mod_right (v4 :: v).length 4
    simp only [discardedClear, hmod]
    rfl

theorem sextetsOf_dec4_append (v0 v1 v2 v3 : Sextet) (c : List Byte) :
    sextetsOf (dec4 v0 v1 v2 v3 ++ c) = v0 :: v1 :: v2 :: v3 :: sextetsOf c := by
  obtain ⟨b0, b1, b2, hdec, hb⟩ := dec4_bits v0 v1 v2 v3
  obtain ⟨q0, q1, q2, q3, hq, -, hqb⟩ := sextets3_bits b0 b1 b2
  have hbits : q0 ++ q1 ++ q2 ++ q3 = v0 ++ v1 ++ v2 ++ v3 := hqb.trans hb
  simp only [bitVec_append_inj] at hbits
  obtain ⟨⟨⟨rfl, rfl⟩, rfl⟩, rfl⟩ := hbits
  rw [hdec, List.cons_append, List.cons_append, List.cons_append, List.nil_append, sextetsOf, hq]
  rfl

theorem zero_eq_setWidth_two_iff : ∀ x : Sextet, (0 : BitVec 2) = x.setWidth 2 ↔ x &&& 0x03 = 0 := by decide

theorem zero_eq_setWidth_four_iff : ∀ x : Sextet, (0 : BitVec 4) = x.setWidth 4 ↔ x &&& 0x0F = 0 := by decide

theorem sextetsOf_dec3 (v0 v1 v2 : Sextet) : sextetsOf (dec3 v0 v1 v2) = [v0, v1, v2] ↔ v2 &&& 0x03 = 0 := by
  obtain ⟨b0, b1, hdec, hb⟩ := dec3_bits v0 v1 v2
  obtain ⟨q0, q1, q2, hq, hqb⟩ := sextetsOf_two_bits b0 b1
  have hbits : q0 ++ q1 ++ q2 = v0 ++ v1 ++ v2 ↔ b0 ++ b1 ++ (0 : BitVec 2) = b0 ++ b1 ++ v2.setWidth 2 :=
    iff_of_eq (congrArg₂ Eq hqb hb.symm)
  rw [hdec, hq, ← zero_eq_setWidth_two_iff]
  simp only [bitVec_append_inj, true_and, and_assoc] at hbits
  simpa using hbits

theorem sextetsOf_dec2 (v0 v1 : Sextet) : sextetsOf (dec2 v0 v1) = [v0, v1] ↔ v1 &&& 0x0F = 0 := by
  obtain ⟨b0, hdec, hb⟩ := dec2_bits v0 v1
  obtain ⟨q0, q1, hq, hqb⟩ := sextetsOf_one_bits b0
  have hbits : q0 ++ q1 = v0 ++ v1 ↔ b0 ++ (0 : BitVec 4) = b0 ++ v1.setWidth 4 :=
    iff_of_eq (congrArg₂ Eq hqb hb.symm)
  rw [hdec, hq, ← zero_eq_setWidth_four_iff]
  simp only [bitVec_append_inj, true_and] at hbits
  simpa using hbits

/-- Only the last partial group can lose bits: encoding restores the values where it lost none. -/
theorem sextetsOf_repack64_iff {v : List Sextet} (hv : v.length % 4 ≠ 1) :
    sextetsOf (repack64 v) = v ↔ discardedClear v := by
  induction v using repack64.induct with
  | case1 v0 v1 v2 v3 v ih =>
    have hv' : v.length % 4 ≠ 1 := by simp only [List.length_cons] at hv; omega
    rw [repack64, sextetsOf_dec4_append, discardedClear_group, ← ih hv']
    simp
  | case2 v0 v1 v2 => simpa [discardedClear, repack64] using sextetsOf_dec3 v0 v1 v2
  | case3 v0 v1 => simpa [discardedClear, repack64] using sextetsOf_dec2 v0 v1
  | case4 v0 => simp at hv
  | case5 => simp [discardedClear, repack64, sextetsOf]

section
variable {v : List Sextet} {p : Nat}
  (hp : (paddingCount (v.map sym ++ List.replicate p padChar)).toNat = p)
include hp

theorem padding_le_two : p ≤ 2 := hp ▸ paddingCount_le _

variable (h4 : (v.length + p) % 4 = 0)
include h4

/-- The last body character of a decodable text is the symbol of its last value, if it has any. -/
theorem val64_last : val64 ((v.map sym ++ List.replicate p padChar).getD
    ((v.map sym ++ List.replicate p padChar).length - p - 1) 0) = v[v.length - 1]? := by
  have hle := padding_le_two hp
  rw [List.length_append, List.length_map, List.length_replicate, Nat.add_sub_cancel,
    List.getD_eq_getElem?_getD]
  cases hlast : v[v.length - 1]? with
  | none =>
    have hnil : v.length = 0 := by have := List.getElem?_eq_none_iff.1 hlast; omega
    obtain rfl : p = 0 := by omega
    rw [List.length_eq_zero_iff.1 hnil]
    rfl
  | some x =>
    have hlt := (List.getElem?_eq_some_iff.1 hlast).1
    rw [List.getElem?_append_left (by rwa [List.length_map]), List.getElem?_map, hlast, Option.map_some,
      Option.getD_some, val64_sym]

theorem canonical64_iff : canonical64 (v.map sym ++ List.replicate p padChar) ↔ discardedClear v := by
  have hle := padding_le_two hp
  have htwo : paddingCount (v.map sym ++ List.replicate p padChar) = 2 ↔ v.length % 4 = 2 := by
    rw [← BitVec.toNat_inj, hp]
    show p = 2 ↔ _
    omega
  have hone : paddingCount (v.map sym ++ List.replicate p padChar) = 1 ↔ v.length % 4 = 3 := by
    rw [← BitVec.toNat_inj, hp]
    show p = 1 ↔ _
    omega
  simp only [canonical64, discardedClear, hp, val64_last hp h4, htwo, hone]

theorem padding_of_repack64 : (3 - (repack64 v).length % 3) % 3 = p := by
  have hle := padding_le_two hp
  rw [length_repack64]
  interval_cases p <;> omega

/-- The padding agrees, and `sym` is injective, so the texts agree where the values do. -/
theorem b64encX_repack64_iff :
    b64encX (repack64 v) = v.map sym ++ List.replicate p padChar ↔ discardedClear v := by
  have hle := padding_le_two hp
  rw [b64encX_eq_sextets, padding_of_repack64 hp h4, List.append_left_inj, ← sextetsOf_repack64_iff (by omega)]
  exact (List.map_injective_iff.2 sym_injective).eq_iff

end

/-- Settles O38: a text that decodes is the symbols of some values and its padding (`exists_values_of_ok`);
the encoding of what they repack to has their length, and is the text where the discarded bits are clear
(`b64encX_repack64_iff`), which is what `canonical64` says of it. -/
theorem base64RoundTrip : Obligations.Base64RoundTrip := by
  refine ⟨b64decPure_b64encX, fun s b h => ?_⟩
  obtain ⟨v, p, rfl, hp, h4, rfl⟩ := exists_values_of_ok h
  refine ⟨?_, (b64encX_repack64_iff hp h4).trans (canonical64_iff hp h4).symm⟩
  have hle := padding_le_two hp
  rw [length_b64encX, length_repack64, List.length_append, List.length_map, List.length_replicate]
  omega

end Sys2Proof.Machine
end

section
/-! PROOFS. `HEXENC` and `HEXDEC` from START to their end (43_hex.md R173, R177): obligations O26 and O27. -/

namespace Sys2Proof.Machine

/-! ### `HEXENC` -/

/-- The registers at the end of a command that takes no padding off and whose result is an output. -/
theorem CommandEnds.registers_of_ok {s u : State} {i : Instr} {out : List Byte} (hend : CommandEnds s i u)
    (hi : i ≠ .b64dec) (hresult : pureResult i s.input = .ok out) :
    u.status = { state := .done, errKind := .none, pad := 0, op := i } ∧ u.dstLen.toNat = out.length ∧
      u.errOffset = 0 ∧ u.errByte = 0 ∧ ∀ o, u.obufDefined? o = out[o]? := by
  have hdelivers := hend.result
  rw [hresult] at hdelivers
  obtain ⟨hstate, hkind, hdst, hoff, hbyte, hout⟩ := hdelivers
  have hpad : u.status.pad = 0 := hend.pad.trans (finalPad_of_ne hi _)
  refine ⟨?_, hdst, hoff, hbyte, hout⟩
  rw [← hstate, ← hkind, ← hpad, ← hend.op]

theorem commandSteps_hexenc (p : Params) (b : List Byte) :
    commandSteps p .hexenc b = 1 + b.length / stepIn p.L (pathOf p b.length) .hexenc + 1 + 1 := by
  have hresult : pureResult .hexenc b = .ok (hexencX b) := rfl
  rw [commandSteps_of_ok hresult, finalPad_of_ne (i := .hexenc) nofun, BitVec.toNat_zero, Nat.sub_zero]
  omega

/-- Settles O26: the run ends with the pure function's result (`exists_commandEnds_kept`), which is never an
error (`CommandEnds.registers_of_ok`) and has the length of `length_hexencX`. -/
theorem hexencDeliversTheEncoding : Obligations.HexencDeliversTheEncoding := by
  intro s hwf hs hscript haccepts
  obtain ⟨u, hend, hkept⟩ := exists_commandEnds_kept .hexenc hwf hs hscript haccepts.2
  obtain ⟨hstatus, hdst, hoff, hbyte, hout⟩ := hend.registers_of_ok (out := hexencX s.input) nofun rfl
  have hrun := hend.steps.run
  rw [commandSteps_hexenc, s.length_input] at hrun
  rw [length_hexencX, s.length_input] at hdst
  exact ⟨s.started .hexenc, u, hostAct_writeCtrl_command s rfl, exec_accepted _ haccepts, hrun, hstatus, hdst,
    hoff, hbyte, hout, hkept.params, hkept.srcLen, hkept.script.trans hscript, hkept.reads, hkept.draws,
    hkept.ibufByte⟩

/-! ### The result of `HEXDEC`, by the outcome of its checks -/

theorem hexdecPure_lengthError {s : List Byte} (h2 : s.length % 2 ≠ 0) : hexdecPure s = .lengthError :=
  if_pos h2

theorem hexdecPure_invalid {s : List Byte} {q : Nat} (h2 : s.length % 2 = 0) (hf : hexFail s = some q) :
    hexdecPure s = .codecError q (s.getD q 0) := by
  rw [hexdecPure, if_neg (not_not.2 h2), hf]

theorem hexdecPure_valid {s : List Byte} (h2 : s.length % 2 = 0) (hf : hexFail s = none) :
    hexdecPure s = .ok (hexdecX s) := by
  rw [hexdecPure, if_neg (not_not.2 h2), hf]

/-- Settles O27: the run ends with the result of `hexdecPure` (`exists_commandEnds_kept`), which is one of
`hexdecPure_lengthError`, `hexdecPure_invalid` and `hexdecPure_valid`. -/
theorem hexdecDeliversTheDecoding : Obligations.HexdecDeliversTheDecoding := by
  intro s hwf hs hscript haccepts
  obtain ⟨u, hend, hkept⟩ := exists_commandEnds_kept .hexdec hwf hs hscript haccepts.2
  have hresult : u.delivers (hexdecPure s.input) := hend.result
  have hpad : u.status.pad = 0 := hend.pad.trans (finalPad_of_ne (i := .hexdec) nofun _)
  refine ⟨s.started .hexdec, u, hostAct_writeCtrl_command s rfl, exec_accepted _ haccepts, hend.steps.run, hend.op,
    hpad, ?_, ?_, hkept.params, hkept.srcLen, hkept.script.trans hscript, hkept.reads, hkept.draws,
    hkept.ibufByte⟩ <;>
    rw [← s.length_input] <;> intro h2
  · rwa [hexdecPure_lengthError h2] at hresult
  · refine ⟨fun q hf => ?_, fun hf => ?_⟩
    · have hq : q < s.srcLen.toNat := s.length_input ▸ failPos_lt (i := .hexdec) hf
      rwa [hexdecPure_invalid h2 hf, s.getD_input hq] at hresult
    · rw [hexdecPure_valid h2 hf] at hresult
      obtain ⟨hstate, hkind, hdst, hoff, hbyte, hout⟩ := hresult
      exact ⟨hstate, hkind, hoff, hbyte, hdst.trans (length_hexdecX _), hout⟩

end Sys2Proof.Machine
end

section
/-! PROOFS. The Hex codec: its digits, its chunk transforms and its round trip (43_hex.md R170 to R172, R175,
R179): obligations O42, O43 and O44. -/

namespace Sys2Proof.Machine

/-! ### The digits and their values (43_hex.md R170, R171) -/

theorem hexDigit_decimal {n : Nibble} (h : n.toNat ≤ 9) : hexDigit n = BitVec.ofNat 8 (0x30 + n.toNat) :=
  if_pos h

theorem hexDigit_letter {n : Nibble} (h : 10 ≤ n.toNat) :
    hexDigit n = BitVec.ofNat 8 (0x61 + (n.toNat - 10)) :=
  if_neg (Nat.not_le_of_lt h)

theorem valHex_decimal {c : Byte} (hlo : 0x30 ≤ c.toNat) (hhi : c.toNat ≤ 0x39) :
    valHex c = some (BitVec.ofNat 4 (c.toNat - 0x30)) :=
  if_pos ⟨hlo, hhi⟩

theorem valHex_upper {c : Byte} (hlo : 0x41 ≤ c.toNat) (hhi : c.toNat ≤ 0x46) :
    valHex c = some (BitVec.ofNat 4 (c.toNat - 0x41 + 10)) := by
  rw [valHex, if_neg (by omega), if_pos ⟨hlo, hhi⟩]

theorem valHex_lower {c : Byte} (hlo : 0x61 ≤ c.toNat) (hhi : c.toNat ≤ 0x66) :
    valHex c = some (BitVec.ofNat 4 (c.toNat - 0x61 + 10)) := by
  rw [valHex, if_neg (by omega), if_neg (by omega), if_pos ⟨hlo, hhi⟩]

/-- A valid character lies in one of the three ranges. -/
theorem valHex_ranges {c : Byte} (h : (valHex c).isSome = true) :
    (0x30 ≤ c.toNat ∧ c.toNat ≤ 0x39) ∨ (0x41 ≤ c.toNat ∧ c.toNat ≤ 0x46) ∨
      (0x61 ≤ c.toNat ∧ c.toNat ≤ 0x66) := by
  unfold valHex at h
  split_ifs at h with hdecimal hupper hlower
  · exact .inl hdecimal
  · exact .inr (.inl hupper)
  · exact .inr (.inr hlower)
  · cases h

/-- Settles O42: the two branches of `hexDigit`, the four of `valHex`, and `valHex_hexDigit`. -/
theorem hexDigitsAndTheirValues : Obligations.HexDigitsAndTheirValues := by
  refine ⟨fun n => ⟨fun h => ?_, fun h => ?_, valHex_hexDigit n⟩,
    fun c => ⟨valHex_decimal, valHex_upper, valHex_lower, valHex_ranges⟩⟩
  · rw [hexDigit_decimal h, toNat_byte_ofNat (by omega)]
  · rw [hexDigit_letter h, toNat_byte_ofNat (by omega)]

/-! ### The two nibbles of a byte (20_memory.md R55) -/

/-- The nibble that gives a byte's first character (43_hex.md R172). -/
def highNibble (b : Byte) : Nibble := (b >>> 4).setWidth 4

/-- The nibble that gives a byte's second character (43_hex.md R172). -/
def lowNibble (b : Byte) : Nibble := (b &&& 0x0F).setWidth 4

theorem hexencX_cons (b : Byte) (c : List Byte) :
    hexencX (b :: c) = hexDigit (highNibble b) :: hexDigit (lowNibble b) :: hexencX c := rfl

theorem append_nibbles (h l : Nibble) : h ++ l = (h.setWidth 8 <<< 4) ||| l.setWidth 8 := by
  rw [BitVec.append_def, BitVec.shiftLeftZeroExtend_eq, BitVec.setWidth'_eq]

theorem highNibble_append_lowNibble (b : Byte) : highNibble b ++ lowNibble b = b :=
  (append_nibbles _ _).trans (nibbles_combine b)

theorem nibbles_append (h l : Nibble) : highNibble (h ++ l) = h ∧ lowNibble (h ++ l) = l :=
  bitVec_append_inj.1 (highNibble_append_lowNibble (h ++ l))

theorem hexdecX_cons_cons {x y : Byte} {h l : Nibble} (hx : valHex x = some h) (hy : valHex y = some l)
    (c : List Byte) : hexdecX (x :: y :: c) = (h ++ l) :: hexdecX c := by
  rw [append_nibbles, hexdecX, hexValue, hexValue, hx, hy, Option.getD_some, Option.getD_some]

/-! ### Skipping whole groups -/

theorem drop_hexencX {s : List Byte} {i : Nat} (hi : i ≤ s.length) :
    (hexencX s).drop (2 * i) = hexencX (s.drop i) := by
  have henc : (hexencX (s.take i)).length = 2 * i := by rw [length_hexencX, List.length_take_of_le hi]
  conv_lhs => rw [← List.take_append_drop i s, hexencX_append, ← henc]
  exact List.drop_left

theorem drop_hexdecX {s : List Byte} {i : Nat} (hi : 2 * i ≤ s.length) :
    (hexdecX s).drop i = hexdecX (s.drop (2 * i)) := by
  have hhead : (s.take (2 * i)).length = 2 * i := List.length_take_of_le hi
  have hdec : (hexdecX (s.take (2 * i))).length = i := by rw [length_hexdecX, hhead]; omega
  conv_lhs => rw [← List.take_append_drop (2 * i) s, hexdecX_append _ _ (by omega)]
  exact List.drop_left' hdec

theorem getElem?_hexencX {s : List Byte} {i : Nat} {b : Byte} (hb : s[i]? = some b) :
    (hexencX s)[2 * i]? = some (hexDigit (highNibble b)) ∧
      (hexencX s)[2 * i + 1]? = some (hexDigit (lowNibble b)) := by
  obtain ⟨hi, -⟩ := List.getElem?_eq_some_iff.1 hb
  have hgroup := drop_hexencX hi.le
  rw [drop_eq_cons_of_getElem? hb, hexencX_cons] at hgroup
  constructor
  · rw [← Nat.add_zero (2 * i), ← List.getElem?_drop, hgroup, List.getElem?_cons_zero]
  · rw [← List.getElem?_drop, hgroup, List.getElem?_cons_succ, List.getElem?_cons_zero]

theorem getElem?_hexdecX {s : List Byte} {i : Nat} {x y : Byte} {h l : Nibble} (hx : s[2 * i]? = some x)
    (hy : s[2 * i + 1]? = some y) (hhigh : valHex x = some h) (hlow : valHex y = some l) :
    (hexdecX s)[i]? = some (h ++ l) := by
  obtain ⟨hi, -⟩ := List.getElem?_eq_some_iff.1 hx
  have hgroup := drop_hexdecX hi.le
  rw [drop_eq_cons_of_getElem? hx, drop_eq_cons_of_getElem? hy, hexdecX_cons_cons hhigh hlow] at hgroup
  rw [← Nat.add_zero i, ← List.getElem?_drop, hgroup, List.getElem?_cons_zero]

/-- Settles O43: position `i` of a byte buffer is the first of what follows the `i` bytes, or pairs of
characters, before it (`drop_hexencX`, `drop_hexdecX`), and a byte is its high and its low nibble. -/
theorem hexChunkTransforms : Obligations.HexChunkTransforms := by
  refine ⟨fun s i b hb => ⟨highNibble b, lowNibble b, highNibble_append_lowNibble b, getElem?_hexencX hb⟩,
    fun s i h l hx hy => ?_, fun s => ⟨length_hexencX s, length_hexdecX s⟩⟩
  obtain ⟨x, hx, hhigh⟩ := Option.map_eq_some_iff.1 hx
  obtain ⟨y, hy, hlow⟩ := Option.map_eq_some_iff.1 hy
  exact getElem?_hexdecX hx hy hhigh hlow

/-! ### Encoding a decoding (43_hex.md R179) -/

theorem exists_valHex {c : Byte} (h : badHex c = false) : ∃ n, valHex c = some n := by
  simpa [badHex, Option.isSome_iff_exists] using h

/-- A valid text of even length comes back with its digits in lower case. -/
theorem hexencX_hexdecX {s : List Byte} (h2 : s.length % 2 = 0) (hv : ∀ c ∈ s, badHex c = false) :
    hexencX (hexdecX s) = s.map lowerHex := by
  induction s using hexdecX.induct with
  | case1 x y c ih =>
    simp only [List.forall_mem_cons] at hv
    obtain ⟨hx, hy, hc⟩ := hv
    obtain ⟨m, hm⟩ := exists_valHex hx
    obtain ⟨n, hn⟩ := exists_valHex hy
    obtain ⟨hhigh, hlow⟩ := nibbles_append m n
    have hc2 : c.length % 2 = 0 := (Nat.add_mod_right c.length 2).symm.trans h2
    rw [hexdecX_cons_cons hm hn, hexencX_cons, hhigh, hlow, hexDigit_of_valHex hm, hexDigit_of_valHex hn,
      ih hc2 hc, List.map_cons, List.map_cons]
  | case2 x => cases h2
  | case3 => rfl

theorem lowerHex_eq_self_iff (c : Byte) : lowerHex c = c ↔ ¬ (0x41 ≤ c.toNat ∧ c.toNat ≤ 0x46) := by
  unfold lowerHex
  split_ifs with hupper
  · exact iff_of_false (by bv_omega) (not_not.2 hupper)
  · exact iff_of_true rfl hupper

theorem map_lowerHex_eq_self_iff (s : List Byte) :
    s.map lowerHex = s ↔ ∀ c ∈ s, ¬ (0x41 ≤ c.toNat ∧ c.toNat ≤ 0x46) := by
  conv_lhs => rhs; rw [← List.map_id s]
  simp only [List.map_inj_left, id, lowerHex_eq_self_iff]

/-- Which texts decode, and to what (43_hex.md R177). -/
theorem hexdecPure_eq_ok_iff {s b : List Byte} : hexdecPure s = .ok b ↔
    s.length % 2 = 0 ∧ hexFail s = none ∧ hexdecX s = b := by
  by_cases h2 : s.length % 2 = 0
  · cases hf : hexFail s with
    | none => simp [hexdecPure_valid h2 hf, h2]
    | some q => simp [hexdecPure_invalid h2 hf]
  · simp [hexdecPure_lengthError h2, h2]

theorem hexdecPure_hexencX (b : List Byte) : hexdecPure (hexencX b) = .ok b := by
  have h2 : (hexencX b).length % 2 = 0 := by rw [length_hexencX, Nat.mul_mod_right]
  exact hexdecPure_eq_ok_iff.2 ⟨h2, hexFail_hexencX b, hexdecX_hexencX b⟩

/-- Settles O44: a text that decodes is valid and of even length (`hexdecPure_eq_ok_iff`), so its encoding is
its lower case (`hexencX_hexdecX`), which is the text where it has no upper-case digit. -/
theorem hexRoundTrip : Obligations.HexRoundTrip := by
  refine ⟨hexdecPure_hexencX, fun s b h => ?_⟩
  obtain ⟨h2, hf, rfl⟩ := hexdecPure_eq_ok_iff.1 h
  have hlower := hexencX_hexdecX h2 (hexFail_eq_none.1 hf)
  exact ⟨hlower, hlower ▸ map_lowerHex_eq_self_iff s⟩

end Sys2Proof.Machine
end

section
/-! PROOFS. The exceptions (60_exceptions.md R196, R198 to R200, R202): obligations O16 and O28. -/

namespace Sys2Proof.Machine

/-- Whatever the exception, the block is at rest once it is taken (60_exceptions.md R198 to R200). -/
theorem raise_state_ne_busy (e : Exception) (s : State) : (raise e s).status.state ≠ .busy := by
  cases e with
  | lengthError => exact nofun
  | codecError offset byte => exact nofun
  | fatal => exact nofun

/-- The invariant keeps what START has cleared while the command runs (41_engine.md R107). -/
theorem Inv.errKind_of_busy {s : State} (h : Inv s) (hb : s.status.state = .busy) : s.status.errKind = .none := by
  by_contra hkind
  have herror := h.status.errKindIff.1 hkind
  exact absurd (hb.symm.trans herror) nofun

/-- Settles O16: the cleared registers are those of the invariant, the engine takes no step at rest
(`raise_state_ne_busy`), and `raise` writes the named fields alone. -/
theorem raiseWritesOnlyTheErrorRegisters : Obligations.RaiseWritesOnlyTheErrorRegisters := by
  refine ⟨fun s h hb => ?_, fun e s => engineTurn_resting (raise_state_ne_busy e s),
    fun s => ⟨rfl, fun _ _ => rfl, rfl⟩⟩
  have hkind := h.errKind_of_busy hb
  have hdst : s.dstLen = 0 := h.results.dstLenZero (hb ▸ nofun)
  obtain ⟨hoff, hbyte⟩ := h.results.errZero (hkind ▸ nofun)
  exact ⟨hdst, hoff, hbyte, hkind, (h.engine hb).entry⟩

/-- On an unsupported lane width the first step of a command raises `Fatal`, before ENTRY looks at the
input (60_exceptions.md R196, R197). -/
theorem step_started_unsupported {s : State} (i : Instr) (hs : s.params.supported = false)
    (hscript : s.script = []) : step (s.started i) = .next (raise .fatal (s.started i)) :=
  step_engine hscript rfl ((engineStep_entry rfl).trans (entryStep_fatal hs))

/-- No command gets beyond ENTRY on an unsupported lane width: what ENTRY sizes is supported. -/
theorem Inv.state_of_unsupported {s : State} (h : Inv s) (hs : s.params.supported = false) :
    s.status.state = .idle ∨ (s.status.state = .busy ∧ s.eng.sub = .entry) ∨ s.status.state = .fatal := by
  have hunsupported : s.params.supported ≠ true := hs ▸ nofun
  cases hstate : s.status.state with
  | idle => exact .inl rfl
  | busy =>
    have hentry : s.eng.sub = .entry := by
      by_contra hsub
      exact hunsupported ((h.engine hstate).sized hsub).supported
    exact .inr (.inl ⟨rfl, hentry⟩)
  | done => exact absurd (h.status.endedSupported (.inl hstate)) hunsupported
  | error => exact absurd (h.status.endedSupported (.inr hstate)) hunsupported
  | fatal => exact .inr (.inr rfl)

/-- Settles O28: START clears the registers, the first step raises `Fatal` (`step_started_unsupported`),
and FATAL takes no command; the rest is the invariant. -/
theorem unsupportedWidthEndsInFatal : Obligations.UnsupportedWidthEndsInFatal := by
  refine ⟨fun i j s hs hscript haccepts => ?_, fun s h => ⟨fun hs hfatal => ?_, h.state_of_unsupported⟩⟩
  · have hrun : Host.Core.run core 1 (s.started i) = .next (raise .fatal (s.started i)) :=
      run_succ 0 (step_started_unsupported i hs hscript)
    exact ⟨_, _, exec_accepted i haccepts, hrun, rfl, rfl, rfl, rfl, exec_fatal j rfl⟩
  · exact absurd (hs.symm.trans (h.status.fatalUnsupported hfatal)) nofun

end Sys2Proof.Machine
end

section
/-! PROOFS. A command issued again on the same input (60_exceptions.md R204): obligation O30. -/

namespace Sys2Proof.Machine

/-! ### A result fixes what the host reads -/

theorem Status.eq_of_fields {t u : Status} (hstate : t.state = u.state) (hkind : t.errKind = u.errKind)
    (hpad : t.pad = u.pad) (hop : t.op = u.op) : t = u := by
  obtain ⟨state, errKind, pad, op⟩ := t
  cases hstate; cases hkind; cases hpad; cases hop
  rfl

theorem State.hostView_congr {u v : State} (hstatus : u.status = v.status) (hdst : u.dstLen = v.dstLen)
    (hoff : u.errOffset = v.errOffset) (hbyte : u.errByte = v.errByte)
    (hout : u.obufDefined? = v.obufDefined?) : u.hostView = v.hostView := by
  simp only [State.hostView, State.readReg, hstatus, hdst, hoff, hbyte, hout]

/-- After an error the host reads no defined OBUF byte (10_state.md R35). -/
theorem State.obufDefined?_of_error {u : State} (h : u.status.state = .error) : u.obufDefined? = fun _ => none := by
  funext o
  exact if_neg fun ⟨hdone, _⟩ => nomatch h.symm.trans hdone

/-- The host's view of a command's end is a function of its result, `OP` and `PAD` (41_engine.md R117). -/
theorem State.delivers.hostView_eq {u v : State} {r : CodecResult} (hu : u.delivers r) (hv : v.delivers r)
    (hpad : u.status.pad = v.status.pad) (hop : u.status.op = v.status.op) : u.hostView = v.hostView := by
  cases r with
  | ok out =>
    obtain ⟨hstate, hkind, hdst, hoff, hbyte, hout⟩ := hu
    obtain ⟨hstate', hkind', hdst', hoff', hbyte', hout'⟩ := hv
    exact State.hostView_congr
      (Status.eq_of_fields (hstate.trans hstate'.symm) (hkind.trans hkind'.symm) hpad hop)
      (BitVec.eq_of_toNat_eq (hdst.trans hdst'.symm)) (hoff.trans hoff'.symm) (hbyte.trans hbyte'.symm)
      (funext fun o => (hout o).trans (hout' o).symm)
  | lengthError =>
    obtain ⟨hstate, hkind, hdst, hoff, hbyte⟩ := hu
    obtain ⟨hstate', hkind', hdst', hoff', hbyte'⟩ := hv
    exact State.hostView_congr
      (Status.eq_of_fields (hstate.trans hstate'.symm) (hkind.trans hkind'.symm) hpad hop)
      (hdst.trans hdst'.symm) (hoff.trans hoff'.symm) (hbyte.trans hbyte'.symm)
      ((State.obufDefined?_of_error hstate).trans (State.obufDefined?_of_error hstate').symm)
  | codecError offset byte =>
    obtain ⟨hstate, hkind, hdst, hoff, hbyte⟩ := hu
    obtain ⟨hstate', hkind', hdst', hoff', hbyte'⟩ := hv
    exact State.hostView_congr
      (Status.eq_of_fields (hstate.trans hstate'.symm) (hkind.trans hkind'.symm) hpad hop)
      (hdst.trans hdst'.symm) (BitVec.eq_of_toNat_eq (hoff.trans hoff'.symm)) (hbyte.trans hbyte'.symm)
      ((State.obufDefined?_of_error hstate).trans (State.obufDefined?_of_error hstate').symm)

/-! ### The state a command ends in takes the command again -/

theorem State.delivers.ended {u : State} {r : CodecResult} (h : u.delivers r) :
    u.status.state = .done ∨ u.status.state = .error := by
  cases r with
  | ok out => exact .inl h.1
  | lengthError => exact .inr h.1
  | codecError offset byte => exact .inr h.1

theorem HostSideKept.input {s u : State} (h : HostSideKept s u) : u.input = s.input := by
  simp only [State.input, State.ibufBytes, h.srcLen, h.ibufByte]

/-- Settles O30: the command ends in a state that accepts it again with the same input
(`HostSideKept.input`), and both runs deliver the one pure result (`State.delivers.hostView_eq`). -/
theorem retryGivesTheSameResult : Obligations.RetryGivesTheSameResult := by
  intro i s hwf hs hscript haccepts
  obtain ⟨u, hend, hkept⟩ := exists_commandEnds_kept i hwf hs hscript haccepts.2
  have hfits : u.srcLen.toNat ≤ u.params.nmax := by
    rw [hkept.srcLen, hkept.params]
    exact haccepts.2
  obtain ⟨u', hend', -⟩ := exists_commandEnds_kept i (hkept.params ▸ hwf) (hkept.params ▸ hs)
    (hkept.script.trans hscript) hfits
  have hresult : u'.delivers (pureResult i s.input) := hkept.input ▸ hend'.result
  have hpad : u'.status.pad = u.status.pad := hend'.pad.trans (hkept.input ▸ hend.pad.symm)
  exact ⟨s.started i, u, u.started i, u', exec_accepted i haccepts, hend.steps.run,
    exec_accepted i ⟨.inr hend.result.ended, hfits⟩, hend'.steps.run,
    hresult.hostView_eq hend.result hpad (hend'.op.trans hend.op.symm)⟩

end Sys2Proof.Machine
end

section
/-! PROOFS. The host's accesses of IBUF (10_state.md R34, 60_exceptions.md R195): obligation O56. -/

namespace Sys2Proof.Machine

section
variable {s : State} {o : Nat} (ho : o < s.params.nmax)
include ho

theorem hostAct_readIbuf (hrest : s.status.state ≠ .busy) :
    hostAct (.readIbuf o) s = .next (s.returned (.byte (s.ibufByte o))) := by
  rw [hostAct, readIbufByte, if_neg (Nat.not_le_of_lt ho), if_neg hrest]

theorem hostAct_writeIbuf (b : Byte) (hrest : s.status.state ≠ .busy) :
    hostAct (.writeIbuf o b) s = .next { s with ibuf := s.ibuf.write o b } := by
  rw [hostAct, writeIbufByte, if_neg (Nat.not_le_of_lt ho), if_neg hrest]

theorem hostAct_readIbuf_busy (hb : s.status.state = .busy) :
    hostAct (.readIbuf o) s = .refused .ibufReadWhileBusy := by
  rw [hostAct, readIbufByte, if_neg (Nat.not_le_of_lt ho), if_pos hb]

theorem hostAct_writeIbuf_busy (b : Byte) (hb : s.status.state = .busy) :
    hostAct (.writeIbuf o b) s = .refused .ibufWriteWhileBusy := by
  rw [hostAct, writeIbufByte, if_neg (Nat.not_le_of_lt ho), if_pos hb]

end

theorem State.ibufByte_write (s : State) (o : Nat) (b : Byte) (a : Nat) :
    ({ s with ibuf := s.ibuf.write o b } : State).ibufByte a = if a = o then b else s.ibufByte a := by
  rw [State.ibufByte, Memory.read?_write]
  by_cases ha : a = o
  · rw [if_pos ha, if_pos ha, Option.getD_some]
  · rw [if_neg ha, if_neg ha, State.ibufByte]

/-- Settles O56: outside BUSY a write changes one byte of IBUF (`State.ibufByte_write`), which the next read
returns; in BUSY both accesses are refused. -/
theorem hostAccessesOfIbuf : Obligations.HostAccessesOfIbuf := by
  intro s o b ho
  refine ⟨fun hrest => ⟨hostAct_readIbuf ho hrest, _, hostAct_writeIbuf ho b hrest, rfl, ?_, fun a ha => ?_, ?_⟩,
    fun hb => ⟨hostAct_writeIbuf_busy ho b hb, hostAct_readIbuf_busy ho hb⟩⟩
  · rw [State.ibufByte_write, if_pos rfl]
  · rw [State.ibufByte_write, if_neg ha]
  · have hread := hostAct_readIbuf (s := { s with ibuf := s.ibuf.write o b }) ho hrest
    rwa [State.ibufByte_write, if_pos rfl] at hread

end Sys2Proof.Machine
end

section
/-! PROOFS. Register writes and the reset column (10_state.md R21, R25, R27, R38, 70_reset_and_hazards.md R215,
R223): obligations O7 and O58. -/

namespace Sys2Proof.Machine

/-! ### Register writes (10_state.md R25, R27) -/

theorem hostAct_writeSrcLen {s : State} (v : Word) (hrest : s.status.state ≠ .busy) :
    hostAct (.write 1 v) s = .next { s with srcLen := v } := by
  simp only [hostAct, regOfNumber, writeReg, if_neg hrest]

theorem hostAct_writeSrcLen_busy {s : State} (v : Word) (hb : s.status.state = .busy) :
    hostAct (.write 1 v) s = .refused .srcLenWriteWhileBusy := by
  simp only [hostAct, regOfNumber, writeReg, if_pos hb]

theorem hostAct_write_readOnly (s : State) (v : Word) {r : Nat} (hlo : 2 ≤ r) (hhi : r ≤ 7) :
    hostAct (.write r v) s = .next s := by
  obtain rfl | rfl | rfl | rfl | rfl | rfl : r = 2 ∨ r = 3 ∨ r = 4 ∨ r = 5 ∨ r = 6 ∨ r = 7 := by omega
  all_goals simp only [hostAct, regOfNumber, writeReg]

/-- Settles O7: `SRC_LEN` is the one register whose write depends on `STATUS.STATE`, and the numbers 2 to 7
are the read-only registers (`hostAct_write_readOnly`). -/
theorem registerWritesStoreOnlySrcLen : Obligations.RegisterWritesStoreOnlySrcLen := fun s v =>
  ⟨hostAct_writeSrcLen v, hostAct_writeSrcLen_busy v, fun _ => hostAct_write_readOnly s v⟩

/-! ### The reset column (10_state.md R21, R38, 70_reset_and_hazards.md R215) -/

theorem Status.word_reset : Status.reset.word = 0 := by decide

theorem State.atResetColumn_resetOf (p : Params) : (State.resetOf p).atResetColumn p :=
  ⟨rfl, rfl, Status.word_reset, rfl, rfl, rfl, laneWord_of_lt, rfl, rfl, rfl⟩

theorem readReg_resetEvent (s : State) (r : Reg) :
    (resetEvent s).readReg r = (State.resetOf s.params).readReg r := by
  cases r <;> rfl

/-- The reset column speaks of the register reads, the constants and `STATUS.STATE`, in which the reset event
does not differ from power-on. -/
theorem resetEvent_atResetColumn (s : State) : (resetEvent s).atResetColumn s.params := by
  simp only [State.atResetColumn, readReg_resetEvent]
  exact State.atResetColumn_resetOf s.params

/-- Settles O58: the event leaves the registers as power-on does (`readReg_resetEvent`), and `LANE_W` and `CAP`
read the constants of the block, which it keeps. -/
theorem resetEventRestoresTheResetColumn : Obligations.ResetEventRestoresTheResetColumn :=
  ⟨State.atResetColumn_resetOf, fun s => ⟨resetEvent s, rfl, resetEvent_atResetColumn s, rfl, rfl⟩⟩

end Sys2Proof.Machine
end

section
/-! PROOFS. What a step can do, and that it keeps the invariant (41_engine.md section 3, 30_encoding.md R77):
obligation O19. -/

namespace Sys2Proof.Machine

/-! ### What an engine step can do (41_engine.md R108 to R112) -/

/-- The ends of the engine's step from a BUSY state of the invariant: the three of ENTRY, those of a full and of
a tail step over valid bytes, that of either over an invalid one, and FINISH. -/
inductive EngineEffect (s : State) : State → Prop
  | fatal (hsub : s.eng.sub = .entry) (hs : s.params.supported = false) : EngineEffect s (raise .fatal s)
  | lengthError (hsub : s.eng.sub = .entry) (hs : s.params.supported = true) :
      EngineEffect s (raise .lengthError s)
  | entered (hsub : s.eng.sub = .entry) (hs : s.params.supported = true)
      (hl : lengthBad s.eng.opl s.eng.n = false) : EngineEffect s (s.entered (entryPad s))
  | codecError (hsub : s.transforming) {o : Nat} (b : Byte) (ho : o < s.eng.n) :
      EngineEffect s (raise (.codecError o b) s)
  | full (hsub : s.transforming) (hle : s.eng.idx + s.stepIn ≤ s.eng.neff) : EngineEffect s s.afterFull
  | tail (hsub : s.transforming) (hlt : s.eng.neff < s.eng.idx + s.stepIn) : EngineEffect s s.afterTail
  | finish (hsub : s.eng.sub = .finish) : EngineEffect s (finishStep s)

theorem entryStep_effect {s : State} (hsub : s.eng.sub = .entry) :
    ∃ t, entryStep s = .ok t ∧ EngineEffect s t := by
  cases hs : s.params.supported with
  | false => exact ⟨_, entryStep_fatal hs, .fatal hsub hs⟩
  | true =>
    cases hl : lengthBad s.eng.opl s.eng.n with
    | true => exact ⟨_, entryStep_lengthError hs hl, .lengthError hsub hs⟩
    | false => exact ⟨_, entryStep_entered hs hl, .entered hsub hs hl⟩

/-- An invalid byte of a chunk inside the input is reported at an offset below `N` (41_engine.md R113). -/
theorem ChunkFits.codecError {s : State} {n p : Nat} (hsub : s.transforming) (hfit : ChunkFits s n)
    (hf : failPos s.eng.opl (s.ibufBytes s.eng.idx n) = some p) :
    EngineEffect s (raise (.codecError (s.eng.idx + p) (s.ibufByte (s.eng.idx + p))) s) :=
  .codecError hsub _ ((Nat.add_lt_add_left (lt_of_failPos_ibufBytes hf) _).trans_le hfit.read)

theorem transformStep_effect {s : State} (hsub : s.transforming) (hz : Sized s) (hc : CursorsOk s) :
    ∃ t, engineStep s = .ok t ∧ EngineEffect s t := by
  by_cases hle : s.eng.idx + s.stepIn ≤ s.eng.neff
  · have hfit := fits_full hz hc hle
    cases hf : failPos s.eng.opl (s.ibufBytes s.eng.idx s.stepIn) with
    | none => exact ⟨_, engineStep_full_valid hsub hz.supported hfit hle hf, .full hsub hle⟩
    | some p => exact ⟨_, engineStep_full_invalid hsub hz.supported hfit hle hf, hfit.codecError hsub hf⟩
  · have hlt : s.eng.neff < s.eng.idx + s.stepIn := Nat.lt_of_not_le hle
    have hfit := fits_tail hz hc
    cases hf : failPos s.eng.opl s.rest with
    | none => exact ⟨_, engineStep_tail_valid hsub hz.supported hfit hlt hf, .tail hsub hlt⟩
    | some p => exact ⟨_, engineStep_tail_invalid hsub hz.supported hfit hlt hf, hfit.codecError hsub hf⟩

theorem Inv.engineStep_effect {s t : State} (h : Inv s) (hb : s.status.state = .busy)
    (hstep : engineStep s = .ok t) : EngineEffect s t := by
  have hexists : ∃ u, engineStep s = .ok u ∧ EngineEffect s u := by
    have transform (hsub : s.transforming) : ∃ u, engineStep s = .ok u ∧ EngineEffect s u :=
      have ⟨hz, hc⟩ := h.transforming hb hsub
      transformStep_effect hsub hz hc
    cases hsub : s.eng.sub with
    | entry => exact engineStep_entry hsub ▸ entryStep_effect hsub
    | scalar => exact transform (.inl hsub)
    | vector => exact transform (.inr hsub)
    | finish => exact ⟨_, engineStep_finish hsub, .finish hsub⟩
  obtain ⟨u, hu, heffect⟩ := hexists
  cases hstep.symm.trans hu
  exact heffect

/-! ### An engine step keeps the invariant -/

/-- A full step moves both cursors by whole groups. -/
theorem Inv.afterFull {s : State} (h : Inv s) (hb : s.status.state = .busy) (hsub : s.transforming)
    (hle : s.eng.idx + s.stepIn ≤ s.eng.neff) : Inv s.afterFull := by
  obtain ⟨hz, hc⟩ := h.transforming hb hsub
  have hin : s.stepIn = gIn s.eng.opl * groups s.params.L s.eng.sub s.eng.opl := rfl
  have hout : s.stepOut = gOut s.eng.opl * groups s.params.L s.eng.sub s.eng.opl := rfl
  have hgroup : (s.eng.idx + s.stepIn) % gIn s.eng.opl = 0 := by
    rw [hin, Nat.add_mul_mod_self_left, hc.idxGroup]
  have hodx : s.eng.odx + tailOut s.eng.opl s.stepIn =
      (s.eng.idx + s.stepIn) / gIn s.eng.opl * gOut s.eng.opl := by
    rw [tailOut_step, hin, Nat.add_mul_div_left _ _ (gIn_pos _), Nat.add_mul, ← hc.odxEq, hout,
      Nat.mul_comm (gOut _)]
  have hstored := h.storedChunk hb hsub (fits_full hz hc hle) (.inl ⟨rfl, hle, hgroup, hodx⟩)
  rw [tailOut_step] at hstored
  exact hstored

theorem Inv.afterTail {s : State} (h : Inv s) (hb : s.status.state = .busy) (hsub : s.transforming) :
    Inv s.afterTail :=
  have ⟨hz, hc⟩ := h.transforming hb hsub
  h.storedChunk hb hsub (fits_tail hz hc) (.inr ⟨rfl, rfl, cursors_fill hz hc⟩)

theorem Inv.engineEffect {s t : State} (h : Inv s) (hb : s.status.state = .busy) (ht : EngineEffect s t) :
    Inv t := by
  cases ht with
  | fatal _ hs => exact h.raise hb _ (fun _ => hs) (absurd rfl) nofun
  | lengthError _ hs => exact h.raise hb _ nofun (fun _ => hs) nofun
  | entered _ hs hl => exact h.entered hb hs hl
  | codecError hsub b ho =>
    obtain ⟨hz, -⟩ := h.transforming hb hsub
    refine h.raise hb _ nofun (fun _ => hz.supported) fun o' b' heq => ?_
    cases heq
    exact ho.trans_le (h.engine hb).nLe
  | full hsub hle => exact h.afterFull hb hsub hle
  | tail hsub _ => exact h.afterTail hb hsub
  | finish hsub => exact h.finishStep hb hsub

/-! ### What a host access can do -/

/-- What a host action leaves that is neither an accepted START nor a turn of the engine nor the reset event. -/
inductive AccessEffect (s : State) : State → Prop
  | ignored : AccessEffect s s
  | srcLen (v : Word) : AccessEffect s { s with srcLen := v }
  | ibuf {o : Nat} (b : Byte) (ho : o < s.params.nmax) (hrest : s.status.state ≠ .busy) :
      AccessEffect s { s with ibuf := s.ibuf.write o b }
  | returned (r : ReadBack) : AccessEffect s (s.returned r)
  | drawn (r : ReadBack) : AccessEffect s (State.returned { s with draws := s.draws + 1 } r)
  | polling (r : ReadBack) : AccessEffect s { s.returned r with script := .yieldEngine :: .poll :: s.script }

/-- What a host action can do when it is carried out. -/
inductive HostEffect (s : State) : HostAction → State → Prop
  | reset : HostEffect s .reset (resetEvent s)
  | start (w : Word) (i : Instr) (haccepts : s.acceptsStart) : HostEffect s (.write 0 w) (s.started i)
  | engine {t : State} (hb : s.status.state = .busy) (hstep : engineStep s = .ok t) :
      HostEffect s .yieldEngine t
  | access {t : State} (a : HostAction) (h : AccessEffect s t) : HostEffect s a t

/-- A command is accepted, or ignored in FATAL (41_engine.md R107). -/
theorem exec_next {i : Instr} {s t : State} (h : exec i s = .next t) :
    (s.acceptsStart ∧ t = s.started i) ∨ (s.status.state = .fatal ∧ t = s) := by
  have accepted (hstate : s.status.state = .idle ∨ s.status.state = .done ∨ s.status.state = .error) :
      s.acceptsStart ∧ t = s.started i := by
    by_cases hlen : s.srcLen.toNat ≤ s.params.nmax
    · cases (exec_accepted i ⟨hstate, hlen⟩).symm.trans h
      exact ⟨⟨hstate, hlen⟩, rfl⟩
    · cases (exec_sourceTooLong i hstate (Nat.lt_of_not_le hlen)).symm.trans h
  cases hstate : s.status.state with
  | idle => exact .inl (accepted (.inl hstate))
  | busy => cases (exec_busy i hstate).symm.trans h
  | done => exact .inl (accepted (.inr (.inl hstate)))
  | error => exact .inl (accepted (.inr (.inr hstate)))
  | fatal =>
    cases (exec_fatal i hstate).symm.trans h
    exact .inr ⟨rfl, rfl⟩

theorem engineTurn_fault {s : State} {f : Fault} (hb : s.status.state = .busy) (h : engineStep s = .error f) :
    engineTurn s = .fault f := by
  rw [engineTurn, if_pos hb, h]

theorem engineTurn_next {s t : State} (h : engineTurn s = .next t) :
    (s.status.state = .busy ∧ engineStep s = .ok t) ∨ (s.status.state ≠ .busy ∧ t = s) := by
  by_cases hb : s.status.state = .busy
  · cases hstep : engineStep s with
    | ok u =>
      cases (engineTurn_busy hb hstep).symm.trans h
      exact .inl ⟨hb, rfl⟩
    | error f => cases (engineTurn_fault hb hstep).symm.trans h
  · cases (engineTurn_resting hb).symm.trans h
    exact .inr ⟨hb, rfl⟩

theorem hostAct_writeCtrl_effect {s t : State} {w : Word} (h : hostAct (.write 0 w) s = .next t) :
    HostEffect s (.write 0 w) t := by
  by_cases hres : w.extractLsb' 3 29 = 0
  · cases hstart : w.getLsbD 0 with
    | false =>
      cases (hostAct_writeCtrl_startClear s hres hstart).symm.trans h
      exact .access _ .ignored
    | true =>
      rw [hostAct_writeCtrl_command s (decode_command hres hstart)] at h
      obtain ⟨haccepts, rfl⟩ | ⟨-, rfl⟩ := exec_next h
      · exact .start w _ haccepts
      · exact .access _ .ignored
  · cases (hostAct_writeCtrl_reserved s hres).symm.trans h

theorem regOfNumber_eq_none {r : Nat} (hr : 8 ≤ r) : regOfNumber r = none := by
  obtain ⟨k, rfl⟩ := Nat.exists_eq_add_of_le' hr
  rfl

theorem hostAct_write_effect {s t : State} {r : Nat} {v : Word} (h : hostAct (.write r v) s = .next t) :
    HostEffect s (.write r v) t := by
  obtain rfl | rfl | hother : r = 0 ∨ r = 1 ∨ 2 ≤ r := by omega
  · exact hostAct_writeCtrl_effect h
  · by_cases hb : s.status.state = .busy
    · cases (hostAct_writeSrcLen_busy v hb).symm.trans h
    · cases (hostAct_writeSrcLen v hb).symm.trans h
      exact .access _ (.srcLen v)
  · by_cases hr : r ≤ 7
    · cases (hostAct_write_readOnly s v hother hr).symm.trans h
      exact .access _ .ignored
    · rw [hostAct, regOfNumber_eq_none (Nat.lt_of_not_le hr)] at h
      cases h

theorem hostAct_read {r : Nat} {x : Reg} (hreg : regOfNumber r = some x) (s : State) :
    hostAct (.read r) s = .next (s.returned (.word (s.readReg x))) := by
  rw [hostAct, hreg]

theorem hostAct_read_effect {s t : State} {r : Nat} (h : hostAct (.read r) s = .next t) :
    AccessEffect s t := by
  cases hreg : regOfNumber r with
  | none =>
    rw [hostAct, hreg] at h
    cases h
  | some x =>
    cases (hostAct_read hreg s).symm.trans h
    exact .returned _

theorem pollStatus_resting {s : State} (hrest : s.status.state ≠ .busy) :
    pollStatus s = s.returned (.word s.status.word) :=
  if_neg hrest

theorem pollStatus_busy {s : State} (hb : s.status.state = .busy) : pollStatus s =
    { s.returned (.word s.status.word) with script := .yieldEngine :: .poll :: s.script } :=
  if_pos hb

theorem pollStatus_effect (s : State) : AccessEffect s (pollStatus s) := by
  by_cases hb : s.status.state = .busy
  · exact pollStatus_busy hb ▸ .polling _
  · exact pollStatus_resting hb ▸ .returned _

theorem hostAct_writeIbuf_effect {s t : State} {o : Nat} {b : Byte}
    (h : hostAct (.writeIbuf o b) s = .next t) : AccessEffect s t := by
  by_cases ho : o < s.params.nmax
  · by_cases hb : s.status.state = .busy
    · cases (hostAct_writeIbuf_busy ho b hb).symm.trans h
    · cases (hostAct_writeIbuf ho b hb).symm.trans h
      exact .ibuf b ho hb
  · rw [hostAct, writeIbufByte, if_pos (Nat.le_of_not_lt ho)] at h
    cases h

theorem hostAct_readIbuf_effect {s t : State} {o : Nat} (h : hostAct (.readIbuf o) s = .next t) :
    AccessEffect s t := by
  by_cases ho : o < s.params.nmax
  · by_cases hb : s.status.state = .busy
    · cases (hostAct_readIbuf_busy ho hb).symm.trans h
    · cases (hostAct_readIbuf ho hb).symm.trans h
      exact .returned _
  · rw [hostAct, readIbufByte, if_pos (Nat.le_of_not_lt ho)] at h
    cases h

section
variable {s : State} {o : Nat} (ho : o < s.params.obufCap)
include ho

theorem hostAct_readObuf_defined {b : Byte} (hb : s.obufDefined? o = some b) :
    hostAct (.readObuf o) s = .next (s.returned (.byte b)) := by
  rw [hostAct, readObufByte, if_neg (Nat.not_le_of_lt ho), hb]

theorem hostAct_readObuf_free (hnone : s.obufDefined? o = none) :
    hostAct (.readObuf o) s =
      .next (State.returned { s with draws := s.draws + 1 } (.byte (Config.obufFree s.draws))) := by
  rw [hostAct, readObufByte, if_neg (Nat.not_le_of_lt ho), hnone]

end

theorem hostAct_readObuf_beyond {s : State} {o : Nat} (ho : s.params.obufCap ≤ o) :
    hostAct (.readObuf o) s = .fault .noSuchObufOffset :=
  if_pos ho

theorem hostAct_readObuf_effect {s t : State} {o : Nat} (h : hostAct (.readObuf o) s = .next t) :
    AccessEffect s t := by
  by_cases ho : o < s.params.obufCap
  · cases hdef : s.obufDefined? o with
    | some b =>
      cases (hostAct_readObuf_defined ho hdef).symm.trans h
      exact .returned _
    | none =>
      cases (hostAct_readObuf_free ho hdef).symm.trans h
      exact .drawn _
  · cases (hostAct_readObuf_beyond (Nat.le_of_not_lt ho)).symm.trans h

theorem hostAct_effect {a : HostAction} {s t : State} (h : hostAct a s = .next t) : HostEffect s a t := by
  cases a with
  | write r v => exact hostAct_write_effect h
  | read r => exact .access _ (hostAct_read_effect h)
  | poll =>
    cases h
    exact .access _ (pollStatus_effect s)
  | writeIbuf o b => exact .access _ (hostAct_writeIbuf_effect h)
  | readIbuf o => exact .access _ (hostAct_readIbuf_effect h)
  | readObuf o => exact .access _ (hostAct_readObuf_effect h)
  | yieldEngine =>
    obtain ⟨hb, hstep⟩ | ⟨-, rfl⟩ := engineTurn_next h
    · exact .engine hb hstep
    · exact .access _ .ignored
  | reset =>
    cases h
    exact .reset

/-! ### A step is one action of the host -/

/-- The action that the next step takes; with none pending the engine has its turn (log 2). -/
def State.nextAction (s : State) : HostAction := s.script.headD .yieldEngine

/-- The state with the head of the host's actions taken. -/
def State.popped (s : State) : State := { s with script := s.script.tail }

theorem step_eq_hostAct (s : State) : step s = hostAct s.nextAction s.popped := by
  cases hscript : s.script with
  | nil =>
    have hpopped : s.popped = s := by rw [State.popped, hscript, List.tail_nil, ← hscript]
    rw [State.nextAction, hscript, hpopped, step, transition, hscript]
    rfl
  | cons a rest =>
    rw [step_host hscript, State.nextAction, State.popped, hscript]
    rfl

theorem step_effect {s t : State} (h : step s = .next t) : HostEffect s.popped s.nextAction t :=
  hostAct_effect (step_eq_hostAct s ▸ h)

/-! ### A step keeps the invariant -/

theorem Inv.accessEffect {s t : State} (h : Inv s) (ht : AccessEffect s t) : Inv t := by
  cases ht with
  | ignored => exact h
  | srcLen v => exact h.withSrcLen v
  | ibuf b ho hrest => exact h.writeIbuf b ho hrest
  | returned r => exact h.withReads r
  | drawn r => exact (h.withDraws _).withReads r
  | polling r => exact (h.withReads r).withScript _

/-- Settles O19: a step is an accepted START, an engine step, the reset event or a plain access
(`step_effect`), each of which keeps the invariant; the engine's step by `Inv.engineEffect`. -/
theorem stepKeepsTheInvariant : Obligations.StepKeepsTheInvariant := by
  intro s t hinv hstep
  have h : Inv s.popped := hinv.withScript _
  have heffect := step_effect hstep
  generalize s.nextAction = a at heffect
  cases heffect with
  | reset => exact h.reset
  | start w i haccepts => exact h.started i haccepts.2
  | engine hb hengine => exact h.engineEffect hb (h.engineStep_effect hb hengine)
  | access _ ht => exact h.accessEffect ht

end Sys2Proof.Machine
end

section
/-! PROOFS. Two blocks with the same input (41_engine.md R117, 10_state.md R37): obligation O29. -/

namespace Sys2Proof.Machine

theorem State.input_congr {s t : State} (hlen : s.srcLen = t.srcLen)
    (hbytes : ∀ o < s.srcLen.toNat, s.ibufByte o = t.ibufByte o) : s.input = t.input := by
  rw [State.input, State.input, State.ibufBytes, State.ibufBytes, ← hlen]
  refine List.map_congr_left fun o ho => ?_
  rw [Nat.zero_add]
  exact hbytes o (List.mem_range.1 ho)

theorem CommandEnds.state_ne_busy {s u : State} {i : Instr} (h : CommandEnds s i u) :
    u.status.state ≠ .busy := by
  obtain hdone | herror := h.result.ended
  · exact hdone ▸ nofun
  · exact herror ▸ nofun

/-- Commands of equal input end with equal host views: the result is the pure function of the input. -/
theorem CommandEnds.hostView_eq {s t u v : State} {i : Instr} (hu : CommandEnds s i u)
    (hv : CommandEnds t i v) (hinput : s.input = t.input) : u.hostView = v.hostView := by
  have hresult : v.delivers (pureResult i s.input) := hinput ▸ hv.result
  have hpad : v.status.pad = finalPad i s.input := hinput ▸ hv.pad
  exact hu.result.hostView_eq hresult (hu.pad.trans hpad.symm) (hu.op.trans hv.op.symm)

/-- Settles O29: both runs end (`exists_commandEnds`), and what the host sees of an end is fixed by the input
(`CommandEnds.hostView_eq`), whatever the width, the threshold, the capacity and the rest of the state. -/
theorem resultDependsOnlyOnTheInput : Obligations.ResultDependsOnlyOnTheInput := by
  intro i s s' hwf hwf' hs hs' hscript hscript' haccepts haccepts' hlen hbytes
  obtain ⟨u, hu⟩ := exists_commandEnds (i := i) hs hscript hwf haccepts.2
  obtain ⟨u', hu'⟩ := exists_commandEnds (i := i) hs' hscript' hwf' haccepts'.2
  exact ⟨s.started i, s'.started i, u, u', exec_accepted i haccepts, exec_accepted i haccepts', hu.steps.run,
    hu'.steps.run, hu.state_ne_busy, hu.hostView_eq hu' (State.input_congr hlen hbytes)⟩

end Sys2Proof.Machine
end

section
/-! PROOFS. What the engine leaves alone whatever its state: it neither reads nor writes the host's side, and a
chunk keeps `STATUS` (10_state.md R28, 20_memory.md R63). -/

namespace Sys2Proof.Machine

/-- The state with the fields that no chunk looks at replaced: `STATUS` by a function of itself, the host's
actions, and what the host has read. -/
def State.withFront (s : State) (f : Status → Status) (l : List HostAction) (r : List ReadBack) : State :=
  { s with status := f s.status, script := l, reads := r }

@[simp] theorem State.withFront_eng (s : State) (f : Status → Status) (l : List HostAction)
    (r : List ReadBack) : (s.withFront f l r).eng = s.eng := rfl

/-- The end of a chunk on the state with these fields replaced. -/
def ChunkEnd.withFront (f : Status → Status) (l : List HostAction) (r : List ReadBack) : ChunkEnd → ChunkEnd
  | .invalid p b => .invalid p b
  | .stored t => .stored (t.withFront f l r)

section
variable (s : State) (f : Status → Status) (l : List HostAction) (r : List ReadBack)

/-! ### Stores (40_lane_vector.md R88, R89) -/

theorem memWrite_withFront (o : Nat) (v : List Byte) :
    memWrite (s.withFront f l r) o v = (memWrite s o v).map (·.withFront f l r) := by
  rw [memWrite, memWrite, apply_ite (Except.map _)]
  rfl

theorem storeFull_withFront (o : Nat) (v : Lane) :
    storeFull (s.withFront f l r) o v = (storeFull s o v).map (·.withFront f l r) := by
  rw [storeFull, storeFull, memWrite_withFront, apply_ite (Except.map _)]
  rfl

theorem storeMask_withFront (o : Nat) (v : Lane) (n : Nat) :
    storeMask (s.withFront f l r) o v n = (storeMask s o v n).map (·.withFront f l r) := by
  rw [storeMask, storeMask, memWrite_withFront, apply_ite (Except.map _)]
  rfl

theorem storeLane_withFront (o : Nat) (v : Lane) (n : Nat) :
    storeLane (s.withFront f l r) o v n = (storeLane s o v n).map (·.withFront f l r) := by
  rw [storeLane, storeLane, storeFull_withFront, storeMask_withFront, apply_ite (Except.map _)]
  rfl

theorem storeLanes_withFront (o : Nat) (v w : Lane) (n : Nat) :
    storeLanes (s.withFront f l r) o v w n = (storeLanes s o v w n).map (·.withFront f l r) := by
  rw [storeLanes, storeLanes, storeLane_withFront, storeFull_withFront, apply_ite (Except.map _)]
  refine if_congr Iff.rfl rfl ?_
  cases storeFull s o v with
  | ok t => exact storeLane_withFront t f l r _ w _
  | error e => rfl

theorem storedEnd_map_withFront (x : Except Fault State) :
    storedEnd (x.map (·.withFront f l r)) = (storedEnd x).map (·.withFront f l r) := by
  cases x with
  | ok t => rfl
  | error e => rfl

theorem invalidEnd_map_withFront (p : Nat) (v : Lane) (i : Nat) :
    invalidEnd p v i = (invalidEnd p v i).map (·.withFront f l r) := by
  rw [invalidEnd]
  cases laneValue (extract v i) with
  | ok b => rfl
  | error e => rfl

/-! ### The chunk of each unit: the loads see the same bytes, and only the store gives a state -/

theorem b64encVector_withFront (full : Bool) (n m : Nat) :
    b64encVector (s.withFront f l r) full n m = (b64encVector s full n m).map (·.withFront f l r) := by
  have hload : loadGroups (s.withFront f l r) full n = loadGroups s full n := rfl
  rw [b64encVector, b64encVector, hload]
  cases loadGroups s full n with
  | ok c => simp only [storeLane_withFront, storedEnd_map_withFront]; rfl
  | error e => rfl

theorem b64decVector_withFront (n m : Nat) :
    b64decVector (s.withFront f l r) n m = (b64decVector s n m).map (·.withFront f l r) := by
  have hload : loadLane (s.withFront f l r) s.eng.idx n = loadLane s s.eng.idx n := rfl
  rw [b64decVector, b64decVector, State.withFront_eng, hload]
  cases loadLane s s.eng.idx n with
  | ok v =>
    cases hfail : firstFail (v.map bad64) n with
    | some p => simp only [hfail]; exact invalidEnd_map_withFront f l r p v p
    | none => simp only [hfail, storeLane_withFront, storedEnd_map_withFront]; rfl
  | error e => rfl

theorem hexencVector_withFront (n m : Nat) :
    hexencVector (s.withFront f l r) n m = (hexencVector s n m).map (·.withFront f l r) := by
  have hload : loadLane (s.withFront f l r) s.eng.idx n = loadLane s s.eng.idx n := rfl
  rw [hexencVector, hexencVector, State.withFront_eng, hload]
  cases loadLane s s.eng.idx n with
  | ok v =>
    cases hval : laneValue (hexencLanes v) with
    | ok o => simp only [hval, storeLanes_withFront, storedEnd_map_withFront]
    | error e => simp only [hval]; rfl
  | error e => rfl

theorem hexdecVector_withFront (n m : Nat) :
    hexdecVector (s.withFront f l r) n m = (hexdecVector s n m).map (·.withFront f l r) := by
  have hload : loadLanes (s.withFront f l r) s.eng.idx n = loadLanes s s.eng.idx n := rfl
  rw [hexdecVector, hexdecVector, State.withFront_eng, hload]
  cases loadLanes s s.eng.idx n with
  | ok v =>
    dsimp only
    cases firstFail2 ((deinterleave v.1 v.2).1.map badHex) ((deinterleave v.1 v.2).2.map badHex) n with
    | some q => exact invalidEnd_map_withFront f l r q _ _
    | none =>
      cases laneValue (hexdecLane (deinterleave v.1 v.2).1 (deinterleave v.1 v.2).2) with
      | ok o => simp only [storeLane_withFront, storedEnd_map_withFront]
      | error e => rfl
  | error e => rfl

theorem scalarChunk_withFront (n : Nat) :
    scalarChunk (s.withFront f l r) n = (scalarChunk s n).map (·.withFront f l r) := by
  have hload : memRead (s.withFront f l r) s.eng.idx n = memRead s s.eng.idx n := rfl
  rw [scalarChunk, scalarChunk, State.withFront_eng, hload]
  cases memRead s s.eng.idx n with
  | ok c =>
    dsimp only
    cases failPos s.eng.opl c with
    | some p => exact invalidEnd_map_withFront f l r p c p
    | none => simp only [memWrite_withFront, storedEnd_map_withFront]
  | error e => rfl

theorem vectorChunk_withFront (full : Bool) (n m : Nat) :
    vectorChunk (s.withFront f l r) full n m = (vectorChunk s full n m).map (·.withFront f l r) := by
  rw [vectorChunk, vectorChunk, State.withFront_eng]
  cases s.eng.opl with
  | b64enc => exact b64encVector_withFront s f l r full n m
  | b64dec => exact b64decVector_withFront s f l r n m
  | hexenc => exact hexencVector_withFront s f l r n m
  | hexdec => exact hexdecVector_withFront s f l r n m

theorem chunk_withFront (full : Bool) (n m : Nat) :
    chunk (s.withFront f l r) full n m = (chunk s full n m).map (·.withFront f l r) := by
  rw [chunk, chunk, vectorChunk_withFront, scalarChunk_withFront, apply_ite (Except.map _)]
  rfl

end

/-- A stored chunk has left `STATUS` as it was. -/
theorem chunk_stored_status {s t : State} {full : Bool} {n m : Nat} (h : chunk s full n m = .ok (.stored t)) :
    t.status = s.status := by
  have hsame := chunk_withFront s (fun _ => s.status) s.script s.reads full n m
  rw [show s.withFront (fun _ => s.status) s.script s.reads = s from rfl, h] at hsame
  have hstored : t = t.withFront (fun _ => s.status) s.script s.reads :=
    ChunkEnd.stored.inj (Except.ok.inj hsame)
  have hstatus := congrArg State.status hstored
  exact hstatus

end Sys2Proof.Machine
end

section
/-! PROOFS. The life of `STATUS.STATE` (10_state.md R24, R26): obligations O21 and O22. -/

namespace Sys2Proof.Machine

/-! ### Plain accesses and the engine's step leave `STATUS.STATE` within its transitions -/

theorem AccessEffect.registersKept {s t : State} (h : AccessEffect s t) :
    t.status = s.status ∧ t.dstLen = s.dstLen ∧ t.errOffset = s.errOffset ∧ t.errByte = s.errByte := by
  cases h with
  | ignored | srcLen | ibuf | returned | drawn | polling => exact ⟨rfl, rfl, rfl, rfl⟩

/-- A command that runs goes on running, or ends in DONE, ERROR or FATAL (10_state.md R24). -/
def RunsOrEnds (s t : State) : Prop :=
  t.status.state = s.status.state ∨ t.status.state = .done ∨ t.status.state = .error ∨ t.status.state = .fatal

theorem raise_runsOrEnds (e : Exception) (s : State) : RunsOrEnds s (raise e s) := by
  cases e with
  | lengthError | codecError => exact .inr (.inr (.inl rfl))
  | fatal => exact .inr (.inr (.inr rfl))

theorem entryStep_runsOrEnds {s t : State} (h : entryStep s = .ok t) : RunsOrEnds s t := by
  cases hs : s.params.supported with
  | false =>
    cases (entryStep_fatal hs).symm.trans h
    exact raise_runsOrEnds _ s
  | true =>
    cases hl : lengthBad s.eng.opl s.eng.n with
    | true =>
      cases (entryStep_lengthError hs hl).symm.trans h
      exact raise_runsOrEnds _ s
    | false =>
      cases (entryStep_entered hs hl).symm.trans h
      exact .inl rfl

theorem afterChunk_runsOrEnds {s : State} {full : Bool} {n m : Nat} {e : ChunkEnd}
    (h : chunk s full n m = .ok e) (idx odx : Nat) (sub : SubPhase) :
    RunsOrEnds s (afterChunk s e idx odx sub) := by
  cases e with
  | invalid p b => exact raise_runsOrEnds _ s
  | stored u =>
    have hstatus := chunk_stored_status h
    exact .inl (congrArg Status.state hstatus)

theorem fullStep_runsOrEnds {s t : State} (h : fullStep s = .ok t) : RunsOrEnds s t := by
  rw [fullStep] at h
  cases hchunk : chunk s true s.stepIn s.stepOut with
  | error f =>
    rw [hchunk] at h
    cases h
  | ok e =>
    rw [hchunk] at h
    have hend := afterChunk_runsOrEnds hchunk (s.eng.idx + s.stepIn) (s.eng.odx + s.stepOut) s.eng.sub
    cases e with
    | invalid | stored =>
      cases h
      exact hend

theorem tailStep_runsOrEnds {s t : State} (h : tailStep s = .ok t) : RunsOrEnds s t := by
  rw [tailStep] at h
  by_cases hzero : s.eng.neff - s.eng.idx = 0
  · rw [if_pos hzero] at h
    cases h
    exact .inl rfl
  · rw [if_neg hzero] at h
    cases hchunk : chunk s false (s.eng.neff - s.eng.idx) (tailOut s.eng.opl (s.eng.neff - s.eng.idx)) with
    | error f =>
      rw [hchunk] at h
      cases h
    | ok e =>
      rw [hchunk] at h
      have hend := afterChunk_runsOrEnds hchunk s.eng.neff
        (s.eng.odx + tailOut s.eng.opl (s.eng.neff - s.eng.idx)) .finish
      cases e with
      | invalid | stored =>
        cases h
        exact hend

theorem engineStep_runsOrEnds {s t : State} (h : engineStep s = .ok t) : RunsOrEnds s t := by
  have transform (hsub : s.transforming) : RunsOrEnds s t := by
    rw [engineStep_transforming hsub] at h
    by_cases hle : s.eng.idx + s.stepIn ≤ s.eng.neff
    · rw [if_pos hle] at h
      exact fullStep_runsOrEnds h
    · rw [if_neg hle] at h
      exact tailStep_runsOrEnds h
  cases hsub : s.eng.sub with
  | entry => exact entryStep_runsOrEnds (engineStep_entry hsub ▸ h)
  | scalar => exact transform (.inl hsub)
  | vector => exact transform (.inr hsub)
  | finish =>
    cases (engineStep_finish hsub).symm.trans h
    exact .inr (.inl rfl)

/-! ### The head of the host's actions -/

theorem State.head?_of_nextAction {s : State} {a : HostAction} (h : s.nextAction = a) (ha : a ≠ .yieldEngine) :
    s.script.head? = some a := by
  cases hscript : s.script with
  | nil =>
    rw [State.nextAction, hscript] at h
    exact absurd h.symm ha
  | cons b rest =>
    rw [State.nextAction, hscript] at h
    exact congrArg some h

theorem State.script_of_yieldEngine {s : State} (h : s.nextAction = .yieldEngine) :
    s.script = [] ∨ s.script.head? = some .yieldEngine := by
  cases hscript : s.script with
  | nil => exact .inl rfl
  | cons b rest =>
    rw [State.nextAction, hscript] at h
    exact .inr (congrArg some h)

/-- Settles O21: of what a step can do (`step_effect`), the reset event and START are excluded by the host's
action (START in FATAL by the state), the engine's step by the state, and a plain access keeps the registers. -/
theorem restingStatesPersist : Obligations.RestingStatesPersist := by
  intro s t hstep hreset hrest
  have heffect := step_effect hstep
  generalize hnext : s.nextAction = a at heffect
  cases heffect with
  | reset => exact absurd (State.head?_of_nextAction hnext nofun) hreset
  | start w i haccepts =>
    obtain hfatal | ⟨-, hctrl⟩ := hrest
    · obtain ⟨hidle | hdone | herror, -⟩ := haccepts
      · cases hfatal.symm.trans hidle
      · cases hfatal.symm.trans hdone
      · cases hfatal.symm.trans herror
    · exact absurd (State.head?_of_nextAction hnext nofun) (hctrl w)
  | engine hb _ =>
    obtain hfatal | ⟨hidle | hdone | herror, -⟩ := hrest
    · cases hfatal.symm.trans hb
    · cases hidle.symm.trans hb
    · cases hdone.symm.trans hb
    · cases herror.symm.trans hb
  | access _ h => exact h.registersKept

/-- Settles O22: a step that changes the state is one of the other three that `step_effect` gives; where the
engine's step leads is `engineStep_runsOrEnds`, which needs no invariant. -/
theorem statusLifeCycle : Obligations.StatusLifeCycle := by
  intro s t hstep hchange
  have heffect := step_effect hstep
  generalize hnext : s.nextAction = a at heffect
  cases heffect with
  | reset => exact .inl ⟨State.head?_of_nextAction hnext nofun, rfl⟩
  | start w i haccepts => exact .inr (.inl ⟨⟨w, State.head?_of_nextAction hnext nofun⟩, rfl, haccepts.1⟩)
  | engine hb hengine =>
    exact .inr (.inr ⟨hb, State.script_of_yieldEngine hnext, (engineStep_runsOrEnds hengine).resolve_left hchange⟩)
  | access _ h =>
    obtain ⟨hstatus, -⟩ := h.registersKept
    exact absurd (congrArg Status.state hstatus) hchange

end Sys2Proof.Machine
end

section
/-! PROOFS. The host program of CALL (30_encoding.md R77, R78): obligation O31. -/

namespace Sys2Proof.Machine

/-! ### The engine does not see the host -/

/-- The state with another list of host actions and of returned reads. -/
def State.withHost (s : State) (l : List HostAction) (r : List ReadBack) : State := s.withFront id l r

section
variable (s : State) (l : List HostAction) (r : List ReadBack)

theorem fullStep_withHost : fullStep (s.withHost l r) = (fullStep s).map (·.withHost l r) := by
  have hchunk : chunk (s.withHost l r) true s.stepIn s.stepOut = _ := chunk_withFront s id l r _ _ _
  rw [fullStep, fullStep, show (s.withHost l r).stepIn = s.stepIn from rfl,
    show (s.withHost l r).stepOut = s.stepOut from rfl, hchunk]
  cases chunk s true s.stepIn s.stepOut with
  | ok e => cases e <;> rfl
  | error f => rfl

theorem tailStep_withHost : tailStep (s.withHost l r) = (tailStep s).map (·.withHost l r) := by
  have hchunk (n m : Nat) : chunk (s.withHost l r) false n m = _ := chunk_withFront s id l r _ n m
  rw [tailStep, tailStep, apply_ite (Except.map _), hchunk]
  refine if_congr Iff.rfl rfl ?_
  rw [State.withHost, State.withFront_eng]
  cases chunk s false (s.eng.neff - s.eng.idx) (tailOut s.eng.opl (s.eng.neff - s.eng.idx)) with
  | ok e => cases e <;> rfl
  | error f => rfl

theorem entryStep_withHost : entryStep (s.withHost l r) = (entryStep s).map (·.withHost l r) := by
  have hpad : detectPadding (s.withHost l r) = detectPadding s := rfl
  rw [entryStep, entryStep, hpad, apply_ite (Except.map _), apply_ite (Except.map _)]
  refine if_congr Iff.rfl rfl (if_congr Iff.rfl rfl ?_)
  cases detectPadding s <;> rfl

theorem engineStep_withHost : engineStep (s.withHost l r) = (engineStep s).map (·.withHost l r) := by
  have transform (hsub : s.transforming) :
      engineStep (s.withHost l r) = (engineStep s).map (·.withHost l r) := by
    have hsub' : (s.withHost l r).transforming := hsub
    rw [engineStep_transforming hsub, engineStep_transforming hsub', fullStep_withHost, tailStep_withHost,
      apply_ite (Except.map _)]
    rfl
  cases hsub : s.eng.sub with
  | entry =>
    have hsub' : (s.withHost l r).eng.sub = .entry := hsub
    rw [engineStep_entry hsub, engineStep_entry hsub', entryStep_withHost]
  | scalar => exact transform (.inl hsub)
  | vector => exact transform (.inr hsub)
  | finish =>
    have hsub' : (s.withHost l r).eng.sub = .finish := hsub
    rw [engineStep_finish hsub, engineStep_finish hsub']
    rfl

end

theorem engineStep_ok_withHost {s t : State} (h : engineStep s = .ok t) (l : List HostAction)
    (r : List ReadBack) : engineStep (s.withHost l r) = .ok (t.withHost l r) := by
  rw [engineStep_withHost, h]
  rfl

theorem engineStep_script {s t : State} (h : engineStep s = .ok t) : t.script = s.script :=
  have hsame : Except.ok t = .ok (t.withHost s.script s.reads) :=
    h.symm.trans (engineStep_ok_withHost h s.script s.reads)
  have hscript := congrArg State.script (Except.ok.inj hsame)
  hscript

/-! ### POLL (30_encoding.md R77, log 12) -/

/-- A run that goes on begins with a step that does. -/
theorem run_succ_next {k : Nat} {s u : State} (h : Host.Core.run core (k + 1) s = .next u) :
    ∃ t, step s = .next t ∧ Host.Core.run core k t = .next u := by
  cases hstep : core.step s with
  | next t => exact ⟨t, hstep, by rwa [run_succ k hstep] at h⟩
  | fault f => simp only [Host.Core.run, hstep, reduceCtorEq] at h
  | refused f => simp only [Host.Core.run, hstep, reduceCtorEq] at h

theorem BusyRun.uncons {k : Nat} {s u : State} (h : BusyRun (k + 1) s u) :
    s.status.state = .busy ∧ ∃ t, step s = .next t ∧ BusyRun k t u := by
  obtain ⟨v, hv, hb⟩ := h.busy 0 k.succ_pos
  cases hv
  obtain ⟨t, hstep, hrun⟩ := run_succ_next h.run
  refine ⟨hb, t, hstep, hrun, fun j hj => ?_⟩
  obtain ⟨v, hv, hbusy⟩ := h.busy (j + 1) (Nat.succ_lt_succ hj)
  exact ⟨v, (run_succ j hstep).symm.trans hv, hbusy⟩

/-- A POLL of a block at rest reads `STATUS` once. -/
theorem step_poll_resting {s : State} (hrest : s.status.state ≠ .busy) (l : List HostAction)
    (r : List ReadBack) :
    step (s.withHost (.poll :: l) r) = .next (s.withHost l (.word s.status.word :: r)) :=
  (step_host rfl).trans (congrArg _ (pollStatus_resting (s := s.withHost l r) hrest))

/-- A POLL of a BUSY block reads `STATUS`, lets the engine take its step, and polls again. -/
theorem run_poll_busy {s t : State} (hb : s.status.state = .busy) (hstep : engineStep s = .ok t)
    (l : List HostAction) (r : List ReadBack) (k : Nat) :
    Host.Core.run core (k + 2) (s.withHost (.poll :: l) r) =
      Host.Core.run core k (t.withHost (.poll :: l) (.word s.status.word :: r)) := by
  have hpoll : step (s.withHost (.poll :: l) r) =
      .next (s.withHost (.yieldEngine :: .poll :: l) (.word s.status.word :: r)) :=
    (step_host rfl).trans (congrArg _ (pollStatus_busy (s := s.withHost l r) hb))
  have hturn : step (s.withHost (.yieldEngine :: .poll :: l) (.word s.status.word :: r)) =
      .next (t.withHost (.poll :: l) (.word s.status.word :: r)) := by
    rw [step_host rfl]
    exact engineTurn_busy hb (engineStep_ok_withHost hstep _ _)
  rw [run_succ (k + 1) hpoll, run_succ k hturn]

/-- A POLL follows a run of the engine to its end, and its last read shows that end. -/
theorem BusyRun.poll {k : Nat} {s u : State} (h : BusyRun k s u) (hscript : s.script = [])
    (hend : u.status.state ≠ .busy) (r : List ReadBack) :
    ∃ j r', Host.Core.run core j (s.withHost [.poll] r) =
      .next (u.withHost [] (.word u.status.word :: r')) := by
  induction k generalizing s r with
  | zero =>
    cases h.run
    exact ⟨1, r, run_succ 0 (step_poll_resting hend [] r)⟩
  | succ k ih =>
    obtain ⟨hb, t, hstep, hrest⟩ := h.uncons
    have hturn : engineTurn s = .next t := by rwa [step, transition, hscript] at hstep
    obtain ⟨-, hengine⟩ | ⟨hnot, -⟩ := engineTurn_next hturn
    · obtain ⟨j, r', hrun⟩ := ih hrest ((engineStep_script hengine).trans hscript) (.word s.status.word :: r)
      exact ⟨j + 2, r', (run_poll_busy hb hengine [] r j).trans hrun⟩
    · exact absurd hb hnot

/-! ### The host's writes before the command -/

theorem run_add {j : Nat} (k : Nat) {s t : State} (h : Host.Core.run core j s = .next t) :
    Host.Core.run core (j + k) s = Host.Core.run core k t := by
  induction j generalizing s with
  | zero =>
    cases h
    rw [Nat.zero_add]
  | succ j ih =>
    obtain ⟨u, hstep, hrun⟩ := run_succ_next h
    rw [Nat.add_right_comm, run_succ _ hstep, ih hrun]

/-- The writes of an input take one step a byte, and leave the input in IBUF. -/
theorem run_writeIbufActions (b : List Byte) (o : Nat) {s : State} {rest : List HostAction}
    (hscript : s.script = writeIbufActions o b ++ rest) (hrest : s.status.state ≠ .busy)
    (hfits : o + b.length ≤ s.params.nmax) :
    Host.Core.run core b.length s = .next { s with ibuf := s.ibuf.writeBytes o b, script := rest } := by
  induction b generalizing o s with
  | nil =>
    rw [writeIbufActions, List.nil_append] at hscript
    subst hscript
    rfl
  | cons x b ih =>
    rw [List.length_cons] at hfits
    have hstep : step s = .next { s with ibuf := s.ibuf.write o x, script := writeIbufActions (o + 1) b ++ rest } :=
      (step_host hscript).trans (hostAct_writeIbuf (by show o < s.params.nmax; omega) x hrest)
    rw [List.length_cons, run_succ _ hstep]
    exact ih (o + 1) rfl hrest (by show o + 1 + b.length ≤ s.params.nmax; omega)

/-- The block with the input `b` and its length in place, the host's actions all taken. -/
def State.loaded (s : State) (b : List Byte) : State :=
  { s with ibuf := s.ibuf.writeBytes 0 b, srcLen := BitVec.ofNat 32 b.length, script := [] }

section
variable {s : State} {b : List Byte} (hlen : b.length < 2 ^ 32)
include hlen

theorem State.toNat_srcLen_loaded : (s.loaded b).srcLen.toNat = b.length := toNat_word_ofNat hlen

theorem State.input_loaded : (s.loaded b).input = b := by
  apply List.ext_getElem?
  intro o
  rw [State.input, State.getElem?_ibufBytes, State.toNat_srcLen_loaded hlen, Nat.zero_add]
  by_cases ho : o < b.length
  · have hread : (s.ibuf.writeBytes 0 b).read? o = b[o]? :=
      Memory.read?_writeBytes_inside _ _ _ _ (by omega)
    rw [if_pos ho, State.ibufByte, State.loaded, hread, List.getElem?_eq_getElem ho, Option.getD_some]
  · rw [if_neg ho, List.getElem?_eq_none (Nat.le_of_not_lt ho)]

end

/-- CALL up to its POLL: the input is in place and the command is started. -/
theorem run_callProgram {i : Instr} {b : List Byte} {s : State} (hscript : s.script = callProgram i b)
    (hrest : s.status.state ≠ .busy) (hfits : b.length ≤ s.params.nmax) (haccepts : (s.loaded b).acceptsStart) :
    Host.Core.run core (b.length + 2) s = .next (((s.loaded b).started i).withHost [.poll] s.reads) := by
  have hwrites := run_writeIbufActions b 0 hscript hrest (by rwa [Nat.zero_add])
  have hsrcLen : step { s with
      ibuf := s.ibuf.writeBytes 0 b
      script := [.write 1 (BitVec.ofNat 32 b.length), commandAction i, .poll] } =
      .next ((s.loaded b).withHost [commandAction i, .poll] s.reads) :=
    (step_host rfl).trans (hostAct_writeSrcLen _ hrest)
  have hstart : step ((s.loaded b).withHost [commandAction i, .poll] s.reads) =
      .next (((s.loaded b).started i).withHost [.poll] s.reads) := by
    rw [step_host rfl, commandAction, hostAct_writeCtrl_command _ (decode_encode i)]
    exact exec_accepted (s := (s.loaded b).withHost [.poll] s.reads) i haccepts
  rw [run_add 2 hwrites, run_succ 1 hsrcLen, run_succ 0 hstart]
  rfl

/-- Settles O31: the writes and the START lead to the started command (`run_callProgram`), whose run ends with
the pure function of the input (`exists_commandEnds`); POLL follows that run (`BusyRun.poll`), because the engine
does not see the host (`engineStep_withHost`). -/
theorem callDeliversThePureFunction : Obligations.CallDeliversThePureFunction := by
  intro i b s hwf hs hfits hstate hscript
  have hlen : b.length < 2 ^ 32 := by have := nmax_lt hwf; omega
  have hrest : s.status.state ≠ .busy := by
    rcases hstate with h | h | h <;> exact h ▸ nofun
  have haccepts : (s.loaded b).acceptsStart := ⟨hstate, (State.toNat_srcLen_loaded hlen).trans_le hfits⟩
  obtain ⟨u, hend⟩ := exists_commandEnds (s := s.loaded b) (i := i) hs rfl hwf haccepts.2
  obtain ⟨j, r', hpoll⟩ := hend.steps.poll rfl hend.state_ne_busy s.reads
  have hinput := State.input_loaded (s := s) hlen
  have hresult : u.delivers (pureResult i b) := hinput ▸ hend.result
  have hpad : u.status.pad = finalPad i b := hinput ▸ hend.pad
  exact ⟨b.length + 2 + j, u.withHost [] (.word u.status.word :: r'),
    (run_add j (run_callProgram hscript hrest hfits haccepts)).trans hpoll, rfl, hresult, hend.op, hpad, rfl⟩

end Sys2Proof.Machine
end

section
/-! PROOFS. The frame of the engine's steps, and FINISH (10_state.md section 2, 41_engine.md R110 to R112):
obligations O15 and O17. -/

namespace Sys2Proof.Machine

theorem State.transforming.sub_ne {s : State} (h : s.transforming) :
    s.eng.sub ≠ .entry ∧ s.eng.sub ≠ .finish := by
  obtain hscalar | hvector := h
  · exact hscalar ▸ ⟨nofun, nofun⟩
  · exact hvector ▸ ⟨nofun, nofun⟩

/-! ### What every engine step leaves unchanged -/

/-- The constants, the host's side, the latches of START, `STATUS.OP` and IBUF. -/
structure EngineFrame (s t : State) : Prop where
  params : t.params = s.params
  srcLen : t.srcLen = s.srcLen
  epoch : t.epoch = s.epoch
  draws : t.draws = s.draws
  script : t.script = s.script
  reads : t.reads = s.reads
  op : t.status.op = s.status.op
  opl : t.eng.opl = s.eng.opl
  n : t.eng.n = s.eng.n
  ibuf : t.ibuf = s.ibuf

section
variable {s t : State} (h : EngineEffect s t)
include h

theorem EngineEffect.frame : EngineFrame s t := by
  cases h with
  | fatal | lengthError | entered | codecError | full | tail | finish =>
    exact ⟨rfl, rfl, rfl, rfl, rfl, rfl, rfl, rfl, rfl, rfl⟩

/-- After ENTRY the sizes it computed stay (41_engine.md R108). -/
theorem EngineEffect.sizesKept (hsub : s.eng.sub ≠ .entry) :
    t.eng.padc = s.eng.padc ∧ t.eng.neff = s.eng.neff ∧ t.eng.olen = s.eng.olen ∧
      t.status.pad = s.status.pad := by
  cases h with
  | fatal hentry | lengthError hentry | entered hentry => exact absurd hentry hsub
  | codecError | full | tail | finish => exact ⟨rfl, rfl, rfl, rfl⟩

/-- `DST_LEN` is written by FINISH alone (41_engine.md R112). -/
theorem EngineEffect.dstLenKept (hsub : s.eng.sub ≠ .finish) : t.dstLen = s.dstLen := by
  cases h with
  | fatal | lengthError | entered | codecError | full | tail => rfl
  | finish hfinish => exact absurd hfinish hsub

/-- `ERR_OFFSET` and `ERR_BYTE` are written by `CodecError` alone (60_exceptions.md R198 to R200). -/
theorem EngineEffect.errorKept (hkind : t.status.errKind ≠ .codec) :
    t.errOffset = s.errOffset ∧ t.errByte = s.errByte := by
  cases h with
  | fatal | lengthError | entered | full | tail | finish => exact ⟨rfl, rfl⟩
  | codecError => exact absurd rfl hkind

/-- OBUF is written by a transform step over valid bytes alone. -/
theorem EngineEffect.obufKept (hb : s.status.state = .busy)
    (hcase : s.eng.sub = .entry ∨ s.eng.sub = .finish ∨ t.status.state = .error) : t.obuf = s.obuf := by
  cases h with
  | fatal | lengthError | entered | codecError | finish => rfl
  | full hsub | tail hsub =>
    obtain ⟨hentry, hfinish⟩ := hsub.sub_ne
    obtain h | h | h := hcase
    · exact absurd h hentry
    · exact absurd h hfinish
    · exact nomatch hb.symm.trans h

theorem EngineEffect.obufKept_outside_full (hle : s.eng.idx + s.stepIn ≤ s.eng.neff) {o : Nat}
    (ho : o < s.eng.odx ∨ s.eng.odx + s.stepOut ≤ o) : t.obuf.read? o = s.obuf.read? o := by
  cases h with
  | fatal | lengthError | entered | codecError | finish => rfl
  | full => exact Memory.read?_writeBytes_outside _ _ _ _ (by rwa [length_xform, State.length_ibufBytes, tailOut_step])
  | tail _ hlt => exact absurd hle (Nat.not_le_of_lt hlt)

theorem EngineEffect.obufKept_outside_tail (hlt : s.eng.neff < s.eng.idx + s.stepIn) {o : Nat}
    (ho : o < s.eng.odx ∨ s.eng.odx + tailOut s.eng.opl (s.eng.neff - s.eng.idx) ≤ o) :
    t.obuf.read? o = s.obuf.read? o := by
  cases h with
  | fatal | lengthError | entered | codecError | finish => rfl
  | full _ hle => exact absurd hle (Nat.not_le_of_lt hlt)
  | tail => exact Memory.read?_writeBytes_outside _ _ _ _ (by rwa [length_xform, State.rest, State.length_ibufBytes])

end

/-- Settles O17: the step is one of those that `Inv.engineStep_effect` gives, and each part of the frame is read
off its next state. -/
theorem engineStepFrame : Obligations.EngineStepFrame := by
  intro s t hinv hb hstep
  have h := hinv.engineStep_effect hb hstep
  obtain ⟨hparams, hsrcLen, hepoch, hdraws, hscript, hreads, hop, hopl, hn, hibuf⟩ := h.frame
  exact ⟨hparams, hsrcLen, hepoch, hdraws, hscript, hreads, hop, hopl, hn, h.sizesKept, h.dstLenKept, h.errorKept,
    State.ibufByte_congr hibuf hepoch, fun hcase o => congrArg (·.read? o) (h.obufKept hb hcase),
    fun _ hle _ => h.obufKept_outside_full hle, fun _ hlt _ => h.obufKept_outside_tail hlt⟩

/-! ### FINISH (41_engine.md R112) -/

/-- Settles O15: FINISH is `finishStep`; before it the invariant has the cursors at their ends
(`EngineOk.finish`), every byte below `ODX` listed, and the error registers as START cleared them. -/
theorem finishPublishesTheLength : Obligations.FinishPublishesTheLength := by
  refine ⟨fun s hsub => engineStep_finish hsub, fun s hinv hb hsub => ?_⟩
  obtain ⟨hz, hidx, hodx⟩ := (hinv.engine hb).finish hsub
  have hkind := hinv.errKind_of_busy hb
  obtain ⟨hoff, hbyte⟩ := hinv.results.errZero (hkind ▸ nofun)
  exact ⟨hidx, hodx, hkind, hoff, hbyte, hodx ▸ hz.odxListed⟩

end Sys2Proof.Machine
end

section
/-! PROOFS. The padding of an encoding, and where the decoders fail (42_base64.md R146, R151 to R153, 43_hex.md
R174, R176): obligations O37, O39 and O45. -/

namespace Sys2Proof.Machine

/-- Settles O37: the symbols are those of `sextetsOf`, and the length is that of whole groups of 4. -/
theorem encodingEndsInItsPadding : Obligations.EncodingEndsInItsPadding := fun b =>
  ⟨sextetsOf b, b64encX_eq_sextets b, length_b64encX b, by rw [length_b64encX, Nat.mul_mod_right]⟩

/-! ### The first byte that fails a range test -/

/-- The first failing position of `v` is `o`, and its byte is `x`. -/
def FailsFirstAt (fails : Byte → Bool) (v : List Byte) (o : Nat) (x : Byte) : Prop :=
  v[o]? = some x ∧ fails x = true ∧ ∀ q < o, ∃ d, v[q]? = some d ∧ fails d = false

theorem failsFirstAt_iff {fails : Byte → Bool} {v : List Byte} {o : Nat} {x : Byte} :
    FailsFirstAt fails v o x ↔ v.findIdx? fails = some o ∧ v.getD o 0 = x := by
  rw [List.findIdx?_eq_some_iff_getElem]
  constructor
  · rintro ⟨hx, hfail, hbefore⟩
    obtain ⟨ho, rfl⟩ := List.getElem?_eq_some_iff.1 hx
    refine ⟨⟨ho, hfail, fun q hq => ?_⟩, List.getD_eq_getElem _ _ ho⟩
    obtain ⟨d, hd, hvalid⟩ := hbefore q hq
    obtain ⟨_, rfl⟩ := List.getElem?_eq_some_iff.1 hd
    exact Bool.not_eq_true _ ▸ hvalid
  · rintro ⟨⟨ho, hfail, hbefore⟩, rfl⟩
    rw [List.getD_eq_getElem _ _ ho]
    exact ⟨List.getElem?_eq_getElem ho, hfail, fun q hq =>
      ⟨v[q], List.getElem?_eq_getElem (hq.trans ho), Bool.not_eq_true _ ▸ hbefore q hq⟩⟩

/-- The first failing position of a text's beginning is that of the whole, if it lies there. -/
theorem failsFirstAt_take {fails : Byte → Bool} {v : List Byte} {n o : Nat} {x : Byte} :
    FailsFirstAt fails (v.take n) o x ↔ o < n ∧ FailsFirstAt fails v o x := by
  by_cases ho : o < n
  · have hsame (q : Nat) (hq : q ≤ o) : (v.take n)[q]? = v[q]? :=
      List.getElem?_take_of_lt (hq.trans_lt ho)
    rw [FailsFirstAt, hsame o le_rfl, FailsFirstAt, and_iff_right ho]
    refine and_congr_right fun _ => and_congr_right fun _ => forall₂_congr fun q hq => ?_
    rw [hsame q hq.le]
  · have hnone : (v.take n)[o]? = none := List.getElem?_take_eq_none (Nat.le_of_not_lt ho)
    exact iff_of_false (fun h => nomatch hnone.symm.trans h.1) fun h => ho h.1

/-- A failing test, in the words of the range tests: the character has no value. -/
theorem failsFirstAt_isNone {α : Type} {value : Byte → Option α} {v : List Byte} {o : Nat} {x : Byte} :
    FailsFirstAt (fun y => (value y).isNone) v o x ↔
      v[o]? = some x ∧ value x = none ∧ ∀ q < o, ∃ d, v[q]? = some d ∧ value d ≠ none := by
  simp only [FailsFirstAt, Option.isNone_iff_eq_none, Option.isNone_eq_false_iff, Option.isSome_iff_ne_none]

/-! ### The two errors of each decoder (42_base64.md R156, 43_hex.md R177) -/

theorem b64decPure_eq_lengthError_iff {s : List Byte} : b64decPure s = .lengthError ↔ s.length % 4 ≠ 0 := by
  by_cases h4 : s.length % 4 = 0
  · cases hf : b64Fail (body64 s) with
    | none => simp [b64decPure_valid h4 hf, h4]
    | some p => simp [b64decPure_invalid h4 hf, h4]
  · simp [b64decPure_lengthError h4, h4]

theorem hexdecPure_eq_lengthError_iff {s : List Byte} : hexdecPure s = .lengthError ↔ s.length % 2 ≠ 0 := by
  by_cases h2 : s.length % 2 = 0
  · cases hf : hexFail s with
    | none => simp [hexdecPure_valid h2 hf, h2]
    | some q => simp [hexdecPure_invalid h2 hf, h2]
  · simp [hexdecPure_lengthError h2, h2]

theorem b64decPure_eq_codecError_iff {s : List Byte} {o : Nat} {x : Byte} :
    b64decPure s = .codecError o x ↔ s.length % 4 = 0 ∧ FailsFirstAt bad64 (body64 s) o x := by
  rw [failsFirstAt_iff, ← b64Fail]
  by_cases h4 : s.length % 4 = 0
  · cases hf : b64Fail (body64 s) with
    | none => simp [b64decPure_valid h4 hf]
    | some p =>
      have hp : p < s.length - (paddingCount s).toNat := length_body64 s ▸ failPos_lt (i := .b64dec) hf
      have hbyte : (body64 s).getD p 0 = s.getD p 0 := by
        rw [List.getD_eq_getElem?_getD, body64, List.getElem?_take_of_lt hp, ← List.getD_eq_getElem?_getD]
      rw [b64decPure_invalid h4 hf, CodecResult.codecError.injEq, Option.some.injEq, and_iff_right h4]
      exact and_congr_right fun hpo => by rw [← hpo, hbyte]
  · simp [b64decPure_lengthError h4, h4]

theorem hexdecPure_eq_codecError_iff {s : List Byte} {o : Nat} {x : Byte} :
    hexdecPure s = .codecError o x ↔ s.length % 2 = 0 ∧ FailsFirstAt badHex s o x := by
  rw [failsFirstAt_iff, ← hexFail]
  by_cases h2 : s.length % 2 = 0
  · cases hf : hexFail s with
    | none => simp [hexdecPure_valid h2 hf]
    | some q =>
      rw [hexdecPure_invalid h2 hf, CodecResult.codecError.injEq, Option.some.injEq, and_iff_right h2]
      exact and_congr_right fun hqo => by rw [hqo]
  · simp [hexdecPure_lengthError h2, h2]

/-- Settles O39: the length is checked first, and the body's first failing position is the text's, if it lies
before the padding (`failsFirstAt_take`). -/
theorem b64decFailsExactlyWhere : Obligations.B64decFailsExactlyWhere := by
  refine fun s => ⟨b64decPure_eq_lengthError_iff, fun o x => ?_⟩
  rw [b64decPure_eq_codecError_iff, body64, failsFirstAt_take]
  exact and_congr_right fun _ => and_congr_right fun _ => failsFirstAt_isNone

/-- Settles O45: the length is checked first, and the error is the first failing position of the text. -/
theorem hexdecFailsExactlyWhere : Obligations.HexdecFailsExactlyWhere := by
  refine fun s => ⟨hexdecPure_eq_lengthError_iff, fun o x => ?_⟩
  rw [hexdecPure_eq_codecError_iff]
  exact and_congr_right fun _ => failsFirstAt_isNone

end Sys2Proof.Machine
end

section
/-! PROOFS. The lane realisations of the transforms (42_base64.md R148, 43_hex.md R172, R174, R175) and the window
load (40_lane_vector.md R101): obligations O41, O47 and O54. -/

namespace Sys2Proof.Machine

/-- Settles O41: the lookup of the offset and the addition are `SYM` at every position (`symLane_eq`). -/
theorem symLaneComputesSym : Obligations.SymLaneComputesSym := symLane_eq

/-- Settles O47: the two digit lanes are the halves of the encoding (`hexencLanes_eq`); deinterleaving takes the
even and odd positions of the two lanes side by side, so the combined lane is `hexdecLane_eq` and the two-sided
validation is `firstFail2_deinterleave`. -/
theorem hexLanesComputeTheByteFormulas : Obligations.HexLanesComputeTheByteFormulas := by
  refine ⟨fun v h16 => ⟨_, _, hexencLanes_eq v h16, ?_, ?_, List.take_append_drop _ _⟩, fun s0 s1 hlen => ?_⟩
  · rw [List.length_take_of_le (by rw [length_hexencX]; omega)]
  · rw [List.length_drop, length_hexencX]
    omega
  · have h2 : (s0 ++ s1).length % 2 = 0 := by
      rw [List.length_append]
      omega
    exact ⟨hexdecLane_eq _ h2, fun n hn =>
      firstFail2_deinterleave badHex (s0 ++ s1) n (hn.trans_eq List.length_append.symm)⟩

/-- Settles O54: inside the input the extra bytes are dropped again (`loadWindow_eq`), and the nominal chunk is
checked before anything is fetched. -/
theorem windowLoadPassesOnTheNominalChunk : Obligations.WindowLoadPassesOnTheNominalChunk :=
  fun _ _ _ pre post => ⟨loadWindow_eq pre post, fun hlt => if_neg (Nat.not_le_of_lt hlt)⟩

end Sys2Proof.Machine
end

section
/-! PROOFS. The buffer memories and the host's reads of OBUF (20_memory.md R60, 10_state.md R35): obligations O55
and O57. -/

namespace Sys2Proof.Machine

/-- Settles O55: the two laws of the buffer memories. -/
theorem memoryReadAfterWrite : Obligations.MemoryReadAfterWrite :=
  fun m o v => ⟨Memory.read?_writeBytes m o v, Memory.wf_writeBytes o v⟩

/-- Settles O57: in DONE the invariant lists every byte below `DST_LEN`, so the read is defined; elsewhere no byte
is defined, and the read is a draw. -/
theorem hostReadsOfObuf : Obligations.HostReadsOfObuf := by
  intro s o hinv ho
  refine ⟨fun hdone hlt => ?_, fun hundefined => ⟨_, hostAct_readObuf_free ho (if_neg ?_)⟩⟩
  · obtain ⟨b, hb⟩ := Option.isSome_iff_exists.1 (hinv.results.outputListed hdone o hlt)
    exact ⟨b, hb, hostAct_readObuf_defined ho ((if_pos ⟨hdone, hlt⟩).trans hb)⟩
  · rintro ⟨hdone, hlt⟩
    exact hundefined.elim (absurd hdone) (Nat.not_le_of_lt hlt)

end Sys2Proof.Machine
end

section
/-! PROOFS. The command word, the step and the register reads (30_encoding.md R70 to R77, 10_state.md R20 to R27,
70_reset_and_hazards.md R217): obligations O3, O4, O5, O6 and O10. -/

namespace Sys2Proof.Machine

/-! ### The table's word (30_encoding.md R70, R72) -/

/-- Taken modulo 2^32, the number of a 32-bit word is that word's. -/
theorem ofNat_toNat_mod (w : Word) : BitVec.ofNat 32 (w.toNat % 2 ^ 32) = w := by
  rw [Nat.mod_eq_of_lt w.isLt, BitVec.ofNat_toNat, BitVec.setWidth_eq]

theorem decodeTableWord_toNat {w : Word} {i : Instr} (h : decode w = .ok i) :
    decodeTableWord 32 w.toNat = some i := by
  rw [decodeTableWord, if_pos (Nat.mod_lt _ (by decide)), ofNat_toNat_mod, h]

/-- Settles O3: the decoder inverts the encoder (`decode_encode`), and the table's numbering is the word's own. -/
theorem decodeInvertsEncode : Obligations.DecodeInvertsEncode :=
  fun i _ => ⟨decode_encode i, decodeTableWord_toNat (decode_encode i)⟩

/-! ### The step (30_encoding.md R77, 70_reset_and_hazards.md R217) -/

theorem withFetchWord_toNat (s : State) (w : Word) :
    s.withFetchWord 32 w.toNat = { s with script := .write 0 w :: s.script } := by
  rw [State.withFetchWord, State.withCtrlWrite, ofNat_toNat_mod]

/-- Settles O4: a step takes the head of the host's actions, here a CTRL write of a command
(`hostAct_writeCtrl_command`), which is also what `withFetchWord` places. -/
theorem stepRunsTheDecodedCommand : Obligations.StepRunsTheDecodedCommand := by
  have ctrlWrite (s : State) (w : Word) (rest : List HostAction) (i : Instr)
      (hscript : s.script = .write 0 w :: rest) (hdecode : decode w = .ok i) :
      step s = exec i { s with script := rest } :=
    (step_host hscript).trans (hostAct_writeCtrl_command _ hdecode)
  refine ⟨ctrlWrite, fun s i => ?_⟩
  rw [withFetchWord_toNat]
  exact ctrlWrite _ (encode i) s.script i rfl (decode_encode i)

/-- Settles O5: an empty script and the action `yieldEngine` both give the engine its turn. -/
theorem engineStepsOnlyWhileBusy : Obligations.EngineStepsOnlyWhileBusy := by
  intro s r hr
  have hstep : step s = engineTurn r := by
    obtain ⟨hscript, rfl⟩ | ⟨rest, hscript, rfl⟩ := hr
    · rw [step, transition, hscript]
    · exact step_host hscript
  rw [hstep]
  exact ⟨engineTurn_resting, fun hb _ => engineTurn_busy hb, fun hb _ => engineTurn_fault hb⟩

/-! ### Register reads (10_state.md R20, R21, R27) -/

/-- What `LANE_W` reads is fixed by `L` (log 24). -/
theorem laneWord_congr {p q : Params} (h : p.L = q.L) : laneWord p = laneWord q := by
  rw [laneWord, laneWord, h]

theorem hostAct_read_laneW {s : State} (h : s.params.L < 2 ^ 32) :
    hostAct (.read 6) s = .next (s.returned (.word (BitVec.ofNat 32 s.params.L))) :=
  laneWord_of_lt h ▸ hostAct_read (x := .laneW) rfl s

theorem hostAct_access_beyond (s : State) {r : Nat} (hr : 8 ≤ r) :
    hostAct (.read r) s = .refused .noSuchRegister ∧
      ∀ v, hostAct (.write r v) s = .refused .noSuchRegister := by
  simp only [hostAct, regOfNumber_eq_none hr, implies_true, and_self]

/-- Settles O6: a read returns the value of the register of that number (`hostAct_read`) and is recorded; numbers
from 8 on name no register (`regOfNumber_eq_none`). -/
theorem registerReadsReturnTheRegisterMap : Obligations.RegisterReadsReturnTheRegisterMap := fun s =>
  ⟨hostAct_read (x := .ctrl) rfl s, hostAct_read (x := .srcLen) rfl s, hostAct_read (x := .status) rfl s,
    hostAct_read (x := .dstLen) rfl s, hostAct_read (x := .errOffset) rfl s, hostAct_read (x := .errByte) rfl s,
    hostAct_read_laneW, ⟨laneWord s.params, fun t h => laneWord_congr h ▸ hostAct_read (x := .laneW) rfl t⟩,
    hostAct_read (x := .cap) rfl s, fun _ => hostAct_access_beyond s⟩

/-! ### The frame of START (41_engine.md R107) -/

/-- Settles O10: a command that answers a next state is accepted or, in FATAL, ignored (`exec_next`), and the
latch-and-clear writes none of these. -/
theorem startFrame : Obligations.StartFrame := by
  intro i s t h
  obtain ⟨-, rfl⟩ | ⟨-, rfl⟩ := exec_next h
  · exact ⟨rfl, rfl, rfl, rfl, rfl, rfl, rfl, rfl, rfl, rfl, rfl, fun _ => rfl, fun _ => rfl⟩
  · exact ⟨rfl, rfl, rfl, rfl, rfl, rfl, rfl, rfl, rfl, rfl, rfl, fun _ => rfl, fun _ => rfl⟩

end Sys2Proof.Machine
end

section
/-! PROOFS. The state after reset, and the smallest block (10_state.md R38, 70_reset_and_hazards.md R216, log 21):
obligations O18, O59 and O60. -/

namespace Sys2Proof.Machine

/-- Settles O18: `inv_resetOf`, for the parameters of `State.reset` too, which are sound. -/
theorem resetSatisfiesTheInvariant : Obligations.ResetSatisfiesTheInvariant :=
  ⟨fun _ => inv_resetOf, inv_resetOf (by decide)⟩

/-- Settles O59: after the reset event the block is IDLE, so no OBUF byte is defined, and IBUF lists no byte. -/
theorem resetForgetsTheBuffers : Obligations.ResetForgetsTheBuffers := by
  refine fun s => ⟨resetEvent s, rfl, fun o => if_neg ?_, fun o => ?_⟩
  · rw [resetEvent_status]
    exact nofun
  · rw [State.ibufByte, resetEvent_ibuf, Memory.read?_nil, Option.getD_none, resetEvent_epoch]

/-! ### The smallest block (log 21) -/

/-- A command of one input byte takes three engine steps: no group of `B64ENC` is full. -/
theorem commandSteps_b64enc_one {p : Params} (hs : p.supported = true) (x : Byte) :
    commandSteps p .b64enc [x] = 3 := by
  have hstep : 1 < stepIn p.L (pathOf p 1) .b64enc := by
    have hgroups := groups_pos hs (pathOf p 1) .b64enc
    rw [stepIn, gIn]
    omega
  rw [commandSteps_b64enc, List.length_singleton, Nat.div_eq_of_lt hstep]

theorem State.input_one {s : State} (h : s.srcLen = 1) : s.input = [s.ibufByte 0] := by
  rw [State.input, h]
  rfl

/-- Settles O60: the bound is `outLen_le_iff`; the command of one byte ends as every command does
(`exists_commandEnds`), with the encoding of that byte; and a host read beyond OBUF is a fault. -/
theorem smallestBlockDeliversB64enc : Obligations.SmallestBlockDeliversB64enc := by
  refine ⟨fun p i n padc hn => ?_, fun s hs hscript haccepts hone hnmax => ?_, fun s o => hostAct_readObuf_beyond⟩
  · rw [← Nat.not_le, outLen_le_iff hn, outputFits, not_not]
  · have hwf : s.params.wf = true := by simp [Params.wf, hnmax]
    obtain ⟨u, hend⟩ := exists_commandEnds (i := .b64enc) hs hscript hwf haccepts.2
    have hrun := hend.steps.run
    obtain ⟨hstatus, hdst, -, -, hout⟩ := hend.registers_of_ok (out := b64encX s.input) nofun rfl
    rw [State.input_one hone] at hrun hdst hout
    rw [commandSteps_b64enc_one hs] at hrun
    exact ⟨s.started .b64enc, u, exec_accepted _ haccepts, hrun, hstatus, BitVec.eq_of_toNat_eq hdst, hout⟩

end Sys2Proof.Machine
end
